-- ==== Sys2Proof/Word.lean ====
section
/-! DEFINITION. The value kinds of the block (00_scope.md R9, R15, R16, R20): bytes, 32-bit words, counts and bitstrings.
All values are unsigned. -/

namespace Sys2Proof

/-- A byte; bit 7 is the most significant (R15). -/
abbrev Byte := BitVec 8

/-- A 32-bit register word (R15). -/
abbrev Word := BitVec 32

/-- A symbol: one byte value, 0 to 255 (R9). -/
abbrev Symbol := Byte

/-- A frequency count of COUNT_WIDTH = 32 bits (R12). -/
abbrev Count := BitVec 32

/-- A finite sequence of bits, its first bit (root-first) at the head of the list (R16). -/
abbrev Bitstring := List Bool

end Sys2Proof
end

