-- ==== Sys2Proof/Syntax.lean ====
section
/-! DEFINITION. The commands of the block, one constructor for each row of opcode_table.json (30_encoding.md R100, R101).
A command has no operand fields (R103); a reserved row keeps the opcode it was read from, since the row covers a range. -/

namespace Sys2Proof

/-- A command of the block. -/
inductive Instr where
  /-- 0x00 NOP (45_control.md R260). -/
  | nop
  /-- 0x01 CLEAR (45_control.md R261). -/
  | clear
  /-- 0x02 COUNT (40_tree_builder.md R140). -/
  | count
  /-- 0x03 SELECT_EOF (40_tree_builder.md R142). -/
  | selectEof
  /-- 0x04 BUILD (40_tree_builder.md R143). -/
  | build
  /-- 0x05 ENC_LOOKUP (40_tree_builder.md R148). -/
  | encLookup
  /-- 0x06 ENC_SET (40_tree_builder.md R149). -/
  | encSet
  /-- 0x07 BW_INSERT (41_bit_writer.md R171). -/
  | bwInsert
  /-- 0x08 BW_FLUSH (41_bit_writer.md R173). -/
  | bwFlush
  /-- 0x09 WRITE_TABLE (42_table_codec.md R187). -/
  | writeTable
  /-- 0x0A READ_TABLE (42_table_codec.md R188). -/
  | readTable
  /-- 0x0B DEC_LOOKUP (42_table_codec.md R190). -/
  | decLookup
  /-- 0x0C BR_START (43_bit_reader.md R220). -/
  | brStart
  /-- 0x0D BR_EXTRACT (43_bit_reader.md R222). -/
  | brExtract
  /-- 0x0E ENCODE (44_transcoder.md R240). -/
  | encode
  /-- 0x0F DECODE (44_transcoder.md R242). -/
  | decode
  /-- Reserved opcodes 0x10 to 0x1F (45_control.md R262). -/
  | reserved10To1F (opcode : Byte)
  /-- Reserved opcodes 0x20 to 0x3F (45_control.md R262). -/
  | reserved20To3F (opcode : Byte)
  /-- Reserved opcodes 0x40 to 0x7F (45_control.md R262). -/
  | reserved40To7F (opcode : Byte)
  /-- Reserved opcodes 0x80 to 0xFF (45_control.md R262). -/
  | reserved80ToFF (opcode : Byte)
  deriving DecidableEq, Repr

/-- The row of opcode_table.json a command stands for. -/
def Instr.mnemonic : Instr → String
  | .nop => "NOP"
  | .clear => "CLEAR"
  | .count => "COUNT"
  | .selectEof => "SELECT_EOF"
  | .build => "BUILD"
  | .encLookup => "ENC_LOOKUP"
  | .encSet => "ENC_SET"
  | .bwInsert => "BW_INSERT"
  | .bwFlush => "BW_FLUSH"
  | .writeTable => "WRITE_TABLE"
  | .readTable => "READ_TABLE"
  | .decLookup => "DEC_LOOKUP"
  | .brStart => "BR_START"
  | .brExtract => "BR_EXTRACT"
  | .encode => "ENCODE"
  | .decode => "DECODE"
  | .reserved10To1F _ => "RESERVED_10_1F"
  | .reserved20To3F _ => "RESERVED_20_3F"
  | .reserved40To7F _ => "RESERVED_40_7F"
  | .reserved80ToFF _ => "RESERVED_80_FF"

end Sys2Proof
end

