-- ==== Sys2Proof/WellFormed.lean ====
section
/-! DEFINITION. Which terms of Instr are commands: a reserved command's opcode lies in its row's range, by the row's mask and
match of opcode_table.json (30_encoding.md R101, R102). The sixteen other commands have no operand to check (R103). -/

namespace Sys2Proof

/-- The check of each row: the opcode under the row's mask is the row's match. -/
def Instr.wellFormed : Instr → Bool
  | .nop | .clear | .count | .selectEof | .build | .encLookup | .encSet | .bwInsert | .bwFlush
  | .writeTable | .readTable | .decLookup | .brStart | .brExtract | .encode | .decode => true
  | .reserved10To1F opcode => opcode &&& 0xF0#8 == 0x10#8
  | .reserved20To3F opcode => opcode &&& 0xE0#8 == 0x20#8
  | .reserved40To7F opcode => opcode &&& 0xC0#8 == 0x40#8
  | .reserved80ToFF opcode => opcode &&& 0x80#8 == 0x80#8

end Sys2Proof
end

