-- ==== Sys2Proof/Decode.lean ====
section
/-! DEFINITION. Decoding a command word and encoding a command (30_encoding.md R100 to R102, R105; opcode_table.json).
The opcode is bits [7:0]; bits [31:8] are ignored. Byte lanes are little-endian (20_memory.md R80). -/

namespace Sys2Proof

/-- Why bytes are no command word. -/
inductive DecodeError where
  /-- Fewer than the four bytes of CMD32 (R100, R105). -/
  | truncatedWord
  deriving DecidableEq, Repr

/-- The 32-bit value whose bus bytes are these, lane 0 first (20_memory.md R80). -/
def wordOfLanes : List Byte → Word
  | [b0, b1, b2, b3] => b3 ++ b2 ++ b1 ++ b0
  | _ => 0

/-- The bus bytes of a 32-bit value: byte i carries bits [8i+7 : 8i] (20_memory.md R80). -/
def wordLanes (v : Word) : List Byte :=
  [v.extractLsb' 0 8, v.extractLsb' 8 8, v.extractLsb' 16 8, v.extractLsb' 24 8]

/-- The OPCODE field of a command word (R100). -/
def opcodeField (v : Word) : Byte := v.extractLsb' 0 8

/-- The command an opcode selects (R101; R102 for the reserved range). Every opcode selects exactly one. -/
def decodeOpcode (op : Byte) : Instr :=
  match op.toNat with
  | 0x00 => .nop
  | 0x01 => .clear
  | 0x02 => .count
  | 0x03 => .selectEof
  | 0x04 => .build
  | 0x05 => .encLookup
  | 0x06 => .encSet
  | 0x07 => .bwInsert
  | 0x08 => .bwFlush
  | 0x09 => .writeTable
  | 0x0A => .readTable
  | 0x0B => .decLookup
  | 0x0C => .brStart
  | 0x0D => .brExtract
  | 0x0E => .encode
  | 0x0F => .decode
  | n =>
    if n < 0x20 then .reserved10To1F op
    else if n < 0x40 then .reserved20To3F op
    else if n < 0x80 then .reserved40To7F op
    else .reserved80ToFF op

/-- The command a 32-bit command word is (R100). -/
def decodeWord (v : Word) : Instr := decodeOpcode (opcodeField v)

/-- Decode the command at the head of any bytes, and give the bytes after it: four bytes are one command word (R105). -/
def decodeBytes : List Byte → Except DecodeError (Instr × List Byte)
  | b0 :: b1 :: b2 :: b3 :: rest => .ok (decodeWord (wordOfLanes [b0, b1, b2, b3]), rest)
  | _ => .error .truncatedWord

/-! The encoder, written from the opcode map (R101). -/

/-- OPCODE(MNEMONIC) of 30_encoding.md R107. -/
def encodeOpcode : Instr → Byte
  | .nop => 0x00
  | .clear => 0x01
  | .count => 0x02
  | .selectEof => 0x03
  | .build => 0x04
  | .encLookup => 0x05
  | .encSet => 0x06
  | .bwInsert => 0x07
  | .bwFlush => 0x08
  | .writeTable => 0x09
  | .readTable => 0x0A
  | .decLookup => 0x0B
  | .brStart => 0x0C
  | .brExtract => 0x0D
  | .encode => 0x0E
  | .decode => 0x0F
  | .reserved10To1F opcode => opcode
  | .reserved20To3F opcode => opcode
  | .reserved40To7F opcode => opcode
  | .reserved80ToFF opcode => opcode

/-- The command word of a command; software writes 0 to bits [31:8] (R100). -/
def encode (i : Instr) : Word := (encodeOpcode i).setWidth 32

/-- The bytes of a command word as the bus carries them (20_memory.md R80). -/
def encodeBytes (i : Instr) : List Byte := wordLanes (encode i)

/-- The host's question to the decoder: the instruction whose bits are `w`, bit 0 the least significant bit of the word, the bits
above `nbits` being 0. -/
def decodeTableWord (nbits w : Nat) : Option Instr :=
  match decodeBytes (wordLanes (BitVec.ofNat 32 (w % 2 ^ nbits))) with
  | .ok (i, _) => some i
  | .error _ => none

end Sys2Proof
end

