-- ==== Sys2Proof/Config.lean ====
section
/-! DEFINITION. What the platform fixes before the first command (70_reset_and_hazards.md R305), and the one free value of the
spec (10_state.md R39). -/

namespace Sys2Proof

/-- The parameters of the block, fixed before reset and constant afterwards (R305). They stand in State, where no step changes
them, so that a statement over all states holds for every choice. -/
structure Params where
  /-- WORD_BITS, the width of the Bit Writer's buffer (00_scope.md R10). -/
  wordBits : Nat
  /-- MAGIC; MAGIC_LEN is its length (R11, OPEN). -/
  magic : List Byte
  /-- BASE, the bus address of the register window (R13, OPEN). -/
  base : Nat
  deriving DecidableEq, Repr

/-- The legal parameters: WORD_BITS is a multiple of 8 from 8 to 128 (R10). -/
def Params.legal (p : Params) : Bool :=
  p.wordBits % 8 == 0 && decide (8 ≤ p.wordBits) && decide (p.wordBits ≤ 128)

/-- The parameters the test vectors of the spec use (95_test_vectors.md, conventions): WORD_BITS = 64 is the spec's default (R10).
DESIGN CHOICE (log entry 3): MAGIC and BASE are OPEN, and State.reset has to name some value for each. -/
def Params.vectors : Params := { wordBits := 64, magic := [], base := 0 }

/-- FREE VALUE (10_state.md R39, 93_implementation_defined.md I11; log entry 4): what the n-th host read of a register other than
STATUS returns while BUSY = 1. Nothing constrains it. -/
opaque Config.freeRead : Nat → Word

end Sys2Proof
end

