-- ==== Sys2Proof/Machine/State.lean ====
section
/-! DEFINITION. The state of the block and of what stands around it (10_state.md R30 to R36, 20_memory.md R82), the ways a step
can stop, and the state after reset (10_state.md R59, 70_reset_and_hazards.md R300 to R306). -/

namespace Sys2Proof.Machine

/-- The block never stops with a fault: every command terminates and errors are latched next states
(70_reset_and_hazards.md R312; 93_implementation_defined.md I20). Raised by nobody, so safe. -/
inductive Fault where
  deriving DecidableEq, Repr

/-- Why a step has no meaning in the model. None of these is an instruction of the block but the first. -/
inductive Refusal where
  /-- An arm of exec without a meaning; no arm is left so. Safe. -/
  | notModelled (mnemonic : String)
  /-- A window access that is not four lanes at a multiple of 4 (20_memory.md R81, R97); raised by a bus turn. Safe. -/
  | windowAccess
  /-- A bus access that is not to the register window, so not to this block (log entry 6); raised by a bus turn. Safe. -/
  | outsideWindow
  /-- The host moved a stream while BUSY = 1, which the model gives it no move for (20_memory.md R82,
  93_implementation_defined.md I13); raised by a stream turn. Safe. -/
  | streamMoveWhileBusy
  deriving DecidableEq, Repr

/-- Why BR_VALID last became 0 (10_state.md R35). The register value 3 is never produced (R52). -/
inductive ReaderFail where
  | none
  | noMatch
  | sourceEnd
  deriving DecidableEq, Repr

/-- Who moves next, and with what: the spec's agents (00_scope.md R8) and the platform's reset (70_reset_and_hazards.md R300). -/
inductive Turn where
  /-- The block's completion step (10_state.md R38). -/
  | block
  /-- A host bus write; the lanes are the bytes at `addr`, `addr + 1`, … (20_memory.md R80). -/
  | busWrite (addr : Nat) (lanes : List Byte)
  /-- A host bus read of `width` bytes at `addr` (20_memory.md R80). -/
  | busRead (addr width : Nat)
  /-- The host attaches a source (20_memory.md R82). -/
  | attach (bytes : List Byte)
  /-- The host reads the sink without emptying it (20_memory.md R82). -/
  | lookSink
  /-- The host takes the sink's bytes and empties it (20_memory.md R82, 30_encoding.md R106). -/
  | drain
  /-- The platform asserts reset (70_reset_and_hazards.md R300). -/
  | platformReset
  deriving DecidableEq, Repr

/-- What the host has received. -/
inductive Seen where
  /-- The lanes a bus read returned. -/
  | lanes (addr : Nat) (bytes : List Byte)
  /-- The sink's bytes, at a look or a drain. -/
  | sink (bytes : List Byte)
  deriving DecidableEq, Repr

/-- FREQ (10_state.md R30). -/
abbrev FreqTable := Vector Count 256

/-- ENC (10_state.md R31); `none` is the spec's "no entry". -/
abbrev EncTable := Vector (Option Bitstring) 256

/-- DEC (10_state.md R32): keys strictly rising in the order of `bitsBefore`, so that equal tables are equal lists. -/
abbrev DecTable := List (Bitstring × Symbol)

/-- Everything the spec gives the machine, and the model's own schedule (INVENTORY.md, State). -/
structure State where
  /-- WORD_BITS, MAGIC, BASE (70_reset_and_hazards.md R305). -/
  params : Params
  /-- FREQ (R30). -/
  freq : FreqTable
  /-- ENC (R31). -/
  enc : EncTable
  /-- DEC (R32). -/
  dec : DecTable
  /-- DEC_VALID (R32). -/
  decValid : Bool
  /-- SYM (R33). -/
  sym : Symbol
  /-- CODE, bit i is CODE[i] (R33, R49). -/
  code : BitVec 2048
  /-- CODE_LEN (R33). -/
  codeLen : BitVec 12
  /-- CODE_IDX (R33). -/
  codeIdx : BitVec 6
  /-- EOF_SYM (R34). -/
  eofSym : Symbol
  /-- EOF_VALID (R34). -/
  eofValid : Bool
  /-- WIDTH (R34). -/
  width : Byte
  /-- BW_PEND (R35). -/
  bwPend : Bitstring
  /-- BR_BYTE (R35). -/
  brByte : Byte
  /-- BR_NBITS, 0 to 8 (R35). -/
  brNbits : Nat
  /-- BR_VALID (R35). -/
  brValid : Bool
  /-- BR_MAXLEN, 0 to 2039 (R35). -/
  brMaxlen : Nat
  /-- BR_FAIL (R35). -/
  brFail : ReaderFail
  /-- BUSY (R36). -/
  busy : Bool
  /-- DONE (R36). -/
  done : Bool
  /-- ERR (R36). -/
  err : Bool
  /-- FOUND (R36). -/
  found : Bool
  /-- OVERRUN (R36). -/
  overrun : Bool
  /-- ERR_CODE (R36). -/
  errCode : Byte
  /-- ERR_DETAIL (R36). -/
  errDetail : Byte
  /-- CMD_LAST (R36). -/
  cmdLast : Byte
  /-- PENDING_OP (R36). -/
  pendingOp : Byte
  /-- SRC (20_memory.md R82). -/
  src : List Byte
  /-- SRC_POS (20_memory.md R82). -/
  srcPos : Nat
  /-- SNK (20_memory.md R82). -/
  snk : List Byte
  /-- The model's own: the turns not yet taken (log entry 1). -/
  agenda : List Turn
  /-- The model's own: what the host has received, newest first (log entry 2). -/
  seen : List Seen
  /-- The model's own: how many free draws were made (log entry 4). -/
  draws : Nat
  deriving DecidableEq, Repr

/-- The state after reset for given parameters: 10_state.md R59 for the block, the empty source of 70_reset_and_hazards.md R306.
DESIGN CHOICE (log entries 1, 2, 4, 5): the sink is empty, and so are the model's own fields. -/
def State.resetWith (p : Params) : State where
  params := p
  freq := Vector.replicate 256 0
  enc := Vector.replicate 256 none
  dec := []
  decValid := false
  sym := 0
  code := 0
  codeLen := 0
  codeIdx := 0
  eofSym := 0
  eofValid := false
  width := 0
  bwPend := []
  brByte := 0
  brNbits := 0
  brValid := false
  brMaxlen := 0
  brFail := .none
  busy := false
  done := false
  err := false
  found := false
  overrun := false
  errCode := 0
  errDetail := 0
  cmdLast := 0
  pendingOp := 0
  src := []
  srcPos := 0
  snk := []
  agenda := []
  seen := []
  draws := 0

/-- The state after reset (10_state.md R59), with the parameters of the spec's test vectors (log entry 3). -/
def State.reset : State := State.resetWith Params.vectors

end Sys2Proof.Machine
end

