-- ==== Sys2Proof/Machine/Ops.lean ====
section
/-! DEFINITION. The shared operations over the state: tables, streams (20_memory.md R82 to R85), the Bit Reader's reset
(43_bit_reader.md R223), command start and completion (10_state.md R37, R38) and raising an error (60_exceptions.md R270 to R276). -/

namespace Sys2Proof.Machine

/-! ### Symbols and bits -/

/-- All symbols, in ascending order. -/
def allSymbols : List Symbol := (List.range 256).map (BitVec.ofNat 8)

/-- The number whose bit i is the i-th bit of the list. -/
def natOfBits : List Bool → Nat
  | [] => 0
  | b :: bs => b.toNat + 2 * natOfBits bs

/-- The byte whose bit j is `f j` (00_scope.md R15). -/
def byteOfBits (f : Nat → Bool) : Byte := BitVec.ofNat 8 (natOfBits ((List.range 8).map f))

/-! ### FREQ and ENC -/

/-- `FREQ[b]` (10_state.md R30). -/
def freqAt (freq : FreqTable) (b : Symbol) : Count := freq[b.toNat]'b.isLt

/-- FREQ with `FREQ[b] <- v`. -/
def freqSet (freq : FreqTable) (b : Symbol) (v : Count) : FreqTable := freq.set b.toNat v b.isLt

/-- FREQ with every count 0. -/
def freqZero : FreqTable := Vector.replicate 256 0

/-- `ENC[b]` (10_state.md R31). -/
def encAt (enc : EncTable) (b : Symbol) : Option Bitstring := enc[b.toNat]'b.isLt

/-- ENC with `ENC[b] <- c`. -/
def encPut (enc : EncTable) (b : Symbol) (c : Option Bitstring) : EncTable := enc.set b.toNat c b.isLt

/-- ENC without any entry. -/
def encEmpty : EncTable := Vector.replicate 256 none

/-- The symbols, ascending, whose entry in a table of 256 has the property. -/
def symbolsWhere {α : Type} (table : Vector α 256) (p : α → Bool) : List Symbol :=
  ((allSymbols.zip table.toList).filter fun x => p x.2).map Prod.fst

/-! ### DEC: a map kept as a list, keys strictly rising -/

/-- The order the keys of DEC are listed in: lexicographic, 0 before 1, a shorter code before its extensions. -/
def bitsBefore : Bitstring → Bitstring → Bool
  | [], [] => false
  | [], _ :: _ => true
  | _ :: _, [] => false
  | a :: as, b :: bs => (!a && b) || (a == b && bitsBefore as bs)

/-- `DEC[c]` (10_state.md R32): exact match (42_table_codec.md R190). -/
def decAt (d : DecTable) (c : Bitstring) : Option Symbol := (d.find? fun p => p.1 == c).map Prod.snd

/-- DEC with `c -> y` added, or put in the place of what `c` mapped to. -/
def decPut (c : Bitstring) (y : Symbol) : DecTable → DecTable
  | [] => [(c, y)]
  | p :: rest =>
    if p.1 = c then (c, y) :: rest
    else if bitsBefore c p.1 then (c, y) :: p :: rest
    else p :: decPut c y rest

/-- `max { len(k) | k in keys(DEC) }` (43_bit_reader.md R220); 0 for the empty table. -/
def maxKeyLen (d : DecTable) : Nat := d.foldr (fun p m => max p.1.length m) 0

/-- DEC is in its one form: keys strictly rising, so no key twice. -/
def decSorted (d : DecTable) : Bool := decide (d.Pairwise fun p q => bitsBefore p.1 q.1 = true)

/-! ### Streams -/

/-- What SrcRead has not returned yet: `SRC[SRC_POS ..]` (20_memory.md R82). -/
def State.unread (s : State) : List Byte := s.src.drop s.srcPos

/-- `SrcRewind()` (20_memory.md R85). -/
def State.srcRewind (s : State) : State := { s with srcPos := 0 }

/-- `SnkWrite` of each byte in turn (20_memory.md R84). -/
def State.snkAppend (s : State) (bytes : List Byte) : State := { s with snk := s.snk ++ bytes }

/-! ### The Bit Reader's reset and the parsed table's -/

/-- `ReaderReset()` (43_bit_reader.md R223). -/
def State.readerReset (s : State) : State :=
  { s with brValid := false, brByte := 0, brNbits := 0, brFail := .none, brMaxlen := 0 }

/-- What READ_TABLE and DECODE clear first (42_table_codec.md R188, 44_transcoder.md R242). -/
def State.clearParsed (s : State) : State :=
  { s with dec := [], decValid := false, width := 0, eofSym := 0, eofValid := false }

/-! ### Errors: the block's exceptions -/

/-- The (code, detail) pairs of 60_exceptions.md R271; no other is produced. -/
inductive CmdError where
  | emptyFreq
  | countOverflow
  | magicMismatch
  | truncated
  | badWidth
  | badSlot
  | dupSymbol
  | eofConflict
  | dupCode
  /-- CORRUPT_STREAM; its detail is BR_FAIL (R271, 44_transcoder.md R243). -/
  | corruptStream (reason : ReaderFail)
  | reservedOpcode
  | notReady
  | badOperand
  deriving DecidableEq, Repr

/-- BR_FAIL as the register shows it (10_state.md R35). -/
def ReaderFail.bits : ReaderFail → BitVec 2
  | .none => 0
  | .noMatch => 1
  | .sourceEnd => 2

/-- ERR_CODE of an error (R270, R271). -/
def CmdError.code : CmdError → Byte
  | .emptyFreq | .countOverflow => 1
  | .magicMismatch | .truncated | .badWidth | .badSlot | .dupSymbol | .eofConflict | .dupCode => 2
  | .corruptStream _ => 3
  | .reservedOpcode | .notReady | .badOperand => 4

/-- ERR_DETAIL of an error (R271). -/
def CmdError.detail : CmdError → Byte
  | .emptyFreq => 1
  | .countOverflow => 2
  | .magicMismatch => 1
  | .truncated => 2
  | .badWidth => 3
  | .badSlot => 4
  | .dupSymbol => 5
  | .eofConflict => 6
  | .dupCode => 7
  | .corruptStream reason => reason.bits.setWidth 8
  | .reservedOpcode => 1
  | .notReady => 2
  | .badOperand => 3

/-- How a command's rule ends: it returns, or its first `raise` ends it; either way with the state it has made
(10_state.md R38, 60_exceptions.md R272). -/
inductive Body where
  | ok (s : State)
  | raised (e : CmdError) (s : State)
  deriving DecidableEq, Repr

/-- Run one rule's body and then another's; a raise in the first ends both (44_transcoder.md, opening). -/
def Body.andThen (b : Body) (k : State → Body) : Body :=
  match b with
  | .ok s => k s
  | .raised e s => .raised e s

/-- Completion of a command that raised nothing (10_state.md R38): ERR, ERR_CODE and ERR_DETAIL stay as command start left
them. -/
def State.complete (s : State) : State := { s with busy := false, done := true }

/-- TAKING AN ERROR, the block's exception entry (60_exceptions.md R272): latch code and detail, and complete. Nothing else is
saved or changed: no pc, no vector, no mode. -/
def State.takeError (e : CmdError) (s : State) : State :=
  State.complete { s with err := true, errCode := e.code, errDetail := e.detail }

/-- The block's completion step around a command's rule (10_state.md R38). -/
def finish : Body → Host.Outcome State Fault Refusal
  | .ok s => .next s.complete
  | .raised e s => .next (s.takeError e)

/-- Command start (10_state.md R37). It is also the return from an error: it alone clears the latch, and nothing has to be
restored (60_exceptions.md R276). -/
def State.startCommand (s : State) (v : Word) : State :=
  { s with
    cmdLast := opcodeField v, pendingOp := opcodeField v, done := false, err := false, found := false,
    errCode := 0, errDetail := 0, busy := true }

/-! ### Reading a stretch of the source byte by byte -/

/-- A piece of a rule that only reads the source: it gives a value or raises, and the source position it has reached. -/
inductive Parse (α : Type) where
  | ok (a : α) (pos : Nat)
  | raised (e : CmdError) (pos : Nat)
  deriving DecidableEq, Repr

/-- One piece after another. -/
def Parse.andThen {α β : Type} (p : Parse α) (k : α → Nat → Parse β) : Parse β :=
  match p with
  | .ok a pos => k a pos
  | .raised e pos => .raised e pos

/-- A piece as part of a command's body: SRC_POS is where it stopped. -/
def Parse.run {α : Type} (p : Parse α) (s : State) (k : α → State → Body) : Body :=
  match p with
  | .ok a pos => k a { s with srcPos := pos }
  | .raised e pos => .raised e { s with srcPos := pos }

/-- `Rd()` of 42_table_codec.md R188: SrcRead, where END raises MALFORMED_HEADER / TRUNCATED. -/
def rd (src : List Byte) (pos : Nat) : Parse Byte :=
  match src[pos]? with
  | none => .raised .truncated pos
  | some b => .ok b (pos + 1)

/-- `W` times `Rd()`, in stream order. -/
def rdBytes (src : List Byte) : Nat → Nat → Parse (List Byte)
  | 0, pos => .ok [] pos
  | n + 1, pos =>
    (rd src pos).andThen fun b pos => (rdBytes src n pos).andThen fun bs pos => .ok (b :: bs) pos

end Sys2Proof.Machine
end

