-- ==== Sys2Proof/Machine/Operands.lean ====
section
/-! DEFINITION. The operand forms of the commands (30_encoding.md R103, R104) and the window the host reaches CODE through
(10_state.md R49). -/

namespace Sys2Proof.Machine

/-- `Operand()`: the bits `CODE[0 .. CODE_LEN-1]` (R104). -/
def State.operand (s : State) : Bitstring := (List.range s.codeLen.toNat).map s.code.getLsbD

/-- A bitstring result: its bits to CODE, zeros above them, its length to CODE_LEN (R104). -/
def State.putCode (s : State) (c : Bitstring) : State :=
  { s with code := BitVec.ofNat 2048 (natOfBits c), codeLen := BitVec.ofNat 12 c.length }

/-- Window `k` of CODE: bit j is `CODE[32 k + j]` (10_state.md R49). -/
def codeWindow (code : BitVec 2048) (k : Nat) : Word := code.extractLsb' (32 * k) 32

/-- CODE with window `k` written (10_state.md R49). -/
def codeWindowPut (code : BitVec 2048) (k : Nat) (v : Word) : BitVec 2048 :=
  (code &&& ~~~((BitVec.allOnes 32).setWidth 2048 <<< (32 * k))) ||| (v.setWidth 2048 <<< (32 * k))

end Sys2Proof.Machine
end

