-- ==== Sys2Proof/Machine/Flags.lean ====
section
/-! DEFINITION. The status bits (10_state.md R42): the view bits computed from the tables, the FOUND flag, and the words the
read-only registers show (R42, R43, R51, R52). -/

namespace Sys2Proof.Machine

/-- ENC_VALID: at least one entry of ENC (R31). -/
def State.encValid (s : State) : Bool := s.enc.toList.any Option.isSome

/-- BW_PENDING: the Bit Writer holds bits (R35). -/
def State.bwPending (s : State) : Bool := decide (0 < s.bwPend.length)

/-- FOUND, the result flag of a lookup or an extraction (R36). -/
def State.setFound (s : State) (b : Bool) : State := { s with found := b }

/-- The STATUS register (R42): bit 0 first; bits 31:10 read 0. -/
def State.statusWord (s : State) : Word :=
  BitVec.ofNat 32 (natOfBits
    [s.busy, s.done, s.err, s.found, s.brValid, s.encValid, s.decValid, s.eofValid, s.bwPending, s.overrun])

/-- The ERRINFO register (R43). -/
def State.errInfoWord (s : State) : Word := 0#16 ++ s.errDetail ++ s.errCode

/-- The BW_STAT register (R51): the number of pending bits, at most 127. -/
def State.bwStatWord (s : State) : Word := (BitVec.ofNat 8 s.bwPend.length).setWidth 32

/-- The BR_STAT register (R52). -/
def State.brStatWord (s : State) : Word :=
  0#4 ++ BitVec.ofNat 12 s.brMaxlen ++ 0#10 ++ s.brFail.bits ++ BitVec.ofNat 4 s.brNbits

end Sys2Proof.Machine
end

