-- ==== Sys2Proof/Machine/BitReader.lean ====
section
/-! DEFINITION. The Bit Reader (43_bit_reader.md R220 to R225) and its commands. -/

namespace Sys2Proof.Machine

/-- The rule of BR_START (R220). -/
def brStartBody (s : State) : Body :=
  if s.decValid = false then .raised .notReady s
  else .ok { s with brByte := 0, brNbits := 0, brFail := .none, brMaxlen := maxKeyLen s.dec, brValid := true }

/-- BR_START (R220). -/
def execBrStart (s : State) : Host.Outcome State Fault Refusal := finish (brStartBody s)

/-- Where the Bit Reader stands: the refill byte, how many of its bits are left, and the source position. -/
structure ReaderPos where
  byte : Byte
  nbits : Nat
  pos : Nat
  deriving DecidableEq, Repr

/-- One bit, most significant first, after a refill of one byte where none is left (R221); `none` at the end of the source. -/
def nextBit (src : List Byte) (r : ReaderPos) : Option (Bool × ReaderPos) :=
  if r.nbits = 0 then
    match src[r.pos]? with
    | none => none
    | some b => some (b.getLsbD 7, ⟨b, 7, r.pos + 1⟩)
  else some (r.byte.getLsbD (r.nbits - 1), ⟨r.byte, r.nbits - 1, r.pos⟩)

/-- How an extraction ends: with a valid code and its symbol, or with the reader invalid (R221). -/
inductive Extracted where
  | code (c : Bitstring) (b : Symbol)
  | failed (reason : ReaderFail)
  deriving DecidableEq, Repr

/-- The loop of Extract (R221) after the bits `acc`. `room` is BR_MAXLEN + 1 - len(acc), so `room = 0` is the rule's
`len(acc) > BR_MAXLEN`, tested after the match. -/
def extractLoop (d : DecTable) (src : List Byte) : Nat → Bitstring → ReaderPos → Extracted × ReaderPos
  | 0, _, r => (.failed .noMatch, r)
  | room + 1, acc, r =>
    match nextBit src r with
    | none => (.failed .sourceEnd, r)
    | some (bit, r) =>
      match decAt d (acc ++ [bit]) with
      | some b => (.code (acc ++ [bit]) b, r)
      | none => extractLoop d src room (acc ++ [bit]) r

/-- The reader's registers and SRC_POS moved to `r`. -/
def State.readerAt (s : State) (r : ReaderPos) : State :=
  { s with brByte := r.byte, brNbits := r.nbits, srcPos := r.pos }

/-- `Extract()` (R221): the code with its symbol, or `none` where the rule returns the empty bitstring. -/
def State.extract (s : State) : Option (Bitstring × Symbol) × State :=
  if s.brValid = false then (none, s)
  else
    match extractLoop s.dec s.src (s.brMaxlen + 1) [] ⟨s.brByte, s.brNbits, s.srcPos⟩ with
    | (.code c b, r) => (some (c, b), s.readerAt r)
    | (.failed reason, r) => (none, { s.readerAt r with brValid := false, brFail := reason })

/-- The rule of BR_EXTRACT (R222). -/
def brExtractBody (s : State) : Body :=
  match s.extract with
  | (none, t) => .ok ((t.putCode []).setFound false)
  | (some (c, b), t) => .ok ({ t.putCode c with sym := b }.setFound true)

/-- BR_EXTRACT (R222). -/
def execBrExtract (s : State) : Host.Outcome State Fault Refusal := finish (brExtractBody s)

end Sys2Proof.Machine
end

