-- ==== Sys2Proof/Machine/BitWriter.lean ====
section
/-! DEFINITION. The Bit Writer (41_bit_writer.md R170 to R174) and its commands. -/

namespace Sys2Proof.Machine

/-- A bitstring zero-padded to a byte boundary (R170, EmitBits). -/
def padToByte (x : Bitstring) : Bitstring := x ++ List.replicate ((8 - x.length % 8) % 8) false

/-- The bytes EmitBits writes: byte k carries bits 8k .. 8k+7 of the padded string, the first of them in bit 7
(R170, 20_memory.md R87). -/
def emitBits (x : Bitstring) : List Byte :=
  (List.range ((padToByte x).length / 8)).map fun k =>
    byteOfBits fun j => (padToByte x).getD (8 * k + (7 - j)) false

/-- The loop of WriterInsert (R170) from the pending bits `pend`: the bits pending after it and the bytes it writes. A buffer
that reaches WORD_BITS bits is written out and emptied (R172). -/
def writerLoop (wordBits : Nat) : Bitstring → Bitstring → Bitstring × List Byte
  | pend, [] => (pend, [])
  | pend, b :: c =>
    if (pend ++ [b]).length = wordBits then
      ((writerLoop wordBits [] c).1, emitBits (pend ++ [b]) ++ (writerLoop wordBits [] c).2)
    else writerLoop wordBits (pend ++ [b]) c

/-- `WriterInsert(c)` (R170). -/
def State.writerInsert (s : State) (c : Bitstring) : State :=
  { s with
    bwPend := (writerLoop s.params.wordBits s.bwPend c).1,
    snk := s.snk ++ (writerLoop s.params.wordBits s.bwPend c).2 }

/-- `WriterFlush()` (R170); with nothing pending it writes nothing. -/
def State.writerFlush (s : State) : State := { s with bwPend := [], snk := s.snk ++ emitBits s.bwPend }

/-- The rule of BW_INSERT (R171). -/
def bwInsertBody (s : State) : Body :=
  if s.codeLen.toNat > 2048 then .raised .badOperand s else .ok (s.writerInsert s.operand)

/-- BW_INSERT (R171). -/
def execBwInsert (s : State) : Host.Outcome State Fault Refusal := finish (bwInsertBody s)

/-- The rule of BW_FLUSH (R173). -/
def bwFlushBody (s : State) : Body := .ok s.writerFlush

/-- BW_FLUSH (R173). -/
def execBwFlush (s : State) : Host.Outcome State Fault Refusal := finish (bwFlushBody s)

end Sys2Proof.Machine
end

