-- ==== Sys2Proof/Machine/Control.lean ====
section
/-! DEFINITION. The control commands and the reserved opcodes (45_control.md R260 to R262). -/

namespace Sys2Proof.Machine

/-- NOP (R260). -/
def execNop (s : State) : Host.Outcome State Fault Refusal := finish (.ok s)

/-- The state CLEAR tears down after the writer's flush and the reader's reset (R261). SYM, CODE, CODE_LEN, CODE_IDX, CMD_LAST,
SRC and SRC_POS stay. -/
def State.clearTables (s : State) : State :=
  { s with
    freq := freqZero, enc := encEmpty, dec := [], decValid := false, eofSym := 0, eofValid := false, width := 0,
    overrun := false }

/-- The rule of CLEAR (R261). -/
def clearBody (s : State) : Body := .ok s.writerFlush.readerReset.clearTables

/-- CLEAR (R261). -/
def execClear (s : State) : Host.Outcome State Fault Refusal := finish (clearBody s)

/-- The rule of every reserved opcode (R262). -/
def reservedBody (s : State) : Body := .raised .reservedOpcode s

/-- Reserved opcodes 0x10 to 0x1F (R262). -/
def execReserved10To1F (_opcode : Byte) (s : State) : Host.Outcome State Fault Refusal := finish (reservedBody s)

/-- Reserved opcodes 0x20 to 0x3F (R262). -/
def execReserved20To3F (_opcode : Byte) (s : State) : Host.Outcome State Fault Refusal := finish (reservedBody s)

/-- Reserved opcodes 0x40 to 0x7F (R262). -/
def execReserved40To7F (_opcode : Byte) (s : State) : Host.Outcome State Fault Refusal := finish (reservedBody s)

/-- Reserved opcodes 0x80 to 0xFF (R262). -/
def execReserved80ToFF (_opcode : Byte) (s : State) : Host.Outcome State Fault Refusal := finish (reservedBody s)

end Sys2Proof.Machine
end

