-- ==== Sys2Proof/Machine/TableCodec.lean ====
section
/-! DEFINITION. The Table Codec: code slots (30_encoding.md R112 to R114), the preamble (R108 to R119) and its commands
(42_table_codec.md R187 to R190). -/

namespace Sys2Proof.Machine

/-! ### Code slots -/

/-- The slot width for a longest code of `maxlen` bits (30_encoding.md R112). -/
def slotWidth (maxlen : Nat) : Nat := (maxlen + 8) / 8

/-- The bit `SlotWrite(c, W)` puts at absolute position `p` (30_encoding.md R113): code bit i at `8W-1-i`, the marker just below
the last code bit, zeros below the marker. -/
def slotBit (c : Bitstring) (w p : Nat) : Bool :=
  if p + c.length = 8 * w - 1 then true
  else if 8 * w - 1 < p + c.length then c.getD (8 * w - 1 - p) false
  else false

/-- `SlotWrite(c, W)`: the bytes B[0] .. B[W-1] (30_encoding.md R113; position p is bit `p mod 8` of byte `p div 8`, 00_scope.md
R17). -/
def slotWrite (c : Bitstring) (w : Nat) : List Byte :=
  (List.range w).map fun k => byteOfBits fun j => slotBit c w (8 * k + j)

/-- The bit at absolute position `p` of a buffer (00_scope.md R17). -/
def bitAt (bytes : List Byte) (p : Nat) : Bool := (bytes.getD (p / 8) 0).getLsbD (p % 8)

/-- `SlotRead` (30_encoding.md R114; 90_conflicts.md C1): find the marker from position 0 upwards, read the code from the top
position down to just above it. `none` where the rule raises BAD_SLOT: no marker, or an empty code. -/
def slotRead (bytes : List Byte) : Option Bitstring :=
  match (List.range (8 * bytes.length)).find? (bitAt bytes) with
  | none => none
  | some m =>
    if 8 * bytes.length - 1 - m = 0 then none
    else some ((List.range (8 * bytes.length - 1 - m)).map fun i => bitAt bytes (8 * bytes.length - 1 - i))

/-! ### WRITE_TABLE -/

/-- The longest code of ENC, the sentinel's included (42_table_codec.md R187). -/
def maxCodeLen (enc : EncTable) : Nat := enc.toList.foldr (fun c m => max ((c.map List.length).getD 0) m) 0

/-- The symbols whose entries WRITE_TABLE writes: ascending, without the sentinel, or the sentinel alone where there is no other
(42_table_codec.md R187, 30_encoding.md R110, R119). -/
def tableSymbols (enc : EncTable) (eof : Symbol) : List Symbol :=
  match (symbolsWhere enc Option.isSome).filter fun b => b != eof with
  | [] => [eof]
  | b :: rest => b :: rest

/-- `SLOT(ENC[b])` at width `w`. -/
def slotOf (enc : EncTable) (w : Nat) (b : Symbol) : List Byte := slotWrite ((encAt enc b).getD []) w

/-- The bytes of the preamble (42_table_codec.md R187, 30_encoding.md R108): width, entries, terminator, EOF slot, raw EOF byte. -/
def preamble (enc : EncTable) (eof : Symbol) : List Byte :=
  let w := slotWidth (maxCodeLen enc)
  let e := tableSymbols enc eof
  [BitVec.ofNat 8 w] ++ e.flatMap (fun b => b :: slotOf enc w b) ++ e.take 1 ++ slotOf enc w eof ++ [eof]

/-- The rule of WRITE_TABLE (42_table_codec.md R187). -/
def writeTableBody (s : State) : Body :=
  if s.eofValid = false ∨ encAt s.enc s.eofSym = none ∨ 0 < s.bwPend.length then .raised .notReady s
  else .ok { s with
    snk := s.snk ++ preamble s.enc s.eofSym, width := BitVec.ofNat 8 (slotWidth (maxCodeLen s.enc)) }

/-- WRITE_TABLE (42_table_codec.md R187). -/
def execWriteTable (s : State) : Host.Outcome State Fault Refusal := finish (writeTableBody s)

/-! ### READ_TABLE -/

/-- `RdSlot(W)` (42_table_codec.md R188): BAD_SLOT is raised after all W bytes are read. -/
def rdSlot (src : List Byte) (w pos : Nat) : Parse Bitstring :=
  (rdBytes src w pos).andThen fun bytes pos =>
    match slotRead bytes with
    | none => .raised .badSlot pos
    | some c => .ok c pos

/-- The entry loop of READ_TABLE (42_table_codec.md R188), `s0` being the first symbol and `ent` the entries so far. Every round
reads at least one byte; `n` is at least the number of bytes left, so with `n = 0` none is left and `Rd()` raises. -/
def rdEntries (src : List Byte) (w : Nat) (s0 : Symbol) :
    Nat → List (Symbol × Bitstring) → Nat → Parse (List (Symbol × Bitstring))
  | 0, _, pos => .raised .truncated pos
  | n + 1, ent, pos =>
    (rd src pos).andThen fun b pos =>
      if b = s0 then .ok ent pos
      else if ent.any (fun p => p.1 == b) then .raised .dupSymbol pos
      else (rdSlot src w pos).andThen fun c pos => rdEntries src w s0 n (ent ++ [(b, c)]) pos

/-- `Validate(ent, e, ce)` (42_table_codec.md R189): the error it raises, or none. -/
def validate (ent : List (Symbol × Bitstring)) (e : Symbol) (ce : Bitstring) : Option CmdError :=
  if ent.any (fun p => p.1 == e && p.2 != ce) then some .eofConflict
  else if (ent ++ [(e, ce)]).any (fun p => (ent ++ [(e, ce)]).any fun q => p.2 == q.2 && p.1 != q.1) then some .dupCode
  else none

/-- What a well-formed preamble says. -/
structure Preamble where
  width : Byte
  entries : List (Symbol × Bitstring)
  eof : Symbol
  eofCode : Bitstring
  deriving DecidableEq, Repr

/-- The parser of READ_TABLE (42_table_codec.md R188) from position `pos` of the source. -/
def parsePreamble (src : List Byte) (pos : Nat) : Parse Preamble :=
  (rd src pos).andThen fun w pos =>
    if w = 0 then .raised .badWidth pos
    else
      (rd src pos).andThen fun s0 pos =>
      (rdSlot src w.toNat pos).andThen fun c0 pos =>
      (rdEntries src w.toNat s0 (src.length - pos) [(s0, c0)] pos).andThen fun ent pos =>
      (rdSlot src w.toNat pos).andThen fun ce pos =>
      (rd src pos).andThen fun e pos =>
        match validate ent e ce with
        | some err => .raised err pos
        | none => .ok ⟨w, ent, e, ce⟩ pos

/-- DEC for a parsed preamble: the inverse of its entries, and the sentinel (42_table_codec.md R188). -/
def Preamble.decTable (p : Preamble) : DecTable :=
  (p.entries ++ [(p.eof, p.eofCode)]).foldl (fun d q => decPut q.2 q.1 d) []

/-- The rule of READ_TABLE (42_table_codec.md R188): the table is committed only on success. -/
def readTableBody (s : State) : Body :=
  (parsePreamble s.src s.srcPos).run s.readerReset.clearParsed fun p t =>
    .ok { t with dec := p.decTable, decValid := true, eofSym := p.eof, eofValid := true, width := p.width }

/-- READ_TABLE (42_table_codec.md R188). -/
def execReadTable (s : State) : Host.Outcome State Fault Refusal := finish (readTableBody s)

/-! ### DEC_LOOKUP -/

/-- The rule of DEC_LOOKUP (42_table_codec.md R190). -/
def decLookupBody (s : State) : Body :=
  if s.codeLen.toNat > 2048 then .raised .badOperand s
  else
    match decAt s.dec s.operand with
    | none => .ok (s.setFound false)
    | some b => .ok ({ s with sym := b }.setFound true)

/-- DEC_LOOKUP (42_table_codec.md R190). -/
def execDecLookup (s : State) : Host.Outcome State Fault Refusal := finish (decLookupBody s)

end Sys2Proof.Machine
end

