-- ==== Sys2Proof/Machine/TreeBuilder.lean ====
section
/-! DEFINITION. Frequency count, sentinel choice and the Huffman Tree Builder (40_tree_builder.md R140 to R149). -/

namespace Sys2Proof.Machine

/-! ### COUNT -/

/-- What COUNT's loop leaves: FREQ, how many bytes it read, and whether it raised COUNT_OVERFLOW. -/
structure Counted where
  freq : FreqTable
  taken : Nat
  overflow : Bool
  deriving DecidableEq, Repr

/-- The loop of COUNT (R140) over the bytes still unread, `n` of them counted so far. The byte that would be number 2^32 is read
and raises (R141). -/
def countLoop : List Byte → Nat → FreqTable → Counted
  | [], n, freq => ⟨freq, n, false⟩
  | b :: rest, n, freq =>
    if n = 2 ^ 32 - 1 then ⟨freq, n + 1, true⟩
    else countLoop rest (n + 1) (freqSet freq b (freqAt freq b + 1))

/-- The rule of COUNT (R140): reader reset, counts cleared, source rewound, one full pass. -/
def countBody (s : State) : Body :=
  let r := countLoop s.src 0 freqZero
  let t := { s.readerReset.srcRewind with freq := r.freq, srcPos := r.taken }
  if r.overflow then .raised .countOverflow t else .ok t

/-- COUNT (R140). -/
def execCount (s : State) : Host.Outcome State Fault Refusal := finish (countBody s)

/-! ### SELECT_EOF -/

/-- The symbols of non-zero count, ascending: the set C of R142 and the list L of R143. -/
def observed (freq : FreqTable) : List Symbol := symbolsWhere freq fun n => n != 0

/-- The first symbol of least count in a list: the lowest byte value among ties when the list ascends (R142). -/
def leastFrequent (freq : FreqTable) : List Symbol → Option Symbol
  | [] => none
  | b :: rest =>
    match leastFrequent freq rest with
    | none => some b
    | some c => if freqAt freq c < freqAt freq b then some c else some b

/-- The rule of SELECT_EOF (R142). -/
def selectEofBody (s : State) : Body :=
  match leastFrequent s.freq (observed s.freq) with
  | none => .raised .emptyFreq s
  | some e => .ok { s with eofSym := e, eofValid := true }

/-- SELECT_EOF (R142). -/
def execSelectEof (s : State) : Host.Outcome State Fault Refusal := finish (selectEofBody s)

/-! ### BUILD -/

/-- A node of the transient tree (R144; 10_state.md R58). -/
inductive Tree where
  | leaf (b : Symbol)
  | node (one zero : Tree)
  deriving DecidableEq, Repr

/-- An item of the priority queue: frequency, insertion number, node (R144). Frequencies are exact sums. -/
structure QItem where
  f : Nat
  q : Nat
  node : Tree
  deriving DecidableEq, Repr

/-- The order RemoveMin takes items in: least `f`, then least `q` (R144). -/
def QItem.before (a b : QItem) : Bool := decide (a.f < b.f ∨ (a.f = b.f ∧ a.q < b.q))

/-- `RemoveMin` of the non-empty queue `x :: rest`: the least item, and the others (R144). -/
def removeMin (x : QItem) : List QItem → QItem × List QItem
  | [] => (x, [])
  | y :: rest =>
    let r := removeMin y rest
    if r.1.before x then (r.1, x :: r.2) else (x, y :: rest)

/-- The queue seeded with one leaf for each symbol of the list, in its order, numbered from `q` on (R144). -/
def seedQueue (freq : FreqTable) : List Symbol → Nat → List QItem
  | [], _ => []
  | b :: rest, q => ⟨(freqAt freq b).toNat, q, .leaf b⟩ :: seedQueue freq rest (q + 1)

/-- The merging loop (R145) on the queue `x :: rest`, with `next` the next insertion number. Each round leaves one item fewer, so
`n = rest.length` rounds leave one item. The first removed becomes the one-branch. -/
def mergeLoop : Nat → Nat → QItem → List QItem → Tree
  | 0, _, x, _ => x.node
  | n + 1, next, x, rest =>
    let a := removeMin x rest
    match a.2 with
    | [] => a.1.node
    | y :: ys =>
      let b := removeMin y ys
      mergeLoop n (next + 1) ⟨a.1.f + b.1.f, next, .node a.1.node b.1.node⟩ b.2

/-- `BuildTree` for the symbols `b :: rest` (R144, R145). -/
def buildTree (freq : FreqTable) (b : Symbol) (rest : List Symbol) : Tree :=
  mergeLoop rest.length (rest.length + 1) ⟨(freqAt freq b).toNat, 0, .leaf b⟩ (seedQueue freq rest 1)

/-- `Codes` (R146): each leaf with the branch bits from the root to it. -/
def Tree.codes : Tree → List (Symbol × Bitstring)
  | .leaf b => [(b, [])]
  | .node one zero =>
    (one.codes.map fun p => (p.1, true :: p.2)) ++ (zero.codes.map fun p => (p.1, false :: p.2))

/-- ENC with an entry for each pair of the list and no other. -/
def encOf (entries : List (Symbol × Bitstring)) : EncTable :=
  entries.foldl (fun enc p => encPut enc p.1 (some p.2)) encEmpty

/-- The rule of BUILD (R143). -/
def buildBody (s : State) : Body :=
  match observed s.freq with
  | [] => .raised .emptyFreq s
  | [b] => .ok { s with enc := encOf [(b, [true])] }
  | b :: c :: rest => .ok { s with enc := encOf (buildTree s.freq b (c :: rest)).codes }

/-- BUILD (R143). -/
def execBuild (s : State) : Host.Outcome State Fault Refusal := finish (buildBody s)

/-! ### ENC_LOOKUP and ENC_SET -/

/-- The rule of ENC_LOOKUP (R148). -/
def encLookupBody (s : State) : Body :=
  match encAt s.enc s.sym with
  | none => .ok ((s.putCode []).setFound false)
  | some c => .ok ((s.putCode c).setFound true)

/-- ENC_LOOKUP (R148). -/
def execEncLookup (s : State) : Host.Outcome State Fault Refusal := finish (encLookupBody s)

/-- The rule of ENC_SET (R149). -/
def encSetBody (s : State) : Body :=
  if s.codeLen.toNat > 2039 then .raised .badOperand s
  else if s.codeLen.toNat = 0 then .ok { s with enc := encPut s.enc s.sym none }
  else .ok { s with enc := encPut s.enc s.sym (some s.operand) }

/-- ENC_SET (R149). -/
def execEncSet (s : State) : Host.Outcome State Fault Refusal := finish (encSetBody s)

end Sys2Proof.Machine
end

