-- ==== Sys2Proof/Machine/Transcoder.lean ====
section
/-! DEFINITION. The Transcoder: ENCODE and DECODE run the bodies of the primitive commands in one atomic step
(44_transcoder.md R240 to R245). -/

namespace Sys2Proof.Machine

/-! ### ENCODE -/

/-- The codes EncodePayload inserts for the content bytes: each byte's code, the sentinel's twice (R241). A byte without a code
cannot occur in ENCODE (R241; log entry 10). -/
def contentCodes (enc : EncTable) (eof : Symbol) : List Byte → List Bitstring
  | [] => []
  | b :: rest =>
    let c := (encAt enc b).getD []
    if b = eof then c :: c :: contentCodes enc eof rest else c :: contentCodes enc eof rest

/-- The codes of the whole payload: the content's, then the terminator once (R241, 30_encoding.md R116). -/
def payloadCodes (enc : EncTable) (eof : Symbol) (bytes : List Byte) : List Bitstring :=
  contentCodes enc eof bytes ++ [(encAt enc eof).getD []]

/-- `EncodePayload()` (R241): read the source to its end, insert the codes in order, flush. -/
def State.encodePayload (s : State) : State :=
  let t := { s with srcPos := s.srcPos + s.unread.length }
  ((payloadCodes s.enc s.eofSym s.unread).foldl State.writerInsert t).writerFlush

/-- The rule of ENCODE (R240). -/
def encodeBody (s : State) : Body :=
  if 0 < s.bwPend.length then .raised .notReady s
  else
    (((countBody s).andThen selectEofBody).andThen buildBody).andThen fun t =>
      (writeTableBody (t.snkAppend t.params.magic)).andThen fun u => .ok u.srcRewind.encodePayload

/-- ENCODE (R240). -/
def execEncode (s : State) : Host.Outcome State Fault Refusal := finish (encodeBody s)

/-! ### DECODE -/

/-- The magic check of DECODE (R242), byte by byte. -/
def checkMagic (src : List Byte) : List Byte → Nat → Parse Unit
  | [], pos => .ok () pos
  | m :: magic, pos =>
    (rd src pos).andThen fun b pos => if b = m then checkMagic src magic pos else .raised .magicMismatch pos

/-- How many payload bits the reader can still get: the buffered ones and eight for each unread byte. -/
def State.bitsLeft (s : State) : Nat := s.brNbits + 8 * s.unread.length

/-- `DecodeLoop()` (R243). Every round that goes on has consumed at least one bit; `n` is at least the number of bits left, so
with `n = 0` none is left and the extraction fails. -/
def decodeLoop : Nat → State → Body
  | 0, s => .raised (.corruptStream s.extract.2.brFail) s.extract.2
  | n + 1, s =>
    match s.extract with
    | (none, t) => .raised (.corruptStream t.brFail) t
    | (some (_, b), t) =>
      if b ≠ t.eofSym then decodeLoop n (t.snkAppend [b])
      else
        match t.extract with
        | (none, u) => .ok u
        | (some (_, b2), u) => if b2 ≠ u.eofSym then .ok u else decodeLoop n (u.snkAppend [u.eofSym])

/-- The rule of DECODE (R242). -/
def decodeBody (s : State) : Body :=
  (checkMagic s.src s.params.magic s.srcPos).run s.readerReset.clearParsed fun _ t =>
    ((readTableBody t).andThen brStartBody).andThen fun u => decodeLoop u.bitsLeft u

/-- DECODE (R242). -/
def execDecode (s : State) : Host.Outcome State Fault Refusal := finish (decodeBody s)

end Sys2Proof.Machine
end

