-- ==== Sys2Proof/Machine/Dispatch.lean ====
section
/-! DEFINITION. One arm for each command (30_encoding.md R101, R102): the rule and the completion of 10_state.md R38. -/

namespace Sys2Proof.Machine

def exec (i : Instr) (s : State) : Host.Outcome State Fault Refusal :=
  match i with
  | .nop => Sys2Proof.Machine.execNop s
  | .clear => Sys2Proof.Machine.execClear s
  | .count => Sys2Proof.Machine.execCount s
  | .selectEof => Sys2Proof.Machine.execSelectEof s
  | .build => Sys2Proof.Machine.execBuild s
  | .encLookup => Sys2Proof.Machine.execEncLookup s
  | .encSet => Sys2Proof.Machine.execEncSet s
  | .bwInsert => Sys2Proof.Machine.execBwInsert s
  | .bwFlush => Sys2Proof.Machine.execBwFlush s
  | .writeTable => Sys2Proof.Machine.execWriteTable s
  | .readTable => Sys2Proof.Machine.execReadTable s
  | .decLookup => Sys2Proof.Machine.execDecLookup s
  | .brStart => Sys2Proof.Machine.execBrStart s
  | .brExtract => Sys2Proof.Machine.execBrExtract s
  | .encode => Sys2Proof.Machine.execEncode s
  | .decode => Sys2Proof.Machine.execDecode s
  | .reserved10To1F opcode => Sys2Proof.Machine.execReserved10To1F opcode s
  | .reserved20To3F opcode => Sys2Proof.Machine.execReserved20To3F opcode s
  | .reserved40To7F opcode => Sys2Proof.Machine.execReserved40To7F opcode s
  | .reserved80ToFF opcode => Sys2Proof.Machine.execReserved80ToFF opcode s

end Sys2Proof.Machine
end

