-- ==== Sys2Proof/Machine/HostPort.lean ====
section
/-! DEFINITION. What moves around the block: the register window (10_state.md R39 to R56, 20_memory.md R80, R81), the host's stream
moves (20_memory.md R82), platform reset (70_reset_and_hazards.md R300 to R303), whose turn it is, and the fetch of the pending
command. -/

namespace Sys2Proof.Machine

/-! ### Registers while BUSY = 0 -/

/-- The value a host read of the register at `off` returns while BUSY = 0 (10_state.md R40 to R53); offsets 0x30 to 0x3C and
reserved bits read 0. -/
def State.regRead (s : State) (off : Nat) : Word :=
  match off with
  | 0x00 => s.cmdLast.setWidth 32
  | 0x04 => s.statusWord
  | 0x08 => s.errInfoWord
  | 0x0C => s.width.setWidth 32
  | 0x10 => s.eofSym.setWidth 32
  | 0x14 => s.sym.setWidth 32
  | 0x18 => s.codeLen.setWidth 32
  | 0x1C => s.codeIdx.setWidth 32
  | 0x20 => codeWindow s.code s.codeIdx.toNat
  | 0x24 => freqAt s.freq s.sym
  | 0x28 => s.bwStatWord
  | 0x2C => s.brStatWord
  | _ => 0

/-- A host write of `v` to the register at `off` while BUSY = 0 (10_state.md R41 to R50); read-only registers and reserved offsets
ignore it (R53, R55), and so do reserved bits (R54). -/
def State.regWrite (s : State) (off : Nat) (v : Word) : State :=
  match off with
  | 0x00 => s.startCommand v
  | 0x10 => { s with eofSym := v.setWidth 8, eofValid := true }
  | 0x14 => { s with sym := v.setWidth 8 }
  | 0x18 => { s with codeLen := v.setWidth 12 }
  | 0x1C => { s with codeIdx := v.setWidth 6 }
  | 0x20 => { s with code := codeWindowPut s.code s.codeIdx.toNat v }
  | 0x24 => { s with freq := freqSet s.freq s.sym v }
  | _ => s

/-! ### Bus accesses -/

/-- The offset of a bus access in the window, or why it has no meaning here (20_memory.md R80, R81). -/
def windowOffset (base addr width : Nat) : Except Refusal Nat :=
  if addr < base ∨ base + 64 ≤ addr then .error .outsideWindow
  else if width ≠ 4 ∨ (addr - base) % 4 ≠ 0 then .error .windowAccess
  else .ok (addr - base)

/-- A bus write (10_state.md R39 while BUSY, R40 to R56 otherwise). -/
def busWrite (addr : Nat) (lanes : List Byte) (s : State) : Host.Outcome State Fault Refusal :=
  match windowOffset s.params.base addr lanes.length with
  | .error r => .refused r
  | .ok off => .next (if s.busy then { s with overrun := true } else s.regWrite off (wordOfLanes lanes))

/-- The value a bus read returns: exact, but for the free draw of a read of another register than STATUS while BUSY
(10_state.md R39). -/
def State.busValue (s : State) (off : Nat) : Word :=
  if s.busy = true ∧ off ≠ 0x04 then Config.freeRead s.draws else s.regRead off

/-- A bus read (10_state.md R39 to R53): it changes no state of the block (R56); the host receives the lanes. -/
def busRead (addr width : Nat) (s : State) : Host.Outcome State Fault Refusal :=
  match windowOffset s.params.base addr width with
  | .error r => .refused r
  | .ok off =>
    .next { s with
      seen := .lanes addr (wordLanes (s.busValue off)) :: s.seen,
      draws := if s.busy = true ∧ off ≠ 0x04 then s.draws + 1 else s.draws }

/-! ### Stream moves and reset -/

/-- The host attaches a source, between commands only (20_memory.md R82). -/
def attachSource (bytes : List Byte) (s : State) : Host.Outcome State Fault Refusal :=
  if s.busy then .refused .streamMoveWhileBusy else .next { s with src := bytes, srcPos := 0 }

/-- The host reads the sink, between commands only (20_memory.md R82). -/
def lookSink (s : State) : Host.Outcome State Fault Refusal :=
  if s.busy then .refused .streamMoveWhileBusy else .next { s with seen := .sink s.snk :: s.seen }

/-- The host takes the sink's bytes and empties it, between commands only (20_memory.md R82, 30_encoding.md R106). -/
def drainSink (s : State) : Host.Outcome State Fault Refusal :=
  if s.busy then .refused .streamMoveWhileBusy else .next { s with seen := .sink s.snk :: s.seen, snk := [] }

/-- Platform reset (70_reset_and_hazards.md R300): every piece of block state to its reset value, a pending command abandoned,
pending writer bits discarded (R302); SRC, SRC_POS and SNK stay (R303), and so do the parameters (R305). -/
def State.platformReset (s : State) : State :=
  { State.resetWith s.params with
    src := s.src, srcPos := s.srcPos, snk := s.snk, agenda := s.agenda, seen := s.seen, draws := s.draws }

/-! ### Turns -/

/-- Whose turn it is, and the state with that turn taken off the agenda. With an empty agenda the block moves (log entry 1). -/
def State.takeTurn (s : State) : Turn × State :=
  match s.agenda with
  | [] => (.block, s)
  | t :: rest => (t, { s with agenda := rest })

/-- The command the block executes next: that of PENDING_OP, while BUSY = 1 (10_state.md R38). -/
def State.fetch (s : State) : Option Instr := if s.busy then some (decodeOpcode s.pendingOp) else none

/-- The host's CMD write of `v` as the one thing that is to happen next: the command is started (10_state.md R37) and the block is
on turn (log entry 7). -/
def State.presentCommand (s : State) (v : Word) : State := { s.startCommand v with agenda := [] }

end Sys2Proof.Machine
end

