-- ==== Sys2Proof/Machine/Step.lean ====
section
/-! DEFINITION. One step of the machine: the turn at the head of the agenda (log entry 1). A turn of the block completes the
pending command (10_state.md R38); while BUSY = 0 the block is idle and its turn changes nothing (60_exceptions.md R284). -/

namespace Sys2Proof.Machine

/-- A turn of the block. -/
def blockTurn (s : State) : Host.Outcome State Fault Refusal :=
  match s.fetch with
  | some i => exec i s
  | none => .next s

/-- One turn. -/
def takeStep (t : Turn) (s : State) : Host.Outcome State Fault Refusal :=
  match t with
  | .block => blockTurn s
  | .busWrite addr lanes => busWrite addr lanes s
  | .busRead addr width => busRead addr width s
  | .attach bytes => attachSource bytes s
  | .lookSink => lookSink s
  | .drain => drainSink s
  | .platformReset => .next s.platformReset

/-- One step of the machine. -/
def step (s : State) : Host.Outcome State Fault Refusal := takeStep s.takeTurn.1 s.takeTurn.2

/-- The command word `w` presented so that the very next step runs it: the block fetches nothing from memory (20_memory.md R93),
its next command is the one the host wrote to CMD (log entry 7). -/
def State.withFetchWord (s : State) (nbits w : Nat) : State := s.presentCommand (BitVec.ofNat 32 (w % 2 ^ nbits))

end Sys2Proof.Machine
end

