-- ==== Sys2Proof/Safety.lean ====
section
/-! DEFINITION. The terms claims are stated in: the invariant every reachable state meets, what a table of codes must be, the bits
a stream carries, and which command may raise what. -/

namespace Sys2Proof.Machine

/-! ### Codes and bits -/

/-- No code of ENC is a prefix of another symbol's code (40_tree_builder.md R147 a). -/
def EncPrefixFree (enc : EncTable) : Prop :=
  ∀ b c x y, b ≠ c → encAt enc b = some x → encAt enc c = some y → ¬ x <+: y

/-- Distinct symbols have distinct codes (42_table_codec.md R191). -/
def EncDistinct (enc : EncTable) : Prop :=
  ∀ b c x, encAt enc b = some x → encAt enc c = some x → b = c

/-- `Σ_s 2^(-len(ENC[s]))` (40_tree_builder.md R147 c). -/
def kraftSum (enc : EncTable) : ℚ :=
  ((allSymbols.filterMap (encAt enc)).map fun c => (1 / 2 : ℚ) ^ c.length).sum

/-- The order items leave the priority queue in, on pairs of a frequency and an insertion number (40_tree_builder.md R144). -/
def LeavesBefore (f g p q : Nat) : Prop := f < g ∨ (f = g ∧ p < q)

/-- The symbols of non-zero count in ascending order: the list L of 40_tree_builder.md R143. -/
def countedSymbols (freq : FreqTable) : List Symbol := allSymbols.filter fun b => freqAt freq b != 0

/-- `enc` is the code of a tree merged as 40_tree_builder.md R144 to R146 say, over the `N` symbols of non-zero count. The nodes have
their insertion numbers: 0 to N-1 the leaves, N + k the node of the k-th merge. `f` is a node's frequency, `code` the branch bits from the
root to it, and `order` the nodes as RemoveMin takes them, two for each merge. -/
structure MergeHistory (freq : FreqTable) (enc : EncTable) (f : Nat → Nat) (code : Nat → Bitstring) (order : Nat → Nat) : Prop where
  /-- The leaves, ascending by symbol (R144), and the codes of the table (R146). -/
  leaf : ∀ i b, (countedSymbols freq)[i]? = some b → f i = (freqAt freq b).toNat ∧ encAt enc b = some (code i)
  /-- A merge takes nodes already made (R145). -/
  made : ∀ k, k + 1 < (countedSymbols freq).length →
    order (2 * k) < (countedSymbols freq).length + k ∧ order (2 * k + 1) < (countedSymbols freq).length + k
  /-- A merged node's frequency is the exact sum (R144, R145). -/
  sum : ∀ k, k + 1 < (countedSymbols freq).length →
    f ((countedSymbols freq).length + k) = f (order (2 * k)) + f (order (2 * k + 1))
  /-- The node removed first is the one-branch (R145). -/
  one : ∀ k, k + 1 < (countedSymbols freq).length →
    code (order (2 * k)) = code ((countedSymbols freq).length + k) ++ [true]
  /-- The node removed second is the zero-branch (R145). -/
  zero : ∀ k, k + 1 < (countedSymbols freq).length →
    code (order (2 * k + 1)) = code ((countedSymbols freq).length + k) ++ [false]
  /-- The last node made is the root. -/
  root : code (2 * (countedSymbols freq).length - 2) = []
  /-- RemoveMin takes the least frequency first, and among equal ones the least insertion number (R144). -/
  rising : ∀ j, j + 1 < 2 * (countedSymbols freq).length - 2 →
    LeavesBefore (f (order j)) (f (order (j + 1))) (order j) (order (j + 1))

/-- The table is one BUILD's queue makes (40_tree_builder.md R144 to R146). -/
def MergedInOrder (freq : FreqTable) (enc : EncTable) : Prop := ∃ f code order, MergeHistory freq enc f code order

/-- The bits of a byte, most significant first (20_memory.md R87). -/
def bitsOfByte (b : Byte) : Bitstring := (List.range 8).map fun j => b.getLsbD (7 - j)

/-- Bytes expanded to bits, most significant first within each byte (20_memory.md R87). -/
def bitsOfBytes (bytes : List Byte) : Bitstring := bytes.flatMap bitsOfByte

/-- The bits the Bit Reader has still to consume: the BR_NBITS low bits of BR_BYTE, then the unread bytes
(43_bit_reader.md R221). -/
def State.bitsAhead (s : State) : Bitstring :=
  (bitsOfByte s.brByte).drop (8 - s.brNbits) ++ bitsOfBytes s.unread

/-- Where the Bit Reader stands: BR_BYTE, BR_NBITS and SRC_POS (10_state.md R35, 20_memory.md R82). -/
def State.readerPos (s : State) : ReaderPos := ⟨s.brByte, s.brNbits, s.srcPos⟩

/-- Where a reader that stands at `r` stands once `n` more bits are consumed: the bits left of its byte are taken first, and a byte is
read only when a bit is wanted and none is left (43_bit_reader.md R221), so `ceil` of the bits beyond them by 8 bytes are read. -/
def ReaderPos.advance (src : List Byte) (r : ReaderPos) (n : Nat) : ReaderPos :=
  if n ≤ r.nbits then ⟨r.byte, r.nbits - n, r.pos⟩
  else
    let bytes := (n - r.nbits + 7) / 8
    ⟨src.getD (r.pos + bytes - 1) 0, 8 * bytes - (n - r.nbits), r.pos + bytes⟩

/-- The bits of the payload for the content bytes: the code of each byte, a second copy after each sentinel, the sentinel's code
once at the end (30_encoding.md R116). -/
def payloadBits (enc : EncTable) (eof : Symbol) (content : List Byte) : Bitstring :=
  (content.flatMap fun b =>
    if b = eof then (encAt enc b).getD [] ++ (encAt enc b).getD [] else (encAt enc b).getD [])
  ++ (encAt enc eof).getD []

/-! ### Errors -/

/-- The errors each command can raise: the table of 60_exceptions.md R273. -/
def mayRaise : Instr → List CmdError
  | .count => [.countOverflow]
  | .selectEof => [.emptyFreq]
  | .build => [.emptyFreq]
  | .encSet => [.badOperand]
  | .bwInsert => [.badOperand]
  | .writeTable => [.notReady]
  | .readTable => [.truncated, .badWidth, .badSlot, .dupSymbol, .eofConflict, .dupCode]
  | .decLookup => [.badOperand]
  | .brStart => [.notReady]
  | .encode => [.notReady, .countOverflow, .emptyFreq]
  | .decode =>
    [.magicMismatch, .truncated, .badWidth, .badSlot, .dupSymbol, .eofConflict, .dupCode,
      .corruptStream .noMatch, .corruptStream .sourceEnd]
  | .reserved10To1F _ | .reserved20To3F _ | .reserved40To7F _ | .reserved80ToFF _ => [.reservedOpcode]
  | .nop | .clear | .encLookup | .bwFlush | .brExtract => []

/-- `t` is how `s` ends when `e` was raised: the latch (60_exceptions.md R272). -/
def RaisedIn (e : CmdError) (t : State) : Prop :=
  t.err = true ∧ t.errCode = e.code ∧ t.errDetail = e.detail ∧ t.busy = false ∧ t.done = true

/-! ### What each command writes -/

/-- `s` with the state the rule of a command writes taken from `t`, and the control state of completion (10_state.md R38): the
"results written" of 30_encoding.md R101, with what the command rules add to it (the reader's reset and SRC_POS of
40_tree_builder.md R140, 42_table_codec.md R188, 44_transcoder.md R240, R242; FOUND of 10_state.md R36). `t` came from `s` by the
command only if it equals this. -/
def writtenBy (i : Instr) (s t : State) : State :=
  let c : State :=
    { s with busy := t.busy, done := t.done, err := t.err, errCode := t.errCode, errDetail := t.errDetail }
  match i with
  | .nop | .reserved10To1F _ | .reserved20To3F _ | .reserved40To7F _ | .reserved80ToFF _ => c
  | .clear =>
    { c with
      snk := t.snk, bwPend := t.bwPend, brByte := t.brByte, brNbits := t.brNbits, brValid := t.brValid,
      brMaxlen := t.brMaxlen, brFail := t.brFail, freq := t.freq, enc := t.enc, dec := t.dec, decValid := t.decValid,
      eofSym := t.eofSym, eofValid := t.eofValid, width := t.width, overrun := t.overrun }
  | .count =>
    { c with
      freq := t.freq, srcPos := t.srcPos, brByte := t.brByte, brNbits := t.brNbits, brValid := t.brValid,
      brMaxlen := t.brMaxlen, brFail := t.brFail }
  | .selectEof => { c with eofSym := t.eofSym, eofValid := t.eofValid }
  | .build => { c with enc := t.enc }
  | .encLookup => { c with code := t.code, codeLen := t.codeLen, found := t.found }
  | .encSet => { c with enc := t.enc }
  | .bwInsert | .bwFlush => { c with bwPend := t.bwPend, snk := t.snk }
  | .writeTable => { c with snk := t.snk, width := t.width }
  | .readTable =>
    { c with
      dec := t.dec, decValid := t.decValid, eofSym := t.eofSym, eofValid := t.eofValid, width := t.width,
      srcPos := t.srcPos, brByte := t.brByte, brNbits := t.brNbits, brValid := t.brValid, brMaxlen := t.brMaxlen,
      brFail := t.brFail }
  | .decLookup => { c with sym := t.sym, found := t.found }
  | .brStart =>
    { c with
      brByte := t.brByte, brNbits := t.brNbits, brValid := t.brValid, brMaxlen := t.brMaxlen, brFail := t.brFail }
  | .brExtract =>
    { c with
      code := t.code, codeLen := t.codeLen, sym := t.sym, found := t.found, srcPos := t.srcPos, brByte := t.brByte,
      brNbits := t.brNbits, brValid := t.brValid, brFail := t.brFail }
  | .encode =>
    { c with
      freq := t.freq, eofSym := t.eofSym, eofValid := t.eofValid, enc := t.enc, width := t.width, snk := t.snk,
      bwPend := t.bwPend, srcPos := t.srcPos, brByte := t.brByte, brNbits := t.brNbits, brValid := t.brValid,
      brMaxlen := t.brMaxlen, brFail := t.brFail }
  | .decode =>
    { c with
      dec := t.dec, decValid := t.decValid, eofSym := t.eofSym, eofValid := t.eofValid, width := t.width, snk := t.snk,
      srcPos := t.srcPos, brByte := t.brByte, brNbits := t.brNbits, brValid := t.brValid, brMaxlen := t.brMaxlen,
      brFail := t.brFail }

/-! ### The preamble as bytes -/

/-- The `w` bytes are a slot of the code `c`: SlotRead gives it (30_encoding.md R114). -/
def SlotOf (w : Nat) (c : Bitstring) (bytes : List Byte) : Prop := bytes.length = w ∧ slotRead bytes = some c

/-- The bytes of a preamble (30_encoding.md R108) with slots of any kind: `first` and `more` are the entries, each a symbol, its
code and its slot; then the terminator, the sentinel's slot and the sentinel. -/
def preambleBytes (w : Byte) (first : Symbol × Bitstring × List Byte) (more : List (Symbol × Bitstring × List Byte))
    (eofSlot : List Byte) (eof : Symbol) : List Byte :=
  [w] ++ (first :: more).flatMap (fun p => p.1 :: p.2.2) ++ [first.1] ++ eofSlot ++ [eof]

/-! ### The invariant -/

/-- What holds of every state the machine reaches: the ranges and relations 10_state.md R30 to R43 and the derived rules state. -/
structure State.Inv (s : State) : Prop where
  /-- 00_scope.md R10. -/
  params_legal : s.params.legal = true
  /-- 20_memory.md R82. -/
  srcPos_le : s.srcPos ≤ s.src.length
  /-- 10_state.md R35, 41_bit_writer.md R171. -/
  bwPend_lt : s.bwPend.length < s.params.wordBits
  /-- 10_state.md R31. -/
  enc_len : ∀ b c, encAt s.enc b = some c → 1 ≤ c.length ∧ c.length ≤ 2039
  /-- The canonical form of DEC (log entry 8). -/
  dec_sorted : decSorted s.dec = true
  /-- 10_state.md R32. -/
  dec_len : ∀ p ∈ s.dec, 1 ≤ p.1.length ∧ p.1.length ≤ 2039
  /-- 10_state.md R32: distinct keys map to distinct symbols. -/
  dec_inj : ∀ p ∈ s.dec, ∀ q ∈ s.dec, p.2 = q.2 → p.1 = q.1
  /-- 10_state.md R32: a parsed table has an entry, and no other state of DEC has. -/
  decValid_iff : s.decValid = true ↔ s.dec ≠ []
  /-- 70_reset_and_hazards.md R310. -/
  reader_over_dec : s.brValid = true → s.decValid = true ∧ s.brMaxlen = maxKeyLen s.dec
  /-- 10_state.md R35. -/
  brMaxlen_le : s.brMaxlen ≤ 2039
  /-- 10_state.md R35. -/
  brNbits_le : s.brNbits ≤ 8
  /-- 43_bit_reader.md R220, R221: a valid reader has not failed. -/
  brFail_valid : s.brValid = true → s.brFail = .none
  /-- 10_state.md R37. -/
  busy_clean :
    s.busy = true → s.done = false ∧ s.err = false ∧ s.found = false ∧ s.pendingOp = s.cmdLast
  /-- 10_state.md R43. -/
  no_err_zero : s.err = false → s.errCode = 0 ∧ s.errDetail = 0
  /-- 60_exceptions.md R271, R273. -/
  err_listed : s.err = true → ∃ i, ∃ e ∈ mayRaise i, s.errCode = e.code ∧ s.errDetail = e.detail

end Sys2Proof.Machine
end

