-- ==== Sys2Proof/Certificates/Slice0/Obligations.lean ====
section
/-! DEFINITION. The statements of this row, from the numbered rules of spec/. A statement about a command says its whole next state:
what `{ s with … }` does not name is unchanged. -/

open Sys2Proof Sys2Proof.Machine

/-! ### Reset -/

/-- R59: every piece of block state at its reset value, for all parameters, in the model's reset state and in any state the platform
resets; that reset leaves the source and the sink. PlatformResetEffect says that a reset turn does this. -/
def Obligations.ResetValues : Prop :=
  let atReset (s : State) : Prop :=
    (∀ b, freqAt s.freq b = 0) ∧ (∀ b, encAt s.enc b = none) ∧ s.encValid = false ∧ s.dec = [] ∧ s.decValid = false ∧
    s.sym = 0 ∧ (∀ i, s.code.getLsbD i = false) ∧ s.codeLen = 0 ∧ s.codeIdx = 0 ∧ s.eofSym = 0 ∧ s.eofValid = false ∧
    s.width = 0 ∧ s.bwPend = [] ∧ s.brByte = 0 ∧ s.brNbits = 0 ∧ s.brValid = false ∧ s.brMaxlen = 0 ∧
    s.brFail.bits = 0 ∧ s.busy = false ∧ s.done = false ∧ s.err = false ∧ s.found = false ∧ s.overrun = false ∧
    s.errCode = 0 ∧ s.errDetail = 0 ∧ s.cmdLast = 0 ∧ s.pendingOp = 0
  (∀ p : Params, atReset (State.resetWith p)) ∧
    ∀ s : State, atReset s.platformReset ∧ s.platformReset.src = s.src ∧ s.platformReset.srcPos = s.srcPos ∧
      s.platformReset.snk = s.snk

/-- R300, R302, R303: platform reset at any point, BUSY or not: the block at its reset values, the pending command and the pending
writer bits gone, source and sink untouched. When it happens, the agenda says: the model's own choice (log entry 1), as are the
fields agenda, seen and draws (log entries 1, 2, 4). -/
def Obligations.PlatformResetEffect : Prop :=
  ∀ (s : State) (rest : List Turn), s.agenda = .platformReset :: rest →
    ∃ t, step s = .next t ∧ t.src = s.src ∧ t.srcPos = s.srcPos ∧ t.snk = s.snk ∧ t.params = s.params ∧
      t = { State.resetWith s.params with
        src := t.src, srcPos := t.srcPos, snk := t.snk, agenda := rest, seen := s.seen, draws := s.draws }

/-! ### Steps, turns and the register window -/

/-- R38, R101: the block's turn executes the command its pending opcode encodes, and nothing but the agenda moves beside it. That an
empty agenda is the block's turn is the model's choice (log entry 1). -/
def Obligations.StepRunsDecodedCommand : Prop :=
  ∀ (s : State) (i : Instr), s.busy = true → decodeBytes (wordLanes (s.pendingOp.setWidth 32)) = .ok (i, []) →
    i.wellFormed = true ∧ (s.agenda = [] → step s = exec i s) ∧
      ∀ rest, s.agenda = .block :: rest → step s = exec i { s with agenda := rest }

/-- R38, R284: while BUSY = 0 the block's turn changes nothing. That an idle block has a turn is the model's choice (log entry 1). -/
def Obligations.IdleBlockKeepsState : Prop :=
  ∀ s : State, s.busy = false →
    (s.agenda = [] → step s = .next s) ∧ ∀ rest, s.agenda = .block :: rest → step s = .next { s with agenda := rest }

/-- R37, R41: a CMD write while idle starts the command of bits [7:0]; bits [31:8] do not matter. The agenda, from which the
write comes and off which it is taken, is the model's choice (log entry 1); so in the statements below. -/
def Obligations.CommandStart : Prop :=
  ∀ (s : State) (v : Word) (rest : List Turn), s.busy = false →
    s.agenda = .busWrite s.params.base (wordLanes v) :: rest →
    step s = .next { s with
      agenda := rest, cmdLast := BitVec.ofNat 8 (v.toNat % 256), pendingOp := BitVec.ofNat 8 (v.toNat % 256),
      done := false, err := false, found := false, errCode := 0, errDetail := 0, busy := true }

/-- R45 to R48, R50: the other writable registers while idle, reserved bits ignored. -/
def Obligations.RegisterWrites : Prop :=
  ∀ (s : State) (v : Word) (rest : List Turn), s.busy = false →
    (s.agenda = .busWrite (s.params.base + 0x10) (wordLanes v) :: rest →
      step s = .next { s with agenda := rest, eofSym := BitVec.ofNat 8 (v.toNat % 256), eofValid := true }) ∧
    (s.agenda = .busWrite (s.params.base + 0x14) (wordLanes v) :: rest →
      step s = .next { s with agenda := rest, sym := BitVec.ofNat 8 (v.toNat % 256) }) ∧
    (s.agenda = .busWrite (s.params.base + 0x18) (wordLanes v) :: rest →
      step s = .next { s with agenda := rest, codeLen := BitVec.ofNat 12 (v.toNat % 4096) }) ∧
    (s.agenda = .busWrite (s.params.base + 0x1C) (wordLanes v) :: rest →
      step s = .next { s with agenda := rest, codeIdx := BitVec.ofNat 6 (v.toNat % 64) }) ∧
    (s.agenda = .busWrite (s.params.base + 0x24) (wordLanes v) :: rest →
      ∃ t, step s = .next t ∧ t = { s with agenda := rest, freq := t.freq } ∧ freqAt t.freq s.sym = v ∧
        ∀ b, b ≠ s.sym → freqAt t.freq b = freqAt s.freq b)

/-- R49: CODE_DATA shows and sets the window CODE_IDX selects, bit j being CODE[32 k + j]; CODE_LEN is not changed. -/
def Obligations.CodeDataWindow : Prop :=
  ∀ (s : State) (v : Word) (rest : List Turn), s.busy = false →
    (∀ j < 32, (s.regRead 0x20).getLsbD j = s.code.getLsbD (32 * s.codeIdx.toNat + j)) ∧
    (s.agenda = .busWrite (s.params.base + 0x20) (wordLanes v) :: rest →
      ∃ t, step s = .next t ∧ t = { s with agenda := rest, code := t.code } ∧
        ∀ i < 2048, t.code.getLsbD i =
          if i / 32 = s.codeIdx.toNat then v.getLsbD (i % 32) else s.code.getLsbD i)

/-- R53, R55: a write to a read-only register or a reserved offset has no effect. -/
def Obligations.ReadOnlyWritesIgnored : Prop :=
  ∀ (s : State) (v : Word) (rest : List Turn) (off : Nat), s.busy = false →
    off ∈ [0x04, 0x08, 0x0C, 0x28, 0x2C, 0x30, 0x34, 0x38, 0x3C] →
    s.agenda = .busWrite (s.params.base + off) (wordLanes v) :: rest →
    step s = .next { s with agenda := rest }

/-- R42: the bits of STATUS, reserved bits 0. -/
def Obligations.StatusBits : Prop :=
  ∀ s : State,
    (s.regRead 0x04).getLsbD 0 = s.busy ∧ (s.regRead 0x04).getLsbD 1 = s.done ∧ (s.regRead 0x04).getLsbD 2 = s.err ∧
    (s.regRead 0x04).getLsbD 3 = s.found ∧ (s.regRead 0x04).getLsbD 4 = s.brValid ∧
    ((s.regRead 0x04).getLsbD 5 = true ↔ ∃ b, encAt s.enc b ≠ none) ∧ (s.regRead 0x04).getLsbD 6 = s.decValid ∧
    (s.regRead 0x04).getLsbD 7 = s.eofValid ∧ ((s.regRead 0x04).getLsbD 8 = true ↔ s.bwPend ≠ []) ∧
    (s.regRead 0x04).getLsbD 9 = s.overrun ∧ ∀ j, 10 ≤ j → (s.regRead 0x04).getLsbD j = false

/-- R41, R43 to R48, R50 to R53: what the other registers read, as numbers. -/
def Obligations.RegisterReadValues : Prop :=
  ∀ s : State, s.Inv →
    (s.regRead 0x00).toNat = s.cmdLast.toNat ∧
    (s.regRead 0x08).toNat = s.errCode.toNat + 256 * s.errDetail.toNat ∧
    (s.regRead 0x0C).toNat = s.width.toNat ∧ (s.regRead 0x10).toNat = s.eofSym.toNat ∧
    (s.regRead 0x14).toNat = s.sym.toNat ∧ (s.regRead 0x18).toNat = s.codeLen.toNat ∧
    (s.regRead 0x1C).toNat = s.codeIdx.toNat ∧ s.regRead 0x24 = freqAt s.freq s.sym ∧
    (s.regRead 0x28).toNat = s.bwPend.length ∧
    (s.regRead 0x2C).toNat = s.brNbits + 16 * s.brFail.bits.toNat + 65536 * s.brMaxlen ∧
    s.regRead 0x30 = 0 ∧ s.regRead 0x34 = 0 ∧ s.regRead 0x38 = 0 ∧ s.regRead 0x3C = 0

/-- R80, R56: a read while idle gives the host the register's value, byte lane i carrying bits [8i+7 : 8i], and changes no state of
the block. The list of what the host has received is the model's choice (log entry 2). -/
def Obligations.IdleBusRead : Prop :=
  ∀ (s : State) (k : Nat) (rest : List Turn), s.busy = false → k < 16 →
    s.agenda = .busRead (s.params.base + 4 * k) 4 :: rest →
    ∃ lanes, step s = .next { s with agenda := rest, seen := .lanes (s.params.base + 4 * k) lanes :: s.seen } ∧
      lanes.length = 4 ∧
      ∀ i < 4, (lanes.getD i 0).toNat = (s.regRead (4 * k)).toNat / 256 ^ i % 256

/-- R39: while BUSY = 1 a write to any offset only sets OVERRUN; a STATUS read is exact; every other read is a free draw, and no
read changes the block. The counter of the draws is the model's choice (log entry 4), and the statement holds for every value of it. -/
def Obligations.BusyAccess : Prop :=
  ∀ (s : State) (k : Nat) (v : Word) (rest : List Turn), s.busy = true → k < 16 →
    (s.agenda = .busWrite (s.params.base + 4 * k) (wordLanes v) :: rest →
      step s = .next { s with agenda := rest, overrun := true }) ∧
    (s.agenda = .busRead (s.params.base + 4 * k) 4 :: rest →
      step s = .next (if k = 1 then
          { s with agenda := rest, seen := .lanes (s.params.base + 4) (wordLanes (s.regRead 0x04)) :: s.seen }
        else
          { s with
            agenda := rest, draws := s.draws + 1,
            seen := .lanes (s.params.base + 4 * k) (wordLanes (Config.freeRead s.draws)) :: s.seen }))

/-- R81, R97: a window access of another width or at another alignment has no meaning. That it is refused while BUSY = 1
too is the model's choice (log entry 6). -/
def Obligations.MisshapenAccessRefused : Prop :=
  ∀ (s : State) (off width : Nat) (lanes : List Byte) (rest : List Turn), off < 64 → width ≠ 4 ∨ off % 4 ≠ 0 →
    lanes.length = width →
    (s.agenda = .busRead (s.params.base + off) width :: rest → step s = .refused .windowAccess) ∧
    (s.agenda = .busWrite (s.params.base + off) lanes :: rest → step s = .refused .windowAccess)

/-- R82: between commands the host attaches a source, looks at the sink and drains it; while BUSY = 1 it has no such move.
That a look and a drain are two moves is the model's reading (log entry 14). -/
def Obligations.StreamMoves : Prop :=
  ∀ (s : State) (bytes : List Byte) (rest : List Turn),
    (s.agenda = .attach bytes :: rest →
      step s = if s.busy then .refused .streamMoveWhileBusy else .next { s with agenda := rest, src := bytes, srcPos := 0 }) ∧
    (s.agenda = .lookSink :: rest →
      step s = if s.busy then .refused .streamMoveWhileBusy
        else .next { s with agenda := rest, seen := .sink s.snk :: s.seen }) ∧
    (s.agenda = .drain :: rest →
      step s = if s.busy then .refused .streamMoveWhileBusy
        else .next { s with agenda := rest, seen := .sink s.snk :: s.seen, snk := [] })

/-! ### Encoding -/

/-- R100, R101, R105: decoding the bytes of an encoded well-formed command gives it back, whatever follows. That a reserved
command carries its opcode is the model's choice (log entry 13). -/
def Obligations.DecodeOfEncode : Prop :=
  ∀ (i : Instr) (rest : List Byte), i.wellFormed = true → decodeBytes (encodeBytes i ++ rest) = .ok (i, rest)

/-- R100, R102: every 32-bit word is one command, its bits [31:8] are ignored, and fewer than four bytes are no command. -/
def Obligations.EveryWordIsOneCommand : Prop :=
  (∀ (v : Word) (rest : List Byte), ∃ i, decodeBytes (wordLanes v ++ rest) = .ok (i, rest) ∧ i.wellFormed = true ∧
    (encode i).toNat = v.toNat % 256) ∧
  ∀ bytes : List Byte, bytes.length < 4 → decodeBytes bytes = .error .truncatedWord

/-- R101: words of the opcode map, as the bus carries them, for each family. -/
def Obligations.OpcodeMapWords : Prop :=
  decodeBytes [0x00, 0x00, 0x00, 0x00] = .ok (.nop, []) ∧ decodeBytes [0x02, 0x00, 0x00, 0x00] = .ok (.count, []) ∧
  decodeBytes [0x07, 0x00, 0x00, 0x00] = .ok (.bwInsert, []) ∧ decodeBytes [0x0A, 0x00, 0x00, 0x00] = .ok (.readTable, []) ∧
  decodeBytes [0x0D, 0x00, 0x00, 0x00] = .ok (.brExtract, []) ∧ decodeBytes [0x0E, 0x56, 0x34, 0x12] = .ok (.encode, []) ∧
  decodeBytes [0x2A, 0x00, 0x00, 0x00] = .ok (.reserved20To3F 0x2A, [])

/-! ### The whole machine -/

/-- The reset state meets the invariant, for every legal parameter choice. -/
def Obligations.ResetMeetsInvariant : Prop := ∀ p : Params, p.legal = true → (State.resetWith p).Inv

/-- Every step keeps the invariant: ranges, the canonical and one-to-one DEC, a reader only over the table it was started on, a clean
latch while BUSY. The canonical form of DEC is the model's choice (log entry 8). -/
def Obligations.StepKeepsInvariant : Prop := ∀ s t : State, s.Inv → step s = .next t → t.Inv

/-- R38, R312: every command ends in a completion step, and writes nothing but what its rule names. -/
def Obligations.EveryCommandCompletesInItsFrame : Prop :=
  ∀ (i : Instr) (s : State), ∃ t, exec i s = .next t ∧ t.busy = false ∧ t.done = true ∧ t = writtenBy i s t

/-- R84, R95: a command only appends to the sink. -/
def Obligations.SinkOnlyGrows : Prop :=
  ∀ (i : Instr) (s t : State), exec i s = .next t → s.snk <+: t.snk

/-- R305: no step changes a parameter. -/
def Obligations.ParametersNeverChange : Prop := ∀ s t : State, step s = .next t → t.params = s.params

/-- R42: OVERRUN is cleared only by CLEAR and by reset. -/
def Obligations.OverrunClearedOnlyByClearOrReset : Prop :=
  ∀ s t : State, step s = .next t → s.overrun = true → t.overrun = false →
    s.takeTurn.1 = .platformReset ∨ (s.takeTurn.1 = .block ∧ s.busy = true ∧ s.pendingOp = 0x01)

/-- R224 d: once BR_VALID = 0, only BR_START makes it 1; DECODE runs BR_START's body. -/
def Obligations.ReaderStartedOnlyByStart : Prop :=
  ∀ s t : State, step s = .next t → s.brValid = false → t.brValid = true →
    s.takeTurn.1 = .block ∧ s.busy = true ∧ (s.pendingOp = 0x0C ∨ s.pendingOp = 0x0F)

/-- R273, R272: what a command raises is in its row of the table; a command that raises nothing leaves the latch. -/
def Obligations.ErrorsAreListed : Prop :=
  ∀ (i : Instr) (s t : State), exec i s = .next t →
    (t.err = s.err ∧ t.errCode = s.errCode ∧ t.errDetail = s.errDetail) ∨ ∃ e ∈ mayRaise i, RaisedIn e t

/-- R271: the numbers of the errors. -/
def Obligations.ErrorNumbers : Prop :=
  (CmdError.emptyFreq.code, CmdError.emptyFreq.detail) = (1, 1) ∧
  (CmdError.countOverflow.code, CmdError.countOverflow.detail) = (1, 2) ∧
  (CmdError.magicMismatch.code, CmdError.magicMismatch.detail) = (2, 1) ∧
  (CmdError.truncated.code, CmdError.truncated.detail) = (2, 2) ∧
  (CmdError.badWidth.code, CmdError.badWidth.detail) = (2, 3) ∧
  (CmdError.badSlot.code, CmdError.badSlot.detail) = (2, 4) ∧
  (CmdError.dupSymbol.code, CmdError.dupSymbol.detail) = (2, 5) ∧
  (CmdError.eofConflict.code, CmdError.eofConflict.detail) = (2, 6) ∧
  (CmdError.dupCode.code, CmdError.dupCode.detail) = (2, 7) ∧
  ((CmdError.corruptStream .noMatch).code, (CmdError.corruptStream .noMatch).detail) = (3, 1) ∧
  ((CmdError.corruptStream .sourceEnd).code, (CmdError.corruptStream .sourceEnd).detail) = (3, 2) ∧
  (CmdError.reservedOpcode.code, CmdError.reservedOpcode.detail) = (4, 1) ∧
  (CmdError.notReady.code, CmdError.notReady.detail) = (4, 2) ∧
  (CmdError.badOperand.code, CmdError.badOperand.detail) = (4, 3)

/-! ### Control -/

/-- R260, R276: NOP completes with no effect; written to CMD and completed, it clears a latched error and changes nothing else but the
control state. The two turns stand on the agenda, which is the model's choice (log entry 1). -/
def Obligations.NopEffect : Prop :=
  (∀ s : State, exec .nop s = .next { s with busy := false, done := true }) ∧
  ∀ (s : State) (rest : List Turn), s.busy = false →
    s.agenda = .busWrite s.params.base [0, 0, 0, 0] :: .block :: rest →
    ∃ t, step s = .next t ∧
      step t = .next { s with
        agenda := rest, cmdLast := 0, pendingOp := 0, busy := false, done := true, err := false, found := false,
        errCode := 0, errDetail := 0 }

/-- R261: CLEAR flushes the writer (bits not dropped) and tears everything of the file down. -/
def Obligations.ClearEffect : Prop :=
  ∀ s : State, ∃ out, bitsOfBytes out = padToByte s.bwPend ∧
    ∃ t, exec .clear s = .next t ∧ (∀ b, freqAt t.freq b = 0) ∧ (∀ b, encAt t.enc b = none) ∧
      t = { s with
        snk := s.snk ++ out, bwPend := [], brValid := false, brByte := 0, brNbits := 0, brFail := .none, brMaxlen := 0,
        freq := t.freq, enc := t.enc, dec := [], decValid := false, eofSym := 0, eofValid := false, width := 0,
        overrun := false, busy := false, done := true }

/-- R262: a reserved opcode raises ILLEGAL_CMD / RESERVED_OPCODE and changes nothing else. -/
def Obligations.ReservedOpcodesRaise : Prop :=
  ∀ (op : Byte) (s : State),
    let t : State := { s with err := true, errCode := 4, errDetail := 1, busy := false, done := true }
    exec (.reserved10To1F op) s = .next t ∧ exec (.reserved20To3F op) s = .next t ∧
    exec (.reserved40To7F op) s = .next t ∧ exec (.reserved80ToFF op) s = .next t

/-! ### Tree Builder -/

/-- R140: COUNT counts every byte of the source, from its start. -/
def Obligations.CountCounts : Prop :=
  ∀ s : State, s.src.length < 2 ^ 32 →
    ∃ t, exec .count s = .next t ∧ (∀ b, (freqAt t.freq b).toNat = s.src.count b) ∧
      t = { s with
        freq := t.freq, srcPos := s.src.length, brValid := false, brByte := 0, brNbits := 0, brFail := .none,
        brMaxlen := 0, busy := false, done := true }

/-- R141: a source of 2^32 bytes or more is rejected at its 2^32-th byte; the counts so far remain. -/
def Obligations.CountOverflows : Prop :=
  ∀ s : State, 2 ^ 32 ≤ s.src.length →
    ∃ t, exec .count s = .next t ∧ (∀ b, (freqAt t.freq b).toNat = (s.src.take (2 ^ 32 - 1)).count b) ∧
      t = { s with
        freq := t.freq, srcPos := 2 ^ 32, brValid := false, brByte := 0, brNbits := 0, brFail := .none, brMaxlen := 0,
        err := true, errCode := 1, errDetail := 2, busy := false, done := true }

/-- R142: the sentinel is the lowest of the symbols of least non-zero count; with no count it is not chosen. -/
def Obligations.SelectEofChooses : Prop :=
  ∀ s : State,
    ((∃ b, freqAt s.freq b ≠ 0) →
      ∃ e, exec .selectEof s = .next { s with eofSym := e, eofValid := true, busy := false, done := true } ∧
        freqAt s.freq e ≠ 0 ∧
        ∀ b, freqAt s.freq b ≠ 0 →
          freqAt s.freq e ≤ freqAt s.freq b ∧ (freqAt s.freq b = freqAt s.freq e → e ≤ b)) ∧
    ((∀ b, freqAt s.freq b = 0) →
      exec .selectEof s = .next { s with err := true, errCode := 1, errDetail := 1, busy := false, done := true })

/-- R143: with one symbol its code is "1"; with none BUILD raises and ENC is unchanged. -/
def Obligations.BuildDegenerate : Prop :=
  ∀ s : State,
    (∀ b, freqAt s.freq b ≠ 0 → (∀ c, c ≠ b → freqAt s.freq c = 0) →
      ∃ t, exec .build s = .next t ∧ t = { s with enc := t.enc, busy := false, done := true } ∧
        ∀ c, encAt t.enc c = if c = b then some [true] else none) ∧
    ((∀ b, freqAt s.freq b = 0) →
      exec .build s = .next { s with err := true, errCode := 1, errDetail := 1, busy := false, done := true })

/-- R143 to R146, R147 a to c: a built table has a code for exactly the observed symbols, it is prefix-free, its codes have 1 to 255
bits, and for two symbols or more it is complete and is the code of the tree that the queue of R144 merges in the order of R144 and R145
(MergedInOrder: which two nodes each merge takes, their summed frequency, which is the one-branch, the paths from the root). So a rarer
symbol, or one as rare with a lower byte value, has no shorter code, and the two symbols first in that order are siblings, the first with
the 1. -/
def Obligations.BuildMakesCompletePrefixCode : Prop :=
  ∀ s : State, (∃ b, freqAt s.freq b ≠ 0) →
    ∃ t, exec .build s = .next t ∧ t = { s with enc := t.enc, busy := false, done := true } ∧
      (∀ b, encAt t.enc b ≠ none ↔ freqAt s.freq b ≠ 0) ∧ EncPrefixFree t.enc ∧
      (∀ b c, encAt t.enc b = some c → 1 ≤ c.length ∧ c.length ≤ max 1 ((observed s.freq).length - 1) ∧ c.length ≤ 255) ∧
      (∀ b c, b ≠ c → freqAt s.freq b ≠ 0 → freqAt s.freq c ≠ 0 →
        kraftSum t.enc = 1 ∧ MergedInOrder s.freq t.enc ∧
        ∀ x y, encAt t.enc b = some x → encAt t.enc c = some y →
          (freqAt s.freq b < freqAt s.freq c ∨ (freqAt s.freq b = freqAt s.freq c ∧ b < c) → y.length ≤ x.length) ∧
          ((∀ d, freqAt s.freq d ≠ 0 →
              freqAt s.freq b < freqAt s.freq d ∨ (freqAt s.freq b = freqAt s.freq d ∧ b ≤ d)) →
            (∀ d, freqAt s.freq d ≠ 0 → d ≠ b →
              freqAt s.freq c < freqAt s.freq d ∨ (freqAt s.freq c = freqAt s.freq d ∧ c ≤ d)) →
            ∃ p, x = p ++ [true] ∧ y = p ++ [false]))

/-- R147 d: after SELECT_EOF and BUILD on the same FREQ, the sentinel's code ends in 1. -/
def Obligations.SentinelCodeEndsInOne : Prop :=
  ∀ s t u : State, (∃ b, freqAt s.freq b ≠ 0) → exec .selectEof s = .next t → exec .build t = .next u →
    ∃ c, encAt u.enc u.eofSym = some (c ++ [true])

/-- R148: ENC_LOOKUP gives a symbol's code, or the empty bitstring and FOUND = 0. -/
def Obligations.EncLookupResult : Prop :=
  ∀ s : State,
    (∀ c, encAt s.enc s.sym = some c → c.length ≤ 2039 →
      ∃ t, exec .encLookup s = .next t ∧ t.operand = c ∧ (∀ i, c.length ≤ i → t.code.getLsbD i = false) ∧
        t = { s with code := t.code, codeLen := t.codeLen, found := true, busy := false, done := true }) ∧
    (encAt s.enc s.sym = none →
      exec .encLookup s = .next { s with code := 0, codeLen := 0, found := false, busy := false, done := true })

/-- R149, R104: ENC_SET sets or deletes one entry with the bits CODE[0 .. CODE_LEN-1]; above 2039 bits it raises. -/
def Obligations.EncSetEffect : Prop :=
  ∀ s : State,
    (s.codeLen.toNat ≤ 2039 →
      ∃ t, exec .encSet s = .next t ∧ t = { s with enc := t.enc, busy := false, done := true } ∧
        (∀ b, b ≠ s.sym → encAt t.enc b = encAt s.enc b) ∧
        (s.codeLen = 0 → encAt t.enc s.sym = none) ∧
        (s.codeLen ≠ 0 → ∃ c, encAt t.enc s.sym = some c ∧ c.length = s.codeLen.toNat ∧
          ∀ i < c.length, c.getD i false = s.code.getLsbD i)) ∧
    (2039 < s.codeLen.toNat →
      exec .encSet s = .next { s with err := true, errCode := 4, errDetail := 3, busy := false, done := true })

/-! ### Bit Writer -/

/-- R171, R172, R174: BW_INSERT drops no bit: the bits pending before and the operand's are the bits written, whole words of
WORD_BITS, and then the bits pending after, fewer than a word. Above 2048 bits it raises and inserts nothing. -/
def Obligations.BwInsertKeepsEveryBit : Prop :=
  ∀ s : State, s.params.legal = true → s.bwPend.length < s.params.wordBits →
    (s.codeLen.toNat ≤ 2048 →
      ∃ out t, exec .bwInsert s = .next t ∧
        t = { s with snk := s.snk ++ out, bwPend := t.bwPend, busy := false, done := true } ∧
        bitsOfBytes out ++ t.bwPend = s.bwPend ++ (List.range s.codeLen.toNat).map s.code.getLsbD ∧
        8 * out.length % s.params.wordBits = 0 ∧ t.bwPend.length < s.params.wordBits) ∧
    (2048 < s.codeLen.toNat →
      exec .bwInsert s = .next { s with err := true, errCode := 4, errDetail := 3, busy := false, done := true })

/-- R173: BW_FLUSH writes the pending bits, zero-padded to a byte, most significant first, and nothing when none is pending. -/
def Obligations.BwFlushWritesPending : Prop :=
  ∀ s : State, ∃ out, exec .bwFlush s = .next { s with snk := s.snk ++ out, bwPend := [], busy := false, done := true } ∧
    out.length = (s.bwPend.length + 7) / 8 ∧
    bitsOfBytes out = s.bwPend ++ List.replicate (8 * out.length - s.bwPend.length) false

/-- R172, R10: what any insertions and then a flush write does not depend on WORD_BITS. -/
def Obligations.FlushedBytesIndependentOfWordBits : Prop :=
  ∀ (s u : State) (codes : List Bitstring), s.params.legal = true → u.params.legal = true → s.bwPend = u.bwPend →
    s.bwPend.length < s.params.wordBits → u.bwPend.length < u.params.wordBits → s.snk = u.snk →
    (codes.foldl State.writerInsert s).writerFlush.snk = (codes.foldl State.writerInsert u).writerFlush.snk

/-! ### Table Codec -/

/-- R185: reading a written slot gives the code back. -/
def Obligations.SlotRoundTrip : Prop :=
  ∀ (c : Bitstring) (w : Nat), 1 ≤ c.length → c.length ≤ 8 * w - 1 → SlotOf w c (slotWrite c w)

/-- R113: the slot's bits: the code from the top position down, the marker, zeros. -/
def Obligations.SlotBitPositions : Prop :=
  ∀ (c : Bitstring) (w p : Nat), 1 ≤ c.length → c.length ≤ 8 * w - 1 → p < 8 * w →
    bitAt (slotWrite c w) p =
      ((List.replicate (8 * w - 1 - c.length) false ++ [true] ++ c.reverse).getD p false)

/-- R187, R108 to R112, R119: WRITE_TABLE writes the width, the entries in ascending symbol order without the sentinel (or the
sentinel alone), the terminator, the sentinel's slot and the sentinel, the width being that of the longest code. -/
def Obligations.WriteTablePreamble : Prop :=
  ∀ (s : State) (ce : Bitstring), s.eofValid = true → encAt s.enc s.eofSym = some ce → s.bwPend = [] →
    (∀ b c, encAt s.enc b = some c → 1 ≤ c.length ∧ c.length ≤ 2039) →
    ∃ (w : Byte) (first : Symbol × Bitstring) (more : List (Symbol × Bitstring)) (t : State),
      exec .writeTable s = .next { s with snk := t.snk, width := w, busy := false, done := true } ∧
      t.snk = s.snk ++ preambleBytes w (first.1, first.2, slotWrite first.2 w.toNat)
        (more.map fun p => (p.1, p.2, slotWrite p.2 w.toNat)) (slotWrite ce w.toNat) s.eofSym ∧
      (∃ b c, encAt s.enc b = some c ∧ w.toNat = (c.length + 8) / 8) ∧
      (∀ b c, encAt s.enc b = some c → (c.length + 8) / 8 ≤ w.toNat) ∧
      ((first :: more).map Prod.fst).Pairwise (· < ·) ∧
      (∀ p ∈ first :: more, encAt s.enc p.1 = some p.2) ∧
      ((∀ b c, b ≠ s.eofSym → encAt s.enc b = some c → (b, c) ∈ first :: more) ∧
        (s.eofSym ∈ (first :: more).map Prod.fst → more = [] ∧ ∀ b, b ≠ s.eofSym → encAt s.enc b = none))

/-- R187, R308: WRITE_TABLE raises ILLEGAL_CMD / NOT_READY, writing nothing, where it is not ready. -/
def Obligations.WriteTableNotReady : Prop :=
  ∀ s : State, s.eofValid = false ∨ encAt s.enc s.eofSym = none ∨ s.bwPend ≠ [] →
    exec .writeTable s = .next { s with err := true, errCode := 4, errDetail := 2, busy := false, done := true }

/-- R188, R109 to R111, R189: READ_TABLE accepts every preamble at SRC_POS whose entries have distinct symbols, whose slots are slots,
and which Validate passes; DEC is then the inverse of the entries and the sentinel, and exactly the preamble is consumed. -/
def Obligations.ReadTableAcceptsPreambles : Prop :=
  ∀ (s : State) (w : Byte) (first : Symbol × Bitstring × List Byte) (more : List (Symbol × Bitstring × List Byte))
    (ce : Bitstring) (eofSlot : List Byte) (eof : Symbol) (rest : List Byte), w ≠ 0 →
    s.unread = preambleBytes w first more eofSlot eof ++ rest →
    ((first :: more).map Prod.fst).Nodup → (∀ p ∈ first :: more, SlotOf w.toNat p.2.1 p.2.2) →
    SlotOf w.toNat ce eofSlot → (∀ p ∈ first :: more, (p.1 = eof ↔ p.2.1 = ce)) →
    ((first :: more).map fun p => p.2.1).Nodup →
    ∃ t, exec .readTable s = .next t ∧
      t = { s with
        brValid := false, brByte := 0, brNbits := 0, brFail := .none, brMaxlen := 0, dec := t.dec, decValid := true,
        eofSym := eof, eofValid := true, width := w, srcPos := s.src.length - rest.length, busy := false, done := true } ∧
      ∀ c b, decAt t.dec c = some b ↔ (b = eof ∧ c = ce) ∨ ∃ p ∈ first :: more, b = p.1 ∧ c = p.2.1

/-- R188, R189: when READ_TABLE raises which error, and the bytes it leaves unread. `first` and `more` are well-formed entries of a
preamble that begins with their width `w`. -/
def Obligations.ReadTableErrors : Prop :=
  ∀ (s : State) (w : Byte) (first : Symbol × Bitstring × List Byte) (more : List (Symbol × Bitstring × List Byte))
    (ce : Bitstring) (eofSlot : List Byte) (eof : Symbol) (rest : List Byte),
    let raises (detail : Byte) (left : List Byte) : Prop :=
      ∃ t, exec .readTable s = .next t ∧ t.err = true ∧ t.errCode = 2 ∧ t.errDetail = detail ∧ t.unread = left
    let entries : List Byte := [w] ++ (first :: more).flatMap fun p => p.1 :: p.2.2
    let whole : List Byte := preambleBytes w first more eofSlot eof
    (s.unread = 0 :: rest → raises 3 rest) ∧
    (w ≠ 0 → ((first :: more).map Prod.fst).Nodup → (∀ p ∈ first :: more, SlotOf w.toNat p.2.1 p.2.2) →
      SlotOf w.toNat ce eofSlot →
      (∀ lost : List Byte, lost ≠ [] → s.unread ++ lost = whole → raises 2 []) ∧
      (∀ slot : List Byte, slot.length = w.toNat → (∀ p < 8 * w.toNat - 1, bitAt slot p = false) →
        (∀ b, s.unread = w :: b :: slot ++ rest → raises 4 rest) ∧
        (∀ b, b ∉ (first :: more).map Prod.fst → s.unread = entries ++ b :: slot ++ rest → raises 4 rest) ∧
        (s.unread = entries ++ first.1 :: slot ++ rest → raises 4 rest)) ∧
      (∀ b, b ∈ more.map Prod.fst → s.unread = entries ++ b :: rest → raises 5 rest) ∧
      (s.unread = whole ++ rest → (∃ p ∈ first :: more, p.1 = eof ∧ p.2.1 ≠ ce) → raises 6 rest) ∧
      (s.unread = whole ++ rest → (∀ p ∈ first :: more, p.1 = eof → p.2.1 = ce) →
        (∃ p ∈ first :: more, p.1 ≠ eof ∧ p.2.1 = ce) ∨
          (∃ p ∈ first :: more, ∃ q ∈ first :: more, p.1 ≠ q.1 ∧ p.2.1 = q.2.1) →
        raises 7 rest))

/-- R188: after a READ_TABLE that raised, the table, the width and the sentinel stay cleared, and the reader is reset. -/
def Obligations.ReadTableErrorClears : Prop :=
  ∀ s t : State, s.err = false → exec .readTable s = .next t → t.err = true →
    t = { s with
      brValid := false, brByte := 0, brNbits := 0, brFail := .none, brMaxlen := 0, dec := [], decValid := false,
      eofSym := 0, eofValid := false, width := 0, srcPos := t.srcPos, err := true, errCode := 2, errDetail := t.errDetail,
      busy := false, done := true }

/-- R191: reading a written table gives its inverse, the same sentinel and the same width. -/
def Obligations.TableRoundTrip : Prop :=
  ∀ s t : State, s.eofValid = true → encAt s.enc s.eofSym ≠ none → s.bwPend = [] → EncDistinct s.enc →
    (∀ b c, encAt s.enc b = some c → 1 ≤ c.length ∧ c.length ≤ 2039) → exec .writeTable s = .next t →
    ∃ out, t.snk = s.snk ++ out ∧
      ∀ u : State, u.unread = out →
        ∃ v, exec .readTable u = .next v ∧
          v = { u with
            brValid := false, brByte := 0, brNbits := 0, brFail := .none, brMaxlen := 0, dec := v.dec, decValid := true,
            eofSym := s.eofSym, eofValid := true, width := t.width, srcPos := u.src.length, busy := false, done := true } ∧
          ∀ b c, decAt v.dec c = some b ↔ encAt s.enc b = some c

/-- R190: DEC_LOOKUP is exact match on CODE[0 .. CODE_LEN-1]; above 2048 bits it raises. -/
def Obligations.DecLookupResult : Prop :=
  ∀ s : State,
    (s.codeLen.toNat ≤ 2048 → ∀ c : Bitstring, c.length = s.codeLen.toNat →
      (∀ i < c.length, c.getD i false = s.code.getLsbD i) →
      (∀ b, decAt s.dec c = some b →
        exec .decLookup s = .next { s with sym := b, found := true, busy := false, done := true }) ∧
      (decAt s.dec c = none → exec .decLookup s = .next { s with found := false, busy := false, done := true })) ∧
    (2048 < s.codeLen.toNat →
      exec .decLookup s = .next { s with err := true, errCode := 4, errDetail := 3, busy := false, done := true })

/-! ### Bit Reader -/

/-- R220: BR_START builds the reader over DEC, with the longest key's length; without a table it raises and changes no reader
state. -/
def Obligations.BrStartEffect : Prop :=
  ∀ s : State,
    (s.decValid = true →
      ∃ n, exec .brStart s = .next { s with
          brByte := 0, brNbits := 0, brFail := .none, brMaxlen := n, brValid := true, busy := false, done := true } ∧
        (∀ c b, decAt s.dec c = some b → c.length ≤ n) ∧
        (s.dec ≠ [] → ∃ p ∈ s.dec, p.1.length = n)) ∧
    (s.decValid = false →
      exec .brStart s = .next { s with err := true, errCode := 4, errDetail := 2, busy := false, done := true })

/-- R221, R222, R224 b: a valid reader whose bits ahead begin with a key, none of whose proper prefixes is a key, extracts that key
and its symbol, and exactly its bits are consumed: the bits left of BR_BYTE first, a byte read from the source only when a bit is wanted
and none is left, so ceil of the bits beyond BR_NBITS by 8 bytes. -/
def Obligations.ExtractTakesShortestKey : Prop :=
  ∀ (s : State) (x rest : Bitstring) (b : Symbol), s.brValid = true → s.brNbits ≤ 8 → s.brMaxlen ≤ 2039 →
    s.bitsAhead = x ++ rest → x ≠ [] → x.length ≤ s.brMaxlen + 1 → decAt s.dec x = some b →
    (∀ y, y ≠ [] → y <+: x → y ≠ x → decAt s.dec y = none) →
    let r := s.readerPos.advance s.src x.length
    ∃ t, exec .brExtract s = .next t ∧ t.bitsAhead = rest ∧ t.operand = x ∧
      (∀ i, x.length ≤ i → t.code.getLsbD i = false) ∧ r.pos = s.srcPos + (x.length - s.brNbits + 7) / 8 ∧
      t = { s with
        code := t.code, codeLen := t.codeLen, sym := b, found := true, brByte := r.byte, brNbits := r.nbits,
        srcPos := r.pos, busy := false, done := true }

/-- R221, R222: where no key matches within BR_MAXLEN + 1 bits the extraction fails with NO_MATCH; where the bits end before that,
with SOURCE_END; an invalid reader extracts nothing and reads no source byte. In each case CODE_LEN and FOUND are 0 and SYM is
unchanged; after a failure the reader is invalid and the bits are lost, with no byte read beyond them. -/
def Obligations.ExtractFails : Prop :=
  (∀ (s : State) (x rest : Bitstring), s.brValid = true → s.brNbits ≤ 8 → s.bitsAhead = x ++ rest →
    (∀ y, y ≠ [] → y <+: x → decAt s.dec y = none) →
    let r := s.readerPos.advance s.src x.length
    (x.length = s.brMaxlen + 1 →
      ∃ t, exec .brExtract s = .next t ∧ t.bitsAhead = rest ∧
        t = { s with
          code := 0, codeLen := 0, found := false, brValid := false, brFail := .noMatch, brByte := r.byte,
          brNbits := r.nbits, srcPos := r.pos, busy := false, done := true }) ∧
    (x.length ≤ s.brMaxlen → rest = [] →
      ∃ t, exec .brExtract s = .next t ∧ t.bitsAhead = [] ∧
        t = { s with
          code := 0, codeLen := 0, found := false, brValid := false, brFail := .sourceEnd, brByte := r.byte,
          brNbits := r.nbits, srcPos := r.pos, busy := false, done := true })) ∧
  ∀ s : State, s.brValid = false →
    exec .brExtract s = .next { s with code := 0, codeLen := 0, found := false, busy := false, done := true }

/-- R225: one extraction takes at most BR_MAXLEN + 1 of the bits ahead, leaves the others, and reads at most
ceil((BR_MAXLEN + 1) / 8) + 1 source bytes. -/
def Obligations.ExtractConsumesBoundedBits : Prop :=
  ∀ s t : State, s.brNbits ≤ 8 → s.srcPos ≤ s.src.length → exec .brExtract s = .next t →
    ∃ x : Bitstring, s.bitsAhead = x ++ t.bitsAhead ∧ x.length ≤ s.brMaxlen + 1 ∧
      t.srcPos ≤ s.srcPos + ((s.brMaxlen + 1 + 7) / 8 + 1)

/-! ### Transcoder -/

/-- R240, R241, R108, R116: ENCODE of a non-empty source appends MAGIC, the preamble of the table it built, and the packed payload,
and leaves the table, the sentinel, the counts and the width it used: those that COUNT, SELECT_EOF and BUILD leave one after another. The
sentinel is the lowest of the bytes that occur least (R142). -/
def Obligations.EncodeWritesStream : Prop :=
  ∀ s : State, s.params.legal = true → s.bwPend = [] → s.src ≠ [] → s.src.length < 2 ^ 32 →
    ∃ t counted chosen built pre payload, exec .encode s = .next t ∧ exec .count s = .next counted ∧
      exec .selectEof counted = .next chosen ∧ exec .build chosen = .next built ∧
      t = { s with
        freq := counted.freq, eofSym := chosen.eofSym, eofValid := true, enc := built.enc, width := t.width,
        snk := s.snk ++ s.params.magic ++ pre ++ payload, srcPos := s.src.length, brValid := false, brByte := 0,
        brNbits := 0, brFail := .none, brMaxlen := 0, busy := false, done := true } ∧
      (∀ b, (freqAt t.freq b).toNat = s.src.count b) ∧ (∀ b, encAt t.enc b ≠ none ↔ b ∈ s.src) ∧
      t.eofSym ∈ s.src ∧ 
      (∀ b ∈ s.src, s.src.count t.eofSym ≤ s.src.count b ∧ (s.src.count b = s.src.count t.eofSym → t.eofSym ≤ b)) ∧
      EncPrefixFree t.enc ∧
      (∃ v : State, exec .writeTable { t with snk := [] } = .next v ∧ v.snk = pre ∧ v.width = t.width) ∧
      bitsOfBytes payload = padToByte (payloadBits t.enc t.eofSym s.src)

/-- R240, R274: where ENCODE raises, and that it has then written nothing to the sink. -/
def Obligations.EncodeErrors : Prop :=
  ∀ s : State,
    (s.bwPend ≠ [] →
      exec .encode s = .next { s with err := true, errCode := 4, errDetail := 2, busy := false, done := true }) ∧
    (s.bwPend = [] → s.src = [] →
      ∃ t, exec .encode s = .next t ∧ (∀ b, freqAt t.freq b = 0) ∧
        t = { s with
          freq := t.freq, srcPos := 0, brValid := false, brByte := 0, brNbits := 0, brFail := .none, brMaxlen := 0,
          err := true, errCode := 1, errDetail := 1, busy := false, done := true }) ∧
    (s.bwPend = [] → 2 ^ 32 ≤ s.src.length →
      ∃ t, exec .encode s = .next t ∧
        t = { s with
          freq := t.freq, srcPos := 2 ^ 32, brValid := false, brByte := 0, brNbits := 0, brFail := .none, brMaxlen := 0,
          err := true, errCode := 1, errDetail := 2, busy := false, done := true })

/-- R242, R275: a DECODE that fails on the header, magic or preamble, has written nothing and leaves no table. -/
def Obligations.DecodeHeaderErrorWritesNothing : Prop :=
  ∀ s t : State, s.err = false → exec .decode s = .next t → t.err = true → t.errCode = 2 →
    t = { s with
      brValid := false, brByte := 0, brNbits := 0, brFail := .none, brMaxlen := 0, dec := [], decValid := false,
      eofSym := 0, eofValid := false, width := 0, srcPos := t.srcPos, err := true, errCode := 2, errDetail := t.errDetail,
      busy := false, done := true }

/-- R242: the magic check. A source that begins with a proper part of MAGIC and then another byte is a MAGIC_MISMATCH just after that
byte; one that ends there is TRUNCATED. -/
def Obligations.DecodeChecksMagic : Prop :=
  ∀ (s : State) (good magicRest : List Byte) (m : Byte), s.params.magic = good ++ m :: magicRest →
    (∀ (b : Byte) (rest : List Byte), b ≠ m → s.unread = good ++ b :: rest →
      exec .decode s = .next { s with
        brValid := false, brByte := 0, brNbits := 0, brFail := .none, brMaxlen := 0, dec := [], decValid := false,
        eofSym := 0, eofValid := false, width := 0, srcPos := s.srcPos + good.length + 1, err := true, errCode := 2,
        errDetail := 1, busy := false, done := true }) ∧
    (s.unread = good →
      exec .decode s = .next { s with
        brValid := false, brByte := 0, brNbits := 0, brFail := .none, brMaxlen := 0, dec := [], decValid := false,
        eofSym := 0, eofValid := false, width := 0, srcPos := s.srcPos + good.length, err := true, errCode := 2,
        errDetail := 2, busy := false, done := true })

/-- R242, R243, R244 reasons (2) to (4): a stream of MAGIC, a written preamble and a payload of the codes of some content, the
terminator and then any bits `tail` decodes to the content, for every prefix-free table, host-built ones too. DECODE reads from SRC_POS,
wherever that is (R316). The one condition is that `tail` does not begin with the sentinel's code; zero padding never does where that code
ends in 1 (R314). One code is peeked at behind the terminator and dropped, `k` bits of `tail`: BR_VALID is 1 if it is a code, whichever,
else 0 with the reader's reason; nothing behind the peek is read or checked. -/
def Obligations.DecodeRecoversContent : Prop :=
  ∀ (s w1 : State) (x : List Byte) (ce tail : Bitstring), s.snk = [] → s.bwPend = [] →
    s.eofValid = true → encAt s.enc s.eofSym = some ce → EncPrefixFree s.enc →
    (∀ b c, encAt s.enc b = some c → 1 ≤ c.length ∧ c.length ≤ 2039) → (∀ b ∈ x, encAt s.enc b ≠ none) →
    exec .writeTable s = .next w1 →
    (¬ ce <+: tail ∨ ((∃ c, ce = c ++ [true]) ∧ tail = List.replicate tail.length false)) →
    ∀ (u : State) (payload : List Byte), u.unread = u.params.magic ++ w1.snk ++ payload →
      bitsOfBytes payload = payloadBits s.enc s.eofSym x ++ tail →
      ∃ (v : State) (k : Nat) (r : ReaderPos), exec .decode u = .next v ∧
        r = (ReaderPos.mk 0 0 (u.srcPos + u.params.magic.length + w1.snk.length)).advance u.src
          ((payloadBits s.enc s.eofSym x).length + k) ∧
        v = { u with
          dec := v.dec, decValid := true, eofSym := s.eofSym, eofValid := true, width := w1.width, snk := u.snk ++ x,
          srcPos := r.pos, brByte := r.byte, brNbits := r.nbits, brValid := v.brValid, brMaxlen := v.brMaxlen,
          brFail := v.brFail, busy := false, done := true } ∧
        (∀ b c, decAt v.dec c = some b ↔ encAt s.enc b = some c) ∧
        (∀ b c, encAt s.enc b = some c → c.length ≤ v.brMaxlen) ∧
        (∃ b c, encAt s.enc b = some c ∧ c.length = v.brMaxlen) ∧
        (∀ b c, encAt s.enc b = some c → c <+: tail → k = c.length ∧ v.brValid = true ∧ v.brFail = .none) ∧
        ((∀ b c, encAt s.enc b = some c → ¬ c <+: tail) → v.brValid = false ∧
          (v.brMaxlen < tail.length → k = v.brMaxlen + 1 ∧ v.brFail = .noMatch) ∧
          (tail.length ≤ v.brMaxlen → k = tail.length ∧ v.brFail = .sourceEnd))

/-- R243, R274: a payload that goes on, after the codes of some content, with bits no code matches, raises CORRUPT_STREAM:
SOURCE_END where the bits end within the length of the longest code, NO_MATCH where they go on. The content decoded before it stays in
the sink, and the table stays committed. `body` is the payload bits of the content without the terminator's code `ce`; `k` bits behind
them are consumed and lost. -/
def Obligations.DecodeReportsCorruptStream : Prop :=
  ∀ (s w1 : State) (x : List Byte) (ce body tail : Bitstring), s.snk = [] → s.bwPend = [] →
    s.eofValid = true → encAt s.enc s.eofSym = some ce → EncPrefixFree s.enc →
    (∀ b c, encAt s.enc b = some c → 1 ≤ c.length ∧ c.length ≤ 2039) → (∀ b ∈ x, encAt s.enc b ≠ none) →
    exec .writeTable s = .next w1 → payloadBits s.enc s.eofSym x = body ++ ce →
    (∀ b c, encAt s.enc b = some c → ¬ c <+: tail) →
    ∀ (u : State) (payload : List Byte), u.unread = u.params.magic ++ w1.snk ++ payload →
      bitsOfBytes payload = body ++ tail →
      ∃ (v : State) (k : Nat) (r : ReaderPos), exec .decode u = .next v ∧
        r = (ReaderPos.mk 0 0 (u.srcPos + u.params.magic.length + w1.snk.length)).advance u.src (body.length + k) ∧
        v = { u with
          dec := v.dec, decValid := true, eofSym := s.eofSym, eofValid := true, width := w1.width, snk := u.snk ++ x,
          srcPos := r.pos, brByte := r.byte, brNbits := r.nbits, brValid := false, brMaxlen := v.brMaxlen,
          brFail := v.brFail, err := true, errCode := 3, errDetail := v.errDetail, busy := false, done := true } ∧
        (∀ b c, decAt v.dec c = some b ↔ encAt s.enc b = some c) ∧
        (∀ b c, encAt s.enc b = some c → c.length ≤ v.brMaxlen) ∧
        (∃ b c, encAt s.enc b = some c ∧ c.length = v.brMaxlen) ∧
        (v.brMaxlen < tail.length → k = v.brMaxlen + 1 ∧ v.brFail = .noMatch ∧ v.errDetail = 1) ∧
        (tail.length ≤ v.brMaxlen → k = tail.length ∧ v.brFail = .sourceEnd ∧ v.errDetail = 2)

/-- R244: DECODE of exactly what ENCODE appended gives the source back, and raises nothing. -/
def Obligations.EncodeDecodeRoundTrip : Prop :=
  ∀ s : State, s.params.legal = true → s.bwPend = [] → 1 ≤ s.src.length → s.src.length ≤ 2 ^ 32 - 1 →
    ∃ t stream, exec .encode s = .next t ∧ t.err = s.err ∧ t.snk = s.snk ++ stream ∧
      ∀ u : State, u.params.magic = s.params.magic → u.src = stream → u.srcPos = 0 →
        ∃ v, exec .decode u = .next v ∧ v.err = u.err ∧ v.snk = u.snk ++ s.src
end

