-- ==== Sys2Proof/Laws/State.lean ====
section
/-! SUPPORT. Each update of the state read field by field: no later proof unfolds a record update. -/

namespace Sys2Proof.Machine.State

variable (s : State)


/-! ### srcRewind -/

@[simp] theorem srcRewind_params : s.srcRewind.params = s.params := rfl
@[simp] theorem srcRewind_freq : s.srcRewind.freq = s.freq := rfl
@[simp] theorem srcRewind_enc : s.srcRewind.enc = s.enc := rfl
@[simp] theorem srcRewind_dec : s.srcRewind.dec = s.dec := rfl
@[simp] theorem srcRewind_decValid : s.srcRewind.decValid = s.decValid := rfl
@[simp] theorem srcRewind_sym : s.srcRewind.sym = s.sym := rfl
@[simp] theorem srcRewind_code : s.srcRewind.code = s.code := rfl
@[simp] theorem srcRewind_codeLen : s.srcRewind.codeLen = s.codeLen := rfl
@[simp] theorem srcRewind_codeIdx : s.srcRewind.codeIdx = s.codeIdx := rfl
@[simp] theorem srcRewind_eofSym : s.srcRewind.eofSym = s.eofSym := rfl
@[simp] theorem srcRewind_eofValid : s.srcRewind.eofValid = s.eofValid := rfl
@[simp] theorem srcRewind_width : s.srcRewind.width = s.width := rfl
@[simp] theorem srcRewind_bwPend : s.srcRewind.bwPend = s.bwPend := rfl
@[simp] theorem srcRewind_brByte : s.srcRewind.brByte = s.brByte := rfl
@[simp] theorem srcRewind_brNbits : s.srcRewind.brNbits = s.brNbits := rfl
@[simp] theorem srcRewind_brValid : s.srcRewind.brValid = s.brValid := rfl
@[simp] theorem srcRewind_brMaxlen : s.srcRewind.brMaxlen = s.brMaxlen := rfl
@[simp] theorem srcRewind_brFail : s.srcRewind.brFail = s.brFail := rfl
@[simp] theorem srcRewind_busy : s.srcRewind.busy = s.busy := rfl
@[simp] theorem srcRewind_done : s.srcRewind.done = s.done := rfl
@[simp] theorem srcRewind_err : s.srcRewind.err = s.err := rfl
@[simp] theorem srcRewind_found : s.srcRewind.found = s.found := rfl
@[simp] theorem srcRewind_overrun : s.srcRewind.overrun = s.overrun := rfl
@[simp] theorem srcRewind_errCode : s.srcRewind.errCode = s.errCode := rfl
@[simp] theorem srcRewind_errDetail : s.srcRewind.errDetail = s.errDetail := rfl
@[simp] theorem srcRewind_cmdLast : s.srcRewind.cmdLast = s.cmdLast := rfl
@[simp] theorem srcRewind_pendingOp : s.srcRewind.pendingOp = s.pendingOp := rfl
@[simp] theorem srcRewind_src : s.srcRewind.src = s.src := rfl
@[simp] theorem srcRewind_srcPos : s.srcRewind.srcPos = 0 := rfl
@[simp] theorem srcRewind_snk : s.srcRewind.snk = s.snk := rfl
@[simp] theorem srcRewind_agenda : s.srcRewind.agenda = s.agenda := rfl
@[simp] theorem srcRewind_seen : s.srcRewind.seen = s.seen := rfl
@[simp] theorem srcRewind_draws : s.srcRewind.draws = s.draws := rfl

/-! ### snkAppend -/

@[simp] theorem snkAppend_params (bytes : List Byte) : (s.snkAppend bytes).params = s.params := rfl
@[simp] theorem snkAppend_freq (bytes : List Byte) : (s.snkAppend bytes).freq = s.freq := rfl
@[simp] theorem snkAppend_enc (bytes : List Byte) : (s.snkAppend bytes).enc = s.enc := rfl
@[simp] theorem snkAppend_dec (bytes : List Byte) : (s.snkAppend bytes).dec = s.dec := rfl
@[simp] theorem snkAppend_decValid (bytes : List Byte) : (s.snkAppend bytes).decValid = s.decValid := rfl
@[simp] theorem snkAppend_sym (bytes : List Byte) : (s.snkAppend bytes).sym = s.sym := rfl
@[simp] theorem snkAppend_code (bytes : List Byte) : (s.snkAppend bytes).code = s.code := rfl
@[simp] theorem snkAppend_codeLen (bytes : List Byte) : (s.snkAppend bytes).codeLen = s.codeLen := rfl
@[simp] theorem snkAppend_codeIdx (bytes : List Byte) : (s.snkAppend bytes).codeIdx = s.codeIdx := rfl
@[simp] theorem snkAppend_eofSym (bytes : List Byte) : (s.snkAppend bytes).eofSym = s.eofSym := rfl
@[simp] theorem snkAppend_eofValid (bytes : List Byte) : (s.snkAppend bytes).eofValid = s.eofValid := rfl
@[simp] theorem snkAppend_width (bytes : List Byte) : (s.snkAppend bytes).width = s.width := rfl
@[simp] theorem snkAppend_bwPend (bytes : List Byte) : (s.snkAppend bytes).bwPend = s.bwPend := rfl
@[simp] theorem snkAppend_brByte (bytes : List Byte) : (s.snkAppend bytes).brByte = s.brByte := rfl
@[simp] theorem snkAppend_brNbits (bytes : List Byte) : (s.snkAppend bytes).brNbits = s.brNbits := rfl
@[simp] theorem snkAppend_brValid (bytes : List Byte) : (s.snkAppend bytes).brValid = s.brValid := rfl
@[simp] theorem snkAppend_brMaxlen (bytes : List Byte) : (s.snkAppend bytes).brMaxlen = s.brMaxlen := rfl
@[simp] theorem snkAppend_brFail (bytes : List Byte) : (s.snkAppend bytes).brFail = s.brFail := rfl
@[simp] theorem snkAppend_busy (bytes : List Byte) : (s.snkAppend bytes).busy = s.busy := rfl
@[simp] theorem snkAppend_done (bytes : List Byte) : (s.snkAppend bytes).done = s.done := rfl
@[simp] theorem snkAppend_err (bytes : List Byte) : (s.snkAppend bytes).err = s.err := rfl
@[simp] theorem snkAppend_found (bytes : List Byte) : (s.snkAppend bytes).found = s.found := rfl
@[simp] theorem snkAppend_overrun (bytes : List Byte) : (s.snkAppend bytes).overrun = s.overrun := rfl
@[simp] theorem snkAppend_errCode (bytes : List Byte) : (s.snkAppend bytes).errCode = s.errCode := rfl
@[simp] theorem snkAppend_errDetail (bytes : List Byte) : (s.snkAppend bytes).errDetail = s.errDetail := rfl
@[simp] theorem snkAppend_cmdLast (bytes : List Byte) : (s.snkAppend bytes).cmdLast = s.cmdLast := rfl
@[simp] theorem snkAppend_pendingOp (bytes : List Byte) : (s.snkAppend bytes).pendingOp = s.pendingOp := rfl
@[simp] theorem snkAppend_src (bytes : List Byte) : (s.snkAppend bytes).src = s.src := rfl
@[simp] theorem snkAppend_srcPos (bytes : List Byte) : (s.snkAppend bytes).srcPos = s.srcPos := rfl
@[simp] theorem snkAppend_snk (bytes : List Byte) : (s.snkAppend bytes).snk = s.snk ++ bytes := rfl
@[simp] theorem snkAppend_agenda (bytes : List Byte) : (s.snkAppend bytes).agenda = s.agenda := rfl
@[simp] theorem snkAppend_seen (bytes : List Byte) : (s.snkAppend bytes).seen = s.seen := rfl
@[simp] theorem snkAppend_draws (bytes : List Byte) : (s.snkAppend bytes).draws = s.draws := rfl

/-! ### readerReset -/

@[simp] theorem readerReset_params : s.readerReset.params = s.params := rfl
@[simp] theorem readerReset_freq : s.readerReset.freq = s.freq := rfl
@[simp] theorem readerReset_enc : s.readerReset.enc = s.enc := rfl
@[simp] theorem readerReset_dec : s.readerReset.dec = s.dec := rfl
@[simp] theorem readerReset_decValid : s.readerReset.decValid = s.decValid := rfl
@[simp] theorem readerReset_sym : s.readerReset.sym = s.sym := rfl
@[simp] theorem readerReset_code : s.readerReset.code = s.code := rfl
@[simp] theorem readerReset_codeLen : s.readerReset.codeLen = s.codeLen := rfl
@[simp] theorem readerReset_codeIdx : s.readerReset.codeIdx = s.codeIdx := rfl
@[simp] theorem readerReset_eofSym : s.readerReset.eofSym = s.eofSym := rfl
@[simp] theorem readerReset_eofValid : s.readerReset.eofValid = s.eofValid := rfl
@[simp] theorem readerReset_width : s.readerReset.width = s.width := rfl
@[simp] theorem readerReset_bwPend : s.readerReset.bwPend = s.bwPend := rfl
@[simp] theorem readerReset_brByte : s.readerReset.brByte = 0 := rfl
@[simp] theorem readerReset_brNbits : s.readerReset.brNbits = 0 := rfl
@[simp] theorem readerReset_brValid : s.readerReset.brValid = false := rfl
@[simp] theorem readerReset_brMaxlen : s.readerReset.brMaxlen = 0 := rfl
@[simp] theorem readerReset_brFail : s.readerReset.brFail = .none := rfl
@[simp] theorem readerReset_busy : s.readerReset.busy = s.busy := rfl
@[simp] theorem readerReset_done : s.readerReset.done = s.done := rfl
@[simp] theorem readerReset_err : s.readerReset.err = s.err := rfl
@[simp] theorem readerReset_found : s.readerReset.found = s.found := rfl
@[simp] theorem readerReset_overrun : s.readerReset.overrun = s.overrun := rfl
@[simp] theorem readerReset_errCode : s.readerReset.errCode = s.errCode := rfl
@[simp] theorem readerReset_errDetail : s.readerReset.errDetail = s.errDetail := rfl
@[simp] theorem readerReset_cmdLast : s.readerReset.cmdLast = s.cmdLast := rfl
@[simp] theorem readerReset_pendingOp : s.readerReset.pendingOp = s.pendingOp := rfl
@[simp] theorem readerReset_src : s.readerReset.src = s.src := rfl
@[simp] theorem readerReset_srcPos : s.readerReset.srcPos = s.srcPos := rfl
@[simp] theorem readerReset_snk : s.readerReset.snk = s.snk := rfl
@[simp] theorem readerReset_agenda : s.readerReset.agenda = s.agenda := rfl
@[simp] theorem readerReset_seen : s.readerReset.seen = s.seen := rfl
@[simp] theorem readerReset_draws : s.readerReset.draws = s.draws := rfl

/-! ### clearParsed -/

@[simp] theorem clearParsed_params : s.clearParsed.params = s.params := rfl
@[simp] theorem clearParsed_freq : s.clearParsed.freq = s.freq := rfl
@[simp] theorem clearParsed_enc : s.clearParsed.enc = s.enc := rfl
@[simp] theorem clearParsed_dec : s.clearParsed.dec = [] := rfl
@[simp] theorem clearParsed_decValid : s.clearParsed.decValid = false := rfl
@[simp] theorem clearParsed_sym : s.clearParsed.sym = s.sym := rfl
@[simp] theorem clearParsed_code : s.clearParsed.code = s.code := rfl
@[simp] theorem clearParsed_codeLen : s.clearParsed.codeLen = s.codeLen := rfl
@[simp] theorem clearParsed_codeIdx : s.clearParsed.codeIdx = s.codeIdx := rfl
@[simp] theorem clearParsed_eofSym : s.clearParsed.eofSym = 0 := rfl
@[simp] theorem clearParsed_eofValid : s.clearParsed.eofValid = false := rfl
@[simp] theorem clearParsed_width : s.clearParsed.width = 0 := rfl
@[simp] theorem clearParsed_bwPend : s.clearParsed.bwPend = s.bwPend := rfl
@[simp] theorem clearParsed_brByte : s.clearParsed.brByte = s.brByte := rfl
@[simp] theorem clearParsed_brNbits : s.clearParsed.brNbits = s.brNbits := rfl
@[simp] theorem clearParsed_brValid : s.clearParsed.brValid = s.brValid := rfl
@[simp] theorem clearParsed_brMaxlen : s.clearParsed.brMaxlen = s.brMaxlen := rfl
@[simp] theorem clearParsed_brFail : s.clearParsed.brFail = s.brFail := rfl
@[simp] theorem clearParsed_busy : s.clearParsed.busy = s.busy := rfl
@[simp] theorem clearParsed_done : s.clearParsed.done = s.done := rfl
@[simp] theorem clearParsed_err : s.clearParsed.err = s.err := rfl
@[simp] theorem clearParsed_found : s.clearParsed.found = s.found := rfl
@[simp] theorem clearParsed_overrun : s.clearParsed.overrun = s.overrun := rfl
@[simp] theorem clearParsed_errCode : s.clearParsed.errCode = s.errCode := rfl
@[simp] theorem clearParsed_errDetail : s.clearParsed.errDetail = s.errDetail := rfl
@[simp] theorem clearParsed_cmdLast : s.clearParsed.cmdLast = s.cmdLast := rfl
@[simp] theorem clearParsed_pendingOp : s.clearParsed.pendingOp = s.pendingOp := rfl
@[simp] theorem clearParsed_src : s.clearParsed.src = s.src := rfl
@[simp] theorem clearParsed_srcPos : s.clearParsed.srcPos = s.srcPos := rfl
@[simp] theorem clearParsed_snk : s.clearParsed.snk = s.snk := rfl
@[simp] theorem clearParsed_agenda : s.clearParsed.agenda = s.agenda := rfl
@[simp] theorem clearParsed_seen : s.clearParsed.seen = s.seen := rfl
@[simp] theorem clearParsed_draws : s.clearParsed.draws = s.draws := rfl

/-! ### complete -/

@[simp] theorem complete_params : s.complete.params = s.params := rfl
@[simp] theorem complete_freq : s.complete.freq = s.freq := rfl
@[simp] theorem complete_enc : s.complete.enc = s.enc := rfl
@[simp] theorem complete_dec : s.complete.dec = s.dec := rfl
@[simp] theorem complete_decValid : s.complete.decValid = s.decValid := rfl
@[simp] theorem complete_sym : s.complete.sym = s.sym := rfl
@[simp] theorem complete_code : s.complete.code = s.code := rfl
@[simp] theorem complete_codeLen : s.complete.codeLen = s.codeLen := rfl
@[simp] theorem complete_codeIdx : s.complete.codeIdx = s.codeIdx := rfl
@[simp] theorem complete_eofSym : s.complete.eofSym = s.eofSym := rfl
@[simp] theorem complete_eofValid : s.complete.eofValid = s.eofValid := rfl
@[simp] theorem complete_width : s.complete.width = s.width := rfl
@[simp] theorem complete_bwPend : s.complete.bwPend = s.bwPend := rfl
@[simp] theorem complete_brByte : s.complete.brByte = s.brByte := rfl
@[simp] theorem complete_brNbits : s.complete.brNbits = s.brNbits := rfl
@[simp] theorem complete_brValid : s.complete.brValid = s.brValid := rfl
@[simp] theorem complete_brMaxlen : s.complete.brMaxlen = s.brMaxlen := rfl
@[simp] theorem complete_brFail : s.complete.brFail = s.brFail := rfl
@[simp] theorem complete_busy : s.complete.busy = false := rfl
@[simp] theorem complete_done : s.complete.done = true := rfl
@[simp] theorem complete_err : s.complete.err = s.err := rfl
@[simp] theorem complete_found : s.complete.found = s.found := rfl
@[simp] theorem complete_overrun : s.complete.overrun = s.overrun := rfl
@[simp] theorem complete_errCode : s.complete.errCode = s.errCode := rfl
@[simp] theorem complete_errDetail : s.complete.errDetail = s.errDetail := rfl
@[simp] theorem complete_cmdLast : s.complete.cmdLast = s.cmdLast := rfl
@[simp] theorem complete_pendingOp : s.complete.pendingOp = s.pendingOp := rfl
@[simp] theorem complete_src : s.complete.src = s.src := rfl
@[simp] theorem complete_srcPos : s.complete.srcPos = s.srcPos := rfl
@[simp] theorem complete_snk : s.complete.snk = s.snk := rfl
@[simp] theorem complete_agenda : s.complete.agenda = s.agenda := rfl
@[simp] theorem complete_seen : s.complete.seen = s.seen := rfl
@[simp] theorem complete_draws : s.complete.draws = s.draws := rfl

/-! ### startCommand -/

@[simp] theorem startCommand_params (v : Word) : (s.startCommand v).params = s.params := rfl
@[simp] theorem startCommand_freq (v : Word) : (s.startCommand v).freq = s.freq := rfl
@[simp] theorem startCommand_enc (v : Word) : (s.startCommand v).enc = s.enc := rfl
@[simp] theorem startCommand_dec (v : Word) : (s.startCommand v).dec = s.dec := rfl
@[simp] theorem startCommand_decValid (v : Word) : (s.startCommand v).decValid = s.decValid := rfl
@[simp] theorem startCommand_sym (v : Word) : (s.startCommand v).sym = s.sym := rfl
@[simp] theorem startCommand_code (v : Word) : (s.startCommand v).code = s.code := rfl
@[simp] theorem startCommand_codeLen (v : Word) : (s.startCommand v).codeLen = s.codeLen := rfl
@[simp] theorem startCommand_codeIdx (v : Word) : (s.startCommand v).codeIdx = s.codeIdx := rfl
@[simp] theorem startCommand_eofSym (v : Word) : (s.startCommand v).eofSym = s.eofSym := rfl
@[simp] theorem startCommand_eofValid (v : Word) : (s.startCommand v).eofValid = s.eofValid := rfl
@[simp] theorem startCommand_width (v : Word) : (s.startCommand v).width = s.width := rfl
@[simp] theorem startCommand_bwPend (v : Word) : (s.startCommand v).bwPend = s.bwPend := rfl
@[simp] theorem startCommand_brByte (v : Word) : (s.startCommand v).brByte = s.brByte := rfl
@[simp] theorem startCommand_brNbits (v : Word) : (s.startCommand v).brNbits = s.brNbits := rfl
@[simp] theorem startCommand_brValid (v : Word) : (s.startCommand v).brValid = s.brValid := rfl
@[simp] theorem startCommand_brMaxlen (v : Word) : (s.startCommand v).brMaxlen = s.brMaxlen := rfl
@[simp] theorem startCommand_brFail (v : Word) : (s.startCommand v).brFail = s.brFail := rfl
@[simp] theorem startCommand_busy (v : Word) : (s.startCommand v).busy = true := rfl
@[simp] theorem startCommand_done (v : Word) : (s.startCommand v).done = false := rfl
@[simp] theorem startCommand_err (v : Word) : (s.startCommand v).err = false := rfl
@[simp] theorem startCommand_found (v : Word) : (s.startCommand v).found = false := rfl
@[simp] theorem startCommand_overrun (v : Word) : (s.startCommand v).overrun = s.overrun := rfl
@[simp] theorem startCommand_errCode (v : Word) : (s.startCommand v).errCode = 0 := rfl
@[simp] theorem startCommand_errDetail (v : Word) : (s.startCommand v).errDetail = 0 := rfl
@[simp] theorem startCommand_cmdLast (v : Word) : (s.startCommand v).cmdLast = opcodeField v := rfl
@[simp] theorem startCommand_pendingOp (v : Word) : (s.startCommand v).pendingOp = opcodeField v := rfl
@[simp] theorem startCommand_src (v : Word) : (s.startCommand v).src = s.src := rfl
@[simp] theorem startCommand_srcPos (v : Word) : (s.startCommand v).srcPos = s.srcPos := rfl
@[simp] theorem startCommand_snk (v : Word) : (s.startCommand v).snk = s.snk := rfl
@[simp] theorem startCommand_agenda (v : Word) : (s.startCommand v).agenda = s.agenda := rfl
@[simp] theorem startCommand_seen (v : Word) : (s.startCommand v).seen = s.seen := rfl
@[simp] theorem startCommand_draws (v : Word) : (s.startCommand v).draws = s.draws := rfl

/-! ### putCode -/

@[simp] theorem putCode_params (c : Bitstring) : (s.putCode c).params = s.params := rfl
@[simp] theorem putCode_freq (c : Bitstring) : (s.putCode c).freq = s.freq := rfl
@[simp] theorem putCode_enc (c : Bitstring) : (s.putCode c).enc = s.enc := rfl
@[simp] theorem putCode_dec (c : Bitstring) : (s.putCode c).dec = s.dec := rfl
@[simp] theorem putCode_decValid (c : Bitstring) : (s.putCode c).decValid = s.decValid := rfl
@[simp] theorem putCode_sym (c : Bitstring) : (s.putCode c).sym = s.sym := rfl
@[simp] theorem putCode_code (c : Bitstring) : (s.putCode c).code = BitVec.ofNat 2048 (natOfBits c) := rfl
@[simp] theorem putCode_codeLen (c : Bitstring) : (s.putCode c).codeLen = BitVec.ofNat 12 c.length := rfl
@[simp] theorem putCode_codeIdx (c : Bitstring) : (s.putCode c).codeIdx = s.codeIdx := rfl
@[simp] theorem putCode_eofSym (c : Bitstring) : (s.putCode c).eofSym = s.eofSym := rfl
@[simp] theorem putCode_eofValid (c : Bitstring) : (s.putCode c).eofValid = s.eofValid := rfl
@[simp] theorem putCode_width (c : Bitstring) : (s.putCode c).width = s.width := rfl
@[simp] theorem putCode_bwPend (c : Bitstring) : (s.putCode c).bwPend = s.bwPend := rfl
@[simp] theorem putCode_brByte (c : Bitstring) : (s.putCode c).brByte = s.brByte := rfl
@[simp] theorem putCode_brNbits (c : Bitstring) : (s.putCode c).brNbits = s.brNbits := rfl
@[simp] theorem putCode_brValid (c : Bitstring) : (s.putCode c).brValid = s.brValid := rfl
@[simp] theorem putCode_brMaxlen (c : Bitstring) : (s.putCode c).brMaxlen = s.brMaxlen := rfl
@[simp] theorem putCode_brFail (c : Bitstring) : (s.putCode c).brFail = s.brFail := rfl
@[simp] theorem putCode_busy (c : Bitstring) : (s.putCode c).busy = s.busy := rfl
@[simp] theorem putCode_done (c : Bitstring) : (s.putCode c).done = s.done := rfl
@[simp] theorem putCode_err (c : Bitstring) : (s.putCode c).err = s.err := rfl
@[simp] theorem putCode_found (c : Bitstring) : (s.putCode c).found = s.found := rfl
@[simp] theorem putCode_overrun (c : Bitstring) : (s.putCode c).overrun = s.overrun := rfl
@[simp] theorem putCode_errCode (c : Bitstring) : (s.putCode c).errCode = s.errCode := rfl
@[simp] theorem putCode_errDetail (c : Bitstring) : (s.putCode c).errDetail = s.errDetail := rfl
@[simp] theorem putCode_cmdLast (c : Bitstring) : (s.putCode c).cmdLast = s.cmdLast := rfl
@[simp] theorem putCode_pendingOp (c : Bitstring) : (s.putCode c).pendingOp = s.pendingOp := rfl
@[simp] theorem putCode_src (c : Bitstring) : (s.putCode c).src = s.src := rfl
@[simp] theorem putCode_srcPos (c : Bitstring) : (s.putCode c).srcPos = s.srcPos := rfl
@[simp] theorem putCode_snk (c : Bitstring) : (s.putCode c).snk = s.snk := rfl
@[simp] theorem putCode_agenda (c : Bitstring) : (s.putCode c).agenda = s.agenda := rfl
@[simp] theorem putCode_seen (c : Bitstring) : (s.putCode c).seen = s.seen := rfl
@[simp] theorem putCode_draws (c : Bitstring) : (s.putCode c).draws = s.draws := rfl

/-! ### setFound -/

@[simp] theorem setFound_params (b : Bool) : (s.setFound b).params = s.params := rfl
@[simp] theorem setFound_freq (b : Bool) : (s.setFound b).freq = s.freq := rfl
@[simp] theorem setFound_enc (b : Bool) : (s.setFound b).enc = s.enc := rfl
@[simp] theorem setFound_dec (b : Bool) : (s.setFound b).dec = s.dec := rfl
@[simp] theorem setFound_decValid (b : Bool) : (s.setFound b).decValid = s.decValid := rfl
@[simp] theorem setFound_sym (b : Bool) : (s.setFound b).sym = s.sym := rfl
@[simp] theorem setFound_code (b : Bool) : (s.setFound b).code = s.code := rfl
@[simp] theorem setFound_codeLen (b : Bool) : (s.setFound b).codeLen = s.codeLen := rfl
@[simp] theorem setFound_codeIdx (b : Bool) : (s.setFound b).codeIdx = s.codeIdx := rfl
@[simp] theorem setFound_eofSym (b : Bool) : (s.setFound b).eofSym = s.eofSym := rfl
@[simp] theorem setFound_eofValid (b : Bool) : (s.setFound b).eofValid = s.eofValid := rfl
@[simp] theorem setFound_width (b : Bool) : (s.setFound b).width = s.width := rfl
@[simp] theorem setFound_bwPend (b : Bool) : (s.setFound b).bwPend = s.bwPend := rfl
@[simp] theorem setFound_brByte (b : Bool) : (s.setFound b).brByte = s.brByte := rfl
@[simp] theorem setFound_brNbits (b : Bool) : (s.setFound b).brNbits = s.brNbits := rfl
@[simp] theorem setFound_brValid (b : Bool) : (s.setFound b).brValid = s.brValid := rfl
@[simp] theorem setFound_brMaxlen (b : Bool) : (s.setFound b).brMaxlen = s.brMaxlen := rfl
@[simp] theorem setFound_brFail (b : Bool) : (s.setFound b).brFail = s.brFail := rfl
@[simp] theorem setFound_busy (b : Bool) : (s.setFound b).busy = s.busy := rfl
@[simp] theorem setFound_done (b : Bool) : (s.setFound b).done = s.done := rfl
@[simp] theorem setFound_err (b : Bool) : (s.setFound b).err = s.err := rfl
@[simp] theorem setFound_found (b : Bool) : (s.setFound b).found = b := rfl
@[simp] theorem setFound_overrun (b : Bool) : (s.setFound b).overrun = s.overrun := rfl
@[simp] theorem setFound_errCode (b : Bool) : (s.setFound b).errCode = s.errCode := rfl
@[simp] theorem setFound_errDetail (b : Bool) : (s.setFound b).errDetail = s.errDetail := rfl
@[simp] theorem setFound_cmdLast (b : Bool) : (s.setFound b).cmdLast = s.cmdLast := rfl
@[simp] theorem setFound_pendingOp (b : Bool) : (s.setFound b).pendingOp = s.pendingOp := rfl
@[simp] theorem setFound_src (b : Bool) : (s.setFound b).src = s.src := rfl
@[simp] theorem setFound_srcPos (b : Bool) : (s.setFound b).srcPos = s.srcPos := rfl
@[simp] theorem setFound_snk (b : Bool) : (s.setFound b).snk = s.snk := rfl
@[simp] theorem setFound_agenda (b : Bool) : (s.setFound b).agenda = s.agenda := rfl
@[simp] theorem setFound_seen (b : Bool) : (s.setFound b).seen = s.seen := rfl
@[simp] theorem setFound_draws (b : Bool) : (s.setFound b).draws = s.draws := rfl

/-! ### writerInsert -/

@[simp] theorem writerInsert_params (c : Bitstring) : (s.writerInsert c).params = s.params := rfl
@[simp] theorem writerInsert_freq (c : Bitstring) : (s.writerInsert c).freq = s.freq := rfl
@[simp] theorem writerInsert_enc (c : Bitstring) : (s.writerInsert c).enc = s.enc := rfl
@[simp] theorem writerInsert_dec (c : Bitstring) : (s.writerInsert c).dec = s.dec := rfl
@[simp] theorem writerInsert_decValid (c : Bitstring) : (s.writerInsert c).decValid = s.decValid := rfl
@[simp] theorem writerInsert_sym (c : Bitstring) : (s.writerInsert c).sym = s.sym := rfl
@[simp] theorem writerInsert_code (c : Bitstring) : (s.writerInsert c).code = s.code := rfl
@[simp] theorem writerInsert_codeLen (c : Bitstring) : (s.writerInsert c).codeLen = s.codeLen := rfl
@[simp] theorem writerInsert_codeIdx (c : Bitstring) : (s.writerInsert c).codeIdx = s.codeIdx := rfl
@[simp] theorem writerInsert_eofSym (c : Bitstring) : (s.writerInsert c).eofSym = s.eofSym := rfl
@[simp] theorem writerInsert_eofValid (c : Bitstring) : (s.writerInsert c).eofValid = s.eofValid := rfl
@[simp] theorem writerInsert_width (c : Bitstring) : (s.writerInsert c).width = s.width := rfl
@[simp] theorem writerInsert_bwPend (c : Bitstring) : (s.writerInsert c).bwPend = (writerLoop s.params.wordBits s.bwPend c).1 := rfl
@[simp] theorem writerInsert_brByte (c : Bitstring) : (s.writerInsert c).brByte = s.brByte := rfl
@[simp] theorem writerInsert_brNbits (c : Bitstring) : (s.writerInsert c).brNbits = s.brNbits := rfl
@[simp] theorem writerInsert_brValid (c : Bitstring) : (s.writerInsert c).brValid = s.brValid := rfl
@[simp] theorem writerInsert_brMaxlen (c : Bitstring) : (s.writerInsert c).brMaxlen = s.brMaxlen := rfl
@[simp] theorem writerInsert_brFail (c : Bitstring) : (s.writerInsert c).brFail = s.brFail := rfl
@[simp] theorem writerInsert_busy (c : Bitstring) : (s.writerInsert c).busy = s.busy := rfl
@[simp] theorem writerInsert_done (c : Bitstring) : (s.writerInsert c).done = s.done := rfl
@[simp] theorem writerInsert_err (c : Bitstring) : (s.writerInsert c).err = s.err := rfl
@[simp] theorem writerInsert_found (c : Bitstring) : (s.writerInsert c).found = s.found := rfl
@[simp] theorem writerInsert_overrun (c : Bitstring) : (s.writerInsert c).overrun = s.overrun := rfl
@[simp] theorem writerInsert_errCode (c : Bitstring) : (s.writerInsert c).errCode = s.errCode := rfl
@[simp] theorem writerInsert_errDetail (c : Bitstring) : (s.writerInsert c).errDetail = s.errDetail := rfl
@[simp] theorem writerInsert_cmdLast (c : Bitstring) : (s.writerInsert c).cmdLast = s.cmdLast := rfl
@[simp] theorem writerInsert_pendingOp (c : Bitstring) : (s.writerInsert c).pendingOp = s.pendingOp := rfl
@[simp] theorem writerInsert_src (c : Bitstring) : (s.writerInsert c).src = s.src := rfl
@[simp] theorem writerInsert_srcPos (c : Bitstring) : (s.writerInsert c).srcPos = s.srcPos := rfl
@[simp] theorem writerInsert_snk (c : Bitstring) : (s.writerInsert c).snk = s.snk ++ (writerLoop s.params.wordBits s.bwPend c).2 := rfl
@[simp] theorem writerInsert_agenda (c : Bitstring) : (s.writerInsert c).agenda = s.agenda := rfl
@[simp] theorem writerInsert_seen (c : Bitstring) : (s.writerInsert c).seen = s.seen := rfl
@[simp] theorem writerInsert_draws (c : Bitstring) : (s.writerInsert c).draws = s.draws := rfl

/-! ### writerFlush -/

@[simp] theorem writerFlush_params : s.writerFlush.params = s.params := rfl
@[simp] theorem writerFlush_freq : s.writerFlush.freq = s.freq := rfl
@[simp] theorem writerFlush_enc : s.writerFlush.enc = s.enc := rfl
@[simp] theorem writerFlush_dec : s.writerFlush.dec = s.dec := rfl
@[simp] theorem writerFlush_decValid : s.writerFlush.decValid = s.decValid := rfl
@[simp] theorem writerFlush_sym : s.writerFlush.sym = s.sym := rfl
@[simp] theorem writerFlush_code : s.writerFlush.code = s.code := rfl
@[simp] theorem writerFlush_codeLen : s.writerFlush.codeLen = s.codeLen := rfl
@[simp] theorem writerFlush_codeIdx : s.writerFlush.codeIdx = s.codeIdx := rfl
@[simp] theorem writerFlush_eofSym : s.writerFlush.eofSym = s.eofSym := rfl
@[simp] theorem writerFlush_eofValid : s.writerFlush.eofValid = s.eofValid := rfl
@[simp] theorem writerFlush_width : s.writerFlush.width = s.width := rfl
@[simp] theorem writerFlush_bwPend : s.writerFlush.bwPend = [] := rfl
@[simp] theorem writerFlush_brByte : s.writerFlush.brByte = s.brByte := rfl
@[simp] theorem writerFlush_brNbits : s.writerFlush.brNbits = s.brNbits := rfl
@[simp] theorem writerFlush_brValid : s.writerFlush.brValid = s.brValid := rfl
@[simp] theorem writerFlush_brMaxlen : s.writerFlush.brMaxlen = s.brMaxlen := rfl
@[simp] theorem writerFlush_brFail : s.writerFlush.brFail = s.brFail := rfl
@[simp] theorem writerFlush_busy : s.writerFlush.busy = s.busy := rfl
@[simp] theorem writerFlush_done : s.writerFlush.done = s.done := rfl
@[simp] theorem writerFlush_err : s.writerFlush.err = s.err := rfl
@[simp] theorem writerFlush_found : s.writerFlush.found = s.found := rfl
@[simp] theorem writerFlush_overrun : s.writerFlush.overrun = s.overrun := rfl
@[simp] theorem writerFlush_errCode : s.writerFlush.errCode = s.errCode := rfl
@[simp] theorem writerFlush_errDetail : s.writerFlush.errDetail = s.errDetail := rfl
@[simp] theorem writerFlush_cmdLast : s.writerFlush.cmdLast = s.cmdLast := rfl
@[simp] theorem writerFlush_pendingOp : s.writerFlush.pendingOp = s.pendingOp := rfl
@[simp] theorem writerFlush_src : s.writerFlush.src = s.src := rfl
@[simp] theorem writerFlush_srcPos : s.writerFlush.srcPos = s.srcPos := rfl
@[simp] theorem writerFlush_snk : s.writerFlush.snk = s.snk ++ emitBits s.bwPend := rfl
@[simp] theorem writerFlush_agenda : s.writerFlush.agenda = s.agenda := rfl
@[simp] theorem writerFlush_seen : s.writerFlush.seen = s.seen := rfl
@[simp] theorem writerFlush_draws : s.writerFlush.draws = s.draws := rfl

/-! ### clearTables -/

@[simp] theorem clearTables_params : s.clearTables.params = s.params := rfl
@[simp] theorem clearTables_freq : s.clearTables.freq = freqZero := rfl
@[simp] theorem clearTables_enc : s.clearTables.enc = encEmpty := rfl
@[simp] theorem clearTables_dec : s.clearTables.dec = [] := rfl
@[simp] theorem clearTables_decValid : s.clearTables.decValid = false := rfl
@[simp] theorem clearTables_sym : s.clearTables.sym = s.sym := rfl
@[simp] theorem clearTables_code : s.clearTables.code = s.code := rfl
@[simp] theorem clearTables_codeLen : s.clearTables.codeLen = s.codeLen := rfl
@[simp] theorem clearTables_codeIdx : s.clearTables.codeIdx = s.codeIdx := rfl
@[simp] theorem clearTables_eofSym : s.clearTables.eofSym = 0 := rfl
@[simp] theorem clearTables_eofValid : s.clearTables.eofValid = false := rfl
@[simp] theorem clearTables_width : s.clearTables.width = 0 := rfl
@[simp] theorem clearTables_bwPend : s.clearTables.bwPend = s.bwPend := rfl
@[simp] theorem clearTables_brByte : s.clearTables.brByte = s.brByte := rfl
@[simp] theorem clearTables_brNbits : s.clearTables.brNbits = s.brNbits := rfl
@[simp] theorem clearTables_brValid : s.clearTables.brValid = s.brValid := rfl
@[simp] theorem clearTables_brMaxlen : s.clearTables.brMaxlen = s.brMaxlen := rfl
@[simp] theorem clearTables_brFail : s.clearTables.brFail = s.brFail := rfl
@[simp] theorem clearTables_busy : s.clearTables.busy = s.busy := rfl
@[simp] theorem clearTables_done : s.clearTables.done = s.done := rfl
@[simp] theorem clearTables_err : s.clearTables.err = s.err := rfl
@[simp] theorem clearTables_found : s.clearTables.found = s.found := rfl
@[simp] theorem clearTables_overrun : s.clearTables.overrun = false := rfl
@[simp] theorem clearTables_errCode : s.clearTables.errCode = s.errCode := rfl
@[simp] theorem clearTables_errDetail : s.clearTables.errDetail = s.errDetail := rfl
@[simp] theorem clearTables_cmdLast : s.clearTables.cmdLast = s.cmdLast := rfl
@[simp] theorem clearTables_pendingOp : s.clearTables.pendingOp = s.pendingOp := rfl
@[simp] theorem clearTables_src : s.clearTables.src = s.src := rfl
@[simp] theorem clearTables_srcPos : s.clearTables.srcPos = s.srcPos := rfl
@[simp] theorem clearTables_snk : s.clearTables.snk = s.snk := rfl
@[simp] theorem clearTables_agenda : s.clearTables.agenda = s.agenda := rfl
@[simp] theorem clearTables_seen : s.clearTables.seen = s.seen := rfl
@[simp] theorem clearTables_draws : s.clearTables.draws = s.draws := rfl

/-! ### readerAt -/

@[simp] theorem readerAt_params (r : ReaderPos) : (s.readerAt r).params = s.params := rfl
@[simp] theorem readerAt_freq (r : ReaderPos) : (s.readerAt r).freq = s.freq := rfl
@[simp] theorem readerAt_enc (r : ReaderPos) : (s.readerAt r).enc = s.enc := rfl
@[simp] theorem readerAt_dec (r : ReaderPos) : (s.readerAt r).dec = s.dec := rfl
@[simp] theorem readerAt_decValid (r : ReaderPos) : (s.readerAt r).decValid = s.decValid := rfl
@[simp] theorem readerAt_sym (r : ReaderPos) : (s.readerAt r).sym = s.sym := rfl
@[simp] theorem readerAt_code (r : ReaderPos) : (s.readerAt r).code = s.code := rfl
@[simp] theorem readerAt_codeLen (r : ReaderPos) : (s.readerAt r).codeLen = s.codeLen := rfl
@[simp] theorem readerAt_codeIdx (r : ReaderPos) : (s.readerAt r).codeIdx = s.codeIdx := rfl
@[simp] theorem readerAt_eofSym (r : ReaderPos) : (s.readerAt r).eofSym = s.eofSym := rfl
@[simp] theorem readerAt_eofValid (r : ReaderPos) : (s.readerAt r).eofValid = s.eofValid := rfl
@[simp] theorem readerAt_width (r : ReaderPos) : (s.readerAt r).width = s.width := rfl
@[simp] theorem readerAt_bwPend (r : ReaderPos) : (s.readerAt r).bwPend = s.bwPend := rfl
@[simp] theorem readerAt_brByte (r : ReaderPos) : (s.readerAt r).brByte = r.byte := rfl
@[simp] theorem readerAt_brNbits (r : ReaderPos) : (s.readerAt r).brNbits = r.nbits := rfl
@[simp] theorem readerAt_brValid (r : ReaderPos) : (s.readerAt r).brValid = s.brValid := rfl
@[simp] theorem readerAt_brMaxlen (r : ReaderPos) : (s.readerAt r).brMaxlen = s.brMaxlen := rfl
@[simp] theorem readerAt_brFail (r : ReaderPos) : (s.readerAt r).brFail = s.brFail := rfl
@[simp] theorem readerAt_busy (r : ReaderPos) : (s.readerAt r).busy = s.busy := rfl
@[simp] theorem readerAt_done (r : ReaderPos) : (s.readerAt r).done = s.done := rfl
@[simp] theorem readerAt_err (r : ReaderPos) : (s.readerAt r).err = s.err := rfl
@[simp] theorem readerAt_found (r : ReaderPos) : (s.readerAt r).found = s.found := rfl
@[simp] theorem readerAt_overrun (r : ReaderPos) : (s.readerAt r).overrun = s.overrun := rfl
@[simp] theorem readerAt_errCode (r : ReaderPos) : (s.readerAt r).errCode = s.errCode := rfl
@[simp] theorem readerAt_errDetail (r : ReaderPos) : (s.readerAt r).errDetail = s.errDetail := rfl
@[simp] theorem readerAt_cmdLast (r : ReaderPos) : (s.readerAt r).cmdLast = s.cmdLast := rfl
@[simp] theorem readerAt_pendingOp (r : ReaderPos) : (s.readerAt r).pendingOp = s.pendingOp := rfl
@[simp] theorem readerAt_src (r : ReaderPos) : (s.readerAt r).src = s.src := rfl
@[simp] theorem readerAt_srcPos (r : ReaderPos) : (s.readerAt r).srcPos = r.pos := rfl
@[simp] theorem readerAt_snk (r : ReaderPos) : (s.readerAt r).snk = s.snk := rfl
@[simp] theorem readerAt_agenda (r : ReaderPos) : (s.readerAt r).agenda = s.agenda := rfl
@[simp] theorem readerAt_seen (r : ReaderPos) : (s.readerAt r).seen = s.seen := rfl
@[simp] theorem readerAt_draws (r : ReaderPos) : (s.readerAt r).draws = s.draws := rfl

/-! ### takeError -/

@[simp] theorem takeError_params (e : CmdError) : (s.takeError e).params = s.params := rfl
@[simp] theorem takeError_freq (e : CmdError) : (s.takeError e).freq = s.freq := rfl
@[simp] theorem takeError_enc (e : CmdError) : (s.takeError e).enc = s.enc := rfl
@[simp] theorem takeError_dec (e : CmdError) : (s.takeError e).dec = s.dec := rfl
@[simp] theorem takeError_decValid (e : CmdError) : (s.takeError e).decValid = s.decValid := rfl
@[simp] theorem takeError_sym (e : CmdError) : (s.takeError e).sym = s.sym := rfl
@[simp] theorem takeError_code (e : CmdError) : (s.takeError e).code = s.code := rfl
@[simp] theorem takeError_codeLen (e : CmdError) : (s.takeError e).codeLen = s.codeLen := rfl
@[simp] theorem takeError_codeIdx (e : CmdError) : (s.takeError e).codeIdx = s.codeIdx := rfl
@[simp] theorem takeError_eofSym (e : CmdError) : (s.takeError e).eofSym = s.eofSym := rfl
@[simp] theorem takeError_eofValid (e : CmdError) : (s.takeError e).eofValid = s.eofValid := rfl
@[simp] theorem takeError_width (e : CmdError) : (s.takeError e).width = s.width := rfl
@[simp] theorem takeError_bwPend (e : CmdError) : (s.takeError e).bwPend = s.bwPend := rfl
@[simp] theorem takeError_brByte (e : CmdError) : (s.takeError e).brByte = s.brByte := rfl
@[simp] theorem takeError_brNbits (e : CmdError) : (s.takeError e).brNbits = s.brNbits := rfl
@[simp] theorem takeError_brValid (e : CmdError) : (s.takeError e).brValid = s.brValid := rfl
@[simp] theorem takeError_brMaxlen (e : CmdError) : (s.takeError e).brMaxlen = s.brMaxlen := rfl
@[simp] theorem takeError_brFail (e : CmdError) : (s.takeError e).brFail = s.brFail := rfl
@[simp] theorem takeError_busy (e : CmdError) : (s.takeError e).busy = false := rfl
@[simp] theorem takeError_done (e : CmdError) : (s.takeError e).done = true := rfl
@[simp] theorem takeError_err (e : CmdError) : (s.takeError e).err = true := rfl
@[simp] theorem takeError_found (e : CmdError) : (s.takeError e).found = s.found := rfl
@[simp] theorem takeError_overrun (e : CmdError) : (s.takeError e).overrun = s.overrun := rfl
@[simp] theorem takeError_errCode (e : CmdError) : (s.takeError e).errCode = e.code := rfl
@[simp] theorem takeError_errDetail (e : CmdError) : (s.takeError e).errDetail = e.detail := rfl
@[simp] theorem takeError_cmdLast (e : CmdError) : (s.takeError e).cmdLast = s.cmdLast := rfl
@[simp] theorem takeError_pendingOp (e : CmdError) : (s.takeError e).pendingOp = s.pendingOp := rfl
@[simp] theorem takeError_src (e : CmdError) : (s.takeError e).src = s.src := rfl
@[simp] theorem takeError_srcPos (e : CmdError) : (s.takeError e).srcPos = s.srcPos := rfl
@[simp] theorem takeError_snk (e : CmdError) : (s.takeError e).snk = s.snk := rfl
@[simp] theorem takeError_agenda (e : CmdError) : (s.takeError e).agenda = s.agenda := rfl
@[simp] theorem takeError_seen (e : CmdError) : (s.takeError e).seen = s.seen := rfl
@[simp] theorem takeError_draws (e : CmdError) : (s.takeError e).draws = s.draws := rfl

end Sys2Proof.Machine.State
end

