-- ==== Sys2Proof/Laws/Ops.lean ====
section
/-! SUPPORT. The laws of the shared operations: reads after writes of the tables, the canonical form of DEC, bits and numbers,
completion, and reading the source. -/

namespace Sys2Proof.Machine

/-! ### FREQ and ENC -/

@[simp] theorem freqAt_freqZero (b : Symbol) : freqAt freqZero b = 0 := by simp [freqAt, freqZero]

@[simp] theorem encAt_encEmpty (b : Symbol) : encAt encEmpty b = none := by simp [encAt, encEmpty]

theorem freqAt_freqSet (t : FreqTable) (b c : Symbol) (v : Count) :
    freqAt (freqSet t b v) c = if c = b then v else freqAt t c := by
  by_cases h : c = b
  · subst h; simp [freqAt, freqSet]
  · have : b.toNat ≠ c.toNat := fun e => h (BitVec.eq_of_toNat_eq e.symm)
    simp [freqAt, freqSet, this, h]

theorem encAt_encPut (t : EncTable) (b c : Symbol) (v : Option Bitstring) :
    encAt (encPut t b v) c = if c = b then v else encAt t c := by
  by_cases h : c = b
  · subst h; simp [encAt, encPut]
  · have : b.toNat ≠ c.toNat := fun e => h (BitVec.eq_of_toNat_eq e.symm)
    simp [encAt, encPut, this, h]

theorem freqTable_ext {t u : FreqTable} (h : ∀ b, freqAt t b = freqAt u b) : t = u := by
  apply Vector.ext
  intro i hi
  have := h (BitVec.ofNat 8 i)
  simpa [freqAt, Nat.mod_eq_of_lt hi] using this

theorem encTable_ext {t u : EncTable} (h : ∀ b, encAt t b = encAt u b) : t = u := by
  apply Vector.ext
  intro i hi
  have := h (BitVec.ofNat 8 i)
  simpa [encAt, Nat.mod_eq_of_lt hi] using this

/-! ### Lists of symbols -/

theorem mem_allSymbols (b : Symbol) : b ∈ allSymbols :=
  List.mem_map.2 ⟨b.toNat, List.mem_range.2 b.isLt, by simp⟩

theorem allSymbols_rising : allSymbols.Pairwise (· < ·) := by
  unfold allSymbols
  rw [List.pairwise_map]
  refine List.Pairwise.imp_of_mem ?_ List.pairwise_lt_range
  intro a b ha hb hab
  have ha := List.mem_range.1 ha
  have hb := List.mem_range.1 hb
  simp only [BitVec.lt_def, BitVec.toNat_ofNat]
  omega

theorem length_allSymbols : allSymbols.length = 256 := by simp [allSymbols]

theorem mem_zip_allSymbols {α : Type} (t : Vector α 256) (b : Symbol) (x : α) :
    (b, x) ∈ allSymbols.zip t.toList ↔ t[b.toNat]'b.isLt = x := by
  rw [List.mem_iff_getElem]
  constructor
  · rintro ⟨i, hi, h⟩
    simp only [List.getElem_zip, Prod.mk.injEq] at h
    obtain ⟨hb, hx⟩ := h
    have hi' : i < 256 := by simpa [List.length_zip, length_allSymbols] using hi
    have : b.toNat = i := by
      rw [← hb]; simp [allSymbols, Nat.mod_eq_of_lt hi']
    subst hx; simp [this]
  · intro h
    have hb := b.isLt
    refine ⟨b.toNat, by simpa [length_allSymbols] using hb, ?_⟩
    simp [List.getElem_zip, allSymbols, ← h]

theorem mem_symbolsWhere {α : Type} (t : Vector α 256) (p : α → Bool) (b : Symbol) :
    b ∈ symbolsWhere t p ↔ p (t[b.toNat]'b.isLt) = true := by
  unfold symbolsWhere
  simp only [List.mem_map, List.mem_filter, Prod.exists]
  constructor
  · rintro ⟨c, x, ⟨hm, hp⟩, rfl⟩
    rw [mem_zip_allSymbols] at hm
    rw [hm]; exact hp
  · intro h
    exact ⟨b, _, ⟨(mem_zip_allSymbols t b _).2 rfl, h⟩, rfl⟩

theorem symbolsWhere_sublist {α : Type} (t : Vector α 256) (p : α → Bool) :
    (symbolsWhere t p).Sublist allSymbols := by
  unfold symbolsWhere
  have h : (allSymbols.zip t.toList).map Prod.fst = allSymbols :=
    List.map_fst_zip (by simp [length_allSymbols])
  calc ((allSymbols.zip t.toList).filter fun x => p x.2).map Prod.fst
      |>.Sublist ((allSymbols.zip t.toList).map Prod.fst) := List.filter_sublist.map _
    _ = allSymbols := h

theorem symbolsWhere_rising {α : Type} (t : Vector α 256) (p : α → Bool) :
    (symbolsWhere t p).Pairwise (· < ·) := allSymbols_rising.sublist (symbolsWhere_sublist t p)

theorem symbolsWhere_nodup {α : Type} (t : Vector α 256) (p : α → Bool) : (symbolsWhere t p).Nodup :=
  (symbolsWhere_rising t p).imp fun h => BitVec.ne_of_lt h

theorem symbolsWhere_length_le {α : Type} (t : Vector α 256) (p : α → Bool) :
    (symbolsWhere t p).length ≤ 256 := by
  have := (symbolsWhere_sublist t p).length_le
  rwa [length_allSymbols] at this

/-! ### Bits and numbers -/

theorem natOfBits_lt (l : List Bool) : natOfBits l < 2 ^ l.length := by
  induction l with
  | nil => simp [natOfBits]
  | cons b l ih =>
    have := b.toNat_lt
    simp only [natOfBits, List.length_cons, Nat.pow_succ]
    omega

theorem natOfBits_testBit (l : List Bool) (i : Nat) : (natOfBits l).testBit i = (l[i]?).getD false := by
  induction l generalizing i with
  | nil => simp [natOfBits]
  | cons b l ih =>
    cases i with
    | zero => cases b <;> simp [natOfBits, Nat.testBit_zero, Nat.add_mod]
    | succ i =>
      have h : (b.toNat + 2 * natOfBits l) / 2 = natOfBits l := by have := b.toNat_lt; omega
      simp [natOfBits, Nat.testBit_succ, h, ih]

theorem ofNat_natOfBits_getLsbD (w : Nat) (l : List Bool) (i : Nat) :
    (BitVec.ofNat w (natOfBits l)).getLsbD i = (decide (i < w) && (l[i]?).getD false) := by
  rw [BitVec.getLsbD_ofNat, natOfBits_testBit]

theorem byteOfBits_getLsbD (f : Nat → Bool) (i : Nat) :
    (byteOfBits f).getLsbD i = (decide (i < 8) && f i) := by
  unfold byteOfBits
  rw [ofNat_natOfBits_getLsbD]
  by_cases h : i < 8 <;> simp [h]

/-! ### The order of DEC's keys -/

theorem bitsBefore_irrefl (a : Bitstring) : bitsBefore a a = false := by
  induction a with
  | nil => rfl
  | cons x a ih => cases x <;> simp [bitsBefore, ih]

theorem bitsBefore_trans {a b c : Bitstring} (h : bitsBefore a b = true) (h' : bitsBefore b c = true) :
    bitsBefore a c = true := by
  induction a generalizing b c with
  | nil =>
    cases b with
    | nil => simp [bitsBefore] at h
    | cons y b => cases c with
      | nil => simp [bitsBefore] at h'
      | cons z c => rfl
  | cons x a ih =>
    cases b with
    | nil => simp [bitsBefore] at h
    | cons y b => cases c with
      | nil => simp [bitsBefore] at h'
      | cons z c =>
        simp only [bitsBefore, Bool.or_eq_true, Bool.and_eq_true, Bool.not_eq_true', beq_iff_eq] at h h' ⊢
        rcases h with ⟨rfl, rfl⟩ | ⟨rfl, h⟩
        · rcases h' with ⟨h1, -⟩ | ⟨rfl, -⟩
          · simp at h1
          · simp
        · rcases h' with ⟨rfl, rfl⟩ | ⟨rfl, h'⟩
          · simp
          · exact .inr ⟨rfl, ih h h'⟩

theorem bitsBefore_total (a b : Bitstring) : bitsBefore a b = true ∨ a = b ∨ bitsBefore b a = true := by
  induction a generalizing b with
  | nil => cases b <;> simp [bitsBefore]
  | cons x a ih =>
    cases b with
    | nil => simp [bitsBefore]
    | cons y b =>
      rcases ih b with h | rfl | h <;> cases x <;> cases y <;> simp [bitsBefore, *]

/-! ### DEC -/

theorem decSorted_cons (p : Bitstring × Symbol) (d : DecTable) :
    decSorted (p :: d) = true ↔ (∀ q ∈ d, bitsBefore p.1 q.1 = true) ∧ decSorted d = true := by
  simp [decSorted, List.pairwise_cons]

theorem mem_decPut {c : Bitstring} {y : Symbol} {d : DecTable} {q : Bitstring × Symbol}
    (h : q ∈ decPut c y d) : q = (c, y) ∨ q ∈ d := by
  induction d with
  | nil => simpa [decPut] using h
  | cons p d ih =>
    simp only [decPut] at h
    split at h
    · rcases List.mem_cons.1 h with h | h <;> simp [h]
    · split at h
      · rcases List.mem_cons.1 h with h | h
        · exact .inl h
        · exact .inr h
      · rcases List.mem_cons.1 h with h | h
        · simp [h]
        · rcases ih h with h | h <;> simp [h]

/-- The write of DEC keeps its canonical form. -/
theorem decSorted_decPut {c : Bitstring} {y : Symbol} {d : DecTable} (h : decSorted d = true) :
    decSorted (decPut c y d) = true := by
  induction d with
  | nil => simp [decPut, decSorted]
  | cons p d ih =>
    obtain ⟨h1, h2⟩ := (decSorted_cons p d).1 h
    simp only [decPut]
    split
    · next e => subst e; exact (decSorted_cons _ _).2 ⟨h1, h2⟩
    · next e =>
      split
      · next hb =>
        refine (decSorted_cons _ _).2 ⟨?_, h⟩
        intro q hq
        rcases List.mem_cons.1 hq with rfl | hq
        · exact hb
        · exact bitsBefore_trans hb (h1 q hq)
      · next hb =>
        refine (decSorted_cons _ _).2 ⟨?_, ih h2⟩
        intro q hq
        rcases mem_decPut hq with rfl | hq
        · rcases bitsBefore_total p.1 c with h | h | h
          · exact h
          · exact absurd h e
          · exact absurd h hb
        · exact h1 q hq

theorem decAt_nil (c : Bitstring) : decAt [] c = none := rfl

theorem decAt_cons (p : Bitstring × Symbol) (d : DecTable) (c : Bitstring) :
    decAt (p :: d) c = if p.1 = c then some p.2 else decAt d c := by
  unfold decAt
  by_cases h : p.1 = c <;> simp [h]

theorem decAt_decPut (c k : Bitstring) (y : Symbol) (d : DecTable) :
    decAt (decPut c y d) k = if k = c then some y else decAt d k := by
  induction d with
  | nil => simp [decPut, decAt_cons, decAt_nil, eq_comm]
  | cons p d ih =>
    simp only [decPut]
    split
    · next e => subst e; by_cases h : k = p.1 <;> simp [decAt_cons, h, eq_comm]
    · next e =>
      split
      · by_cases h : k = c
        · simp [decAt_cons, h]
        · simp [decAt_cons, h, Ne.symm h]
      · rw [decAt_cons, ih, decAt_cons]
        by_cases h : k = c
        · subst h; simp [e]
        · simp [h]

theorem decAt_some_mem {d : DecTable} {c : Bitstring} {y : Symbol} (h : decAt d c = some y) : (c, y) ∈ d := by
  induction d with
  | nil => simp [decAt_nil] at h
  | cons p d ih =>
    rw [decAt_cons] at h
    split at h
    · next e => subst e; exact List.mem_cons.2 (.inl (by rw [← Option.some.inj h]))
    · exact List.mem_cons_of_mem _ (ih h)

theorem decAt_of_mem {d : DecTable} (hs : decSorted d = true) {c : Bitstring} {y : Symbol} (h : (c, y) ∈ d) :
    decAt d c = some y := by
  induction d with
  | nil => simp at h
  | cons p d ih =>
    obtain ⟨h1, h2⟩ := (decSorted_cons p d).1 hs
    rw [decAt_cons]
    rcases List.mem_cons.1 h with rfl | h
    · simp
    · have : p.1 ≠ c := by
        rintro rfl
        have := h1 _ h
        rw [bitsBefore_irrefl] at this
        exact absurd this (by simp)
      rw [if_neg this, ih h2 h]

/-- Equal tables are equal lists: the canonical form of DEC. -/
theorem decTable_ext {d e : DecTable} (hd : decSorted d = true) (he : decSorted e = true)
    (h : ∀ c, decAt d c = decAt e c) : d = e := by
  have key : ∀ c y, (c, y) ∈ d ↔ (c, y) ∈ e := fun c y =>
    ⟨fun m => decAt_some_mem (by rw [← h, decAt_of_mem hd m]),
      fun m => decAt_some_mem (by rw [h, decAt_of_mem he m])⟩
  have pd : d.Pairwise fun p q => bitsBefore p.1 q.1 = true := by simpa [decSorted] using hd
  have pe : e.Pairwise fun p q => bitsBefore p.1 q.1 = true := by simpa [decSorted] using he
  have nd : d.Nodup := pd.imp fun {a b} hab e => by
    subst e; rw [bitsBefore_irrefl] at hab; exact absurd hab (by simp)
  have ne : e.Nodup := pe.imp fun {a b} hab e => by
    subst e; rw [bitsBefore_irrefl] at hab; exact absurd hab (by simp)
  have perm : d.Perm e := (List.perm_ext_iff_of_nodup nd ne).2 fun p => key p.1 p.2
  refine perm.eq_of_pairwise ?_ pd pe
  intro a b _ _ hab hba
  have := bitsBefore_trans hab hba
  rw [bitsBefore_irrefl] at this
  exact absurd this (by simp)

theorem le_maxKeyLen {d : DecTable} {p : Bitstring × Symbol} (h : p ∈ d) : p.1.length ≤ maxKeyLen d := by
  induction d with
  | nil => simp at h
  | cons q d ih =>
    simp only [maxKeyLen, List.foldr_cons]
    rcases List.mem_cons.1 h with rfl | h
    · exact Nat.le_max_left _ _
    · exact le_trans (ih h) (Nat.le_max_right _ _)

theorem maxKeyLen_le {d : DecTable} {n : Nat} (h : ∀ p ∈ d, p.1.length ≤ n) : maxKeyLen d ≤ n := by
  induction d with
  | nil => simp [maxKeyLen]
  | cons q d ih =>
    simp only [maxKeyLen, List.foldr_cons]
    exact max_le (h q (by simp)) (ih fun p hp => h p (by simp [hp]))

/-! ### Completion -/

/-- The state a command's body leaves, however it ends. -/
def Body.state : Body → State
  | .ok s => s
  | .raised _ s => s

@[simp] theorem Body.state_ok (s : State) : (Body.ok s).state = s := rfl
@[simp] theorem Body.state_raised (e : CmdError) (s : State) : (Body.raised e s).state = s := rfl

/-- A command's rule always completes: a next state, never a fault or a refusal (70_reset_and_hazards.md R312). -/
theorem finish_next (b : Body) : ∃ t, finish b = .next t ∧ t.busy = false ∧ t.done = true := by
  cases b with
  | ok s => exact ⟨_, rfl, rfl, rfl⟩
  | raised e s => exact ⟨_, rfl, rfl, rfl⟩

/-- Everything the completion step can do (10_state.md R38). -/
theorem finish_cases {b : Body} {t : State} (h : finish b = .next t) :
    (∃ s, b = .ok s ∧ t = s.complete) ∨ (∃ e s, b = .raised e s ∧ t = s.takeError e) := by
  cases b with
  | ok s => exact .inl ⟨s, rfl, by simpa [finish] using h.symm⟩
  | raised e s => exact .inr ⟨e, s, rfl, by simpa [finish] using h.symm⟩

@[simp] theorem Body.andThen_ok (s : State) (k : State → Body) : (Body.ok s).andThen k = k s := rfl
@[simp] theorem Body.andThen_raised (e : CmdError) (s : State) (k : State → Body) :
    (Body.raised e s).andThen k = .raised e s := rfl

theorem Body.andThen_eq_ok {b : Body} {k : State → Body} {t : State} (h : b.andThen k = .ok t) :
    ∃ s, b = .ok s ∧ k s = .ok t := by
  cases b with
  | ok s => exact ⟨s, rfl, h⟩
  | raised e s => simp at h

theorem Body.andThen_eq_raised {b : Body} {k : State → Body} {e : CmdError} {t : State}
    (h : b.andThen k = .raised e t) : b = .raised e t ∨ ∃ s, b = .ok s ∧ k s = .raised e t := by
  cases b with
  | ok s => exact .inr ⟨s, rfl, h⟩
  | raised e s => exact .inl h

/-! ### Reading the source -/

@[simp] theorem Parse.andThen_ok {α β : Type} (a : α) (pos : Nat) (k : α → Nat → Parse β) :
    (Parse.ok a pos).andThen k = k a pos := rfl
@[simp] theorem Parse.andThen_raised {α β : Type} (e : CmdError) (pos : Nat) (k : α → Nat → Parse β) :
    (Parse.raised e pos : Parse α).andThen k = .raised e pos := rfl

theorem Parse.andThen_eq_ok {α β : Type} {p : Parse α} {k : α → Nat → Parse β} {b : β} {pos : Nat}
    (h : p.andThen k = .ok b pos) : ∃ a mid, p = .ok a mid ∧ k a mid = .ok b pos := by
  cases p with
  | ok a mid => exact ⟨a, mid, rfl, h⟩
  | raised e mid => simp at h

theorem Parse.andThen_eq_raised {α β : Type} {p : Parse α} {k : α → Nat → Parse β} {e : CmdError} {pos : Nat}
    (h : p.andThen k = .raised e pos) :
    p = .raised e pos ∨ ∃ a mid, p = .ok a mid ∧ k a mid = .raised e pos := by
  cases p with
  | ok a mid => exact .inr ⟨a, mid, rfl, h⟩
  | raised e mid => left; simpa using h

/-- `rd` at a byte of the source. -/
theorem rd_of_drop {src : List Byte} {pos : Nat} {b : Byte} {rest : List Byte}
    (h : src.drop pos = b :: rest) : rd src pos = .ok b (pos + 1) ∧ src.drop (pos + 1) = rest := by
  have h0 : src[pos]? = some b := by
    have := congrArg (·[0]?) h
    simpa using this
  refine ⟨by simp [rd, h0], ?_⟩
  rw [← List.drop_drop, h]; rfl

theorem rd_end {src : List Byte} {pos : Nat} (h : src.length ≤ pos) : rd src pos = .raised .truncated pos := by
  simp [rd, List.getElem?_eq_none h]

/-- Everything `rd` can do. -/
theorem rd_cases (src : List Byte) (pos : Nat) :
    (src.length ≤ pos ∧ rd src pos = .raised .truncated pos) ∨
    (∃ b, src[pos]? = some b ∧ pos < src.length ∧ rd src pos = .ok b (pos + 1)) := by
  by_cases h : src.length ≤ pos
  · exact .inl ⟨h, rd_end h⟩
  · obtain ⟨b, hb⟩ : ∃ b, src[pos]? = some b := ⟨_, List.getElem?_eq_getElem (by omega)⟩
    exact .inr ⟨b, hb, by omega, by simp [rd, hb]⟩

/-- `rdBytes` where the bytes are there. -/
theorem rdBytes_of_drop {src : List Byte} {pos : Nat} {bs rest : List Byte} (h : src.drop pos = bs ++ rest) :
    rdBytes src bs.length pos = .ok bs (pos + bs.length) ∧ src.drop (pos + bs.length) = rest := by
  induction bs generalizing pos with
  | nil => exact ⟨rfl, by simpa using h⟩
  | cons b bs ih =>
    obtain ⟨h1, h2⟩ := rd_of_drop (by simpa using h)
    obtain ⟨h3, h4⟩ := ih h2
    refine ⟨?_, ?_⟩
    · simp only [List.length_cons, rdBytes, h1, Parse.andThen_ok, h3]
      congr 1; omega
    · rw [← h4]; congr 1; simp; omega

/-- What a successful `rdBytes` says: the bytes, and the position after them. -/
theorem rdBytes_ok {src : List Byte} {n pos mid : Nat} {bs : List Byte} (h : rdBytes src n pos = .ok bs mid) :
    bs.length = n ∧ mid = pos + n ∧ (n = 0 ∨ mid ≤ src.length) := by
  induction n generalizing pos bs with
  | zero => simp [rdBytes] at h; simp [h]
  | succ n ih =>
    simp only [rdBytes] at h
    obtain ⟨b, p1, h1, k1⟩ := Parse.andThen_eq_ok h
    obtain ⟨bs', p2, h2, k2⟩ := Parse.andThen_eq_ok k1
    rcases rd_cases src pos with ⟨-, hr⟩ | ⟨b', -, hlt, hr⟩
    · simp [hr] at h1
    · rw [hr] at h1
      obtain ⟨rfl, rfl⟩ : b' = b ∧ pos + 1 = p1 := by simpa using h1
      obtain ⟨rfl, rfl⟩ : b' :: bs' = bs ∧ p2 = mid := by simpa using k2
      obtain ⟨i1, i2, i3⟩ := ih h2
      refine ⟨by simp [i1], by omega, .inr ?_⟩
      rcases i3 with rfl | i3 <;> omega

/-- A failed `rdBytes` raises TRUNCATED at the end of the source. -/
theorem rdBytes_raised {src : List Byte} {n pos mid : Nat} {e : CmdError} (h : rdBytes src n pos = .raised e mid) :
    e = .truncated ∧ pos ≤ mid ∧ src.length ≤ mid ∧ (mid = pos ∨ mid ≤ src.length) := by
  induction n generalizing pos with
  | zero => simp [rdBytes] at h
  | succ n ih =>
    simp only [rdBytes] at h
    rcases rd_cases src pos with ⟨hle, hr⟩ | ⟨b', -, hlt, hr⟩
    · rw [hr] at h
      obtain ⟨rfl, rfl⟩ : CmdError.truncated = e ∧ pos = mid := by simpa using h
      exact ⟨rfl, le_refl _, hle, .inl rfl⟩
    · rw [hr, Parse.andThen_ok] at h
      rcases Parse.andThen_eq_raised h with h | ⟨_, _, -, h⟩
      · obtain ⟨h1, h2, h3, h4⟩ := ih h
        exact ⟨h1, by omega, h3, .inr (by rcases h4 with rfl | h4 <;> omega)⟩
      · simp at h

end Sys2Proof.Machine
end

