-- ==== Sys2Proof/Laws/BitWriter.lean ====
section
/-! SUPPORT. The laws of the Bit Writer: what EmitBits writes, and that no bit is dropped (41_bit_writer.md R170 to R174). -/

namespace Sys2Proof.Machine

theorem padToByte_length (x : Bitstring) : (padToByte x).length % 8 = 0 := by
  simp only [padToByte, List.length_append, List.length_replicate]; omega

theorem padToByte_of_whole {x : Bitstring} (h : x.length % 8 = 0) : padToByte x = x := by
  simp [padToByte, h]

theorem emitBits_length (x : Bitstring) : (emitBits x).length = (padToByte x).length / 8 := by
  simp [emitBits]

@[simp] theorem emitBits_nil : emitBits [] = [] := rfl

theorem bitsOfByte_length (b : Byte) : (bitsOfByte b).length = 8 := by simp [bitsOfByte]

@[simp] theorem bitsOfBytes_nil : bitsOfBytes [] = [] := rfl

@[simp] theorem bitsOfBytes_cons (b : Byte) (l : List Byte) :
    bitsOfBytes (b :: l) = bitsOfByte b ++ bitsOfBytes l := by simp [bitsOfBytes]

@[simp] theorem bitsOfBytes_append (l m : List Byte) :
    bitsOfBytes (l ++ m) = bitsOfBytes l ++ bitsOfBytes m := by simp [bitsOfBytes]

theorem bitsOfBytes_length (l : List Byte) : (bitsOfBytes l).length = 8 * l.length := by
  induction l with
  | nil => rfl
  | cons b l ih => simp [bitsOfByte_length, ih]; omega

theorem bitsOfByte_byteOfBits (f : Nat → Bool) :
    bitsOfByte (byteOfBits f) = (List.range 8).map fun j => f (7 - j) := by
  apply List.ext_getElem (by simp [bitsOfByte])
  intro i h1 h2
  have : i < 8 := by simpa using h2
  simp only [bitsOfByte, List.getElem_map, List.getElem_range, byteOfBits_getLsbD]
  simp; omega

theorem byteOfBits_congr {f g : Nat → Bool} (h : ∀ j < 8, f j = g j) : byteOfBits f = byteOfBits g := by
  unfold byteOfBits
  rw [List.map_congr_left fun j hj => h j (List.mem_range.1 hj)]

/-- EmitBits of a whole byte first and the rest after it. -/
theorem emitBits_cons8 {x y : Bitstring} (h : x.length = 8) :
    emitBits (x ++ y) = byteOfBits (fun j => x.getD (7 - j) false) :: emitBits y := by
  have hp : padToByte (x ++ y) = x ++ padToByte y := by
    have : (8 - (x.length + y.length) % 8) % 8 = (8 - y.length % 8) % 8 := by omega
    simp only [padToByte, List.length_append, this, List.append_assoc]
  have hl : (padToByte (x ++ y)).length / 8 = (padToByte y).length / 8 + 1 := by
    rw [hp, List.length_append, h]; omega
  unfold emitBits
  rw [hl, List.range_succ_eq_map, List.map_cons, List.map_map, hp]
  refine List.cons_eq_cons.2 ⟨byteOfBits_congr fun j hj => ?_, List.map_congr_left fun k _ => ?_⟩
  · simp only [List.getD_eq_getElem?_getD]
    rw [List.getElem?_append_left (by omega)]; simp
  · refine byteOfBits_congr fun j hj => ?_
    simp only [List.getD_eq_getElem?_getD]
    rw [List.getElem?_append_right (by omega), h]
    rw [show 8 * k.succ + (7 - j) - 8 = 8 * k + (7 - j) by omega]

/-- The bytes EmitBits writes carry its bits, zero-padded to a byte boundary (R170). -/
theorem bitsOfBytes_emitBits (x : Bitstring) : bitsOfBytes (emitBits x) = padToByte x := by
  induction h : x.length using Nat.strong_induction_on generalizing x with
  | _ n ih =>
    subst h
    by_cases h0 : x = []
    · subst h0; rfl
    by_cases h8 : 8 ≤ x.length
    · have hx : x = x.take 8 ++ x.drop 8 := (List.take_append_drop 8 x).symm
      have hl : (x.take 8).length = 8 := by simp; omega
      rw [hx, emitBits_cons8 hl, bitsOfBytes_cons, ih _ (by simp; omega) (x.drop 8) rfl, bitsOfByte_byteOfBits]
      have : padToByte (x.take 8 ++ x.drop 8) = x.take 8 ++ padToByte (x.drop 8) := by
        have : (8 - ((x.take 8).length + (x.drop 8).length) % 8) % 8 = (8 - (x.drop 8).length % 8) % 8 := by omega
        simp only [padToByte, List.length_append, this, List.append_assoc]
      rw [this]
      congr 1
      apply List.ext_getElem (by simp; omega)
      intro i h1 h2
      have : i < 8 := by simpa using h1
      simp only [List.getElem_map, List.getElem_range, List.getD_eq_getElem?_getD]
      rw [show 7 - (7 - i) = i by omega, List.getElem?_eq_getElem h2]; rfl
    · have hpos : 0 < x.length := List.length_pos_iff.2 h0
      have hp : (padToByte x).length = 8 := by
        simp only [padToByte, List.length_append, List.length_replicate]; omega
      have he : emitBits x = emitBits (padToByte x) := by
        unfold emitBits
        rw [padToByte_of_whole (padToByte_length x)]
      rw [he, ← List.append_nil (padToByte x), emitBits_cons8 hp, emitBits_nil, bitsOfBytes_cons,
        bitsOfByte_byteOfBits, bitsOfBytes_nil, List.append_nil, List.append_nil]
      apply List.ext_getElem (by simp [hp])
      intro i h1 h2
      have : i < 8 := by simpa using h1
      simp only [List.getElem_map, List.getElem_range, List.getD_eq_getElem?_getD]
      rw [show 7 - (7 - i) = i by omega, List.getElem?_eq_getElem h2]; rfl

/-- EmitBits in pieces: the first a whole number of bytes. -/
theorem emitBits_append {x : Bitstring} (y : Bitstring) (h : x.length % 8 = 0) :
    emitBits (x ++ y) = emitBits x ++ emitBits y := by
  induction hn : x.length using Nat.strong_induction_on generalizing x with
  | _ n ih =>
    subst hn
    by_cases h0 : x = []
    · subst h0; rfl
    have hpos : 0 < x.length := List.length_pos_iff.2 h0
    have hx : x = x.take 8 ++ x.drop 8 := (List.take_append_drop 8 x).symm
    have hl : (x.take 8).length = 8 := by simp; omega
    rw [hx, List.append_assoc, emitBits_cons8 hl, emitBits_cons8 hl,
      ih _ (by simp; omega) (x := x.drop 8) (by simp; omega) rfl, List.cons_append]

/-- Inserting one bitstring after another is inserting them joined. -/
theorem writerLoop_append (wb : Nat) (pend c d : Bitstring) :
    writerLoop wb pend (c ++ d) =
      ((writerLoop wb (writerLoop wb pend c).1 d).1,
        (writerLoop wb pend c).2 ++ (writerLoop wb (writerLoop wb pend c).1 d).2) := by
  induction c generalizing pend with
  | nil => rfl
  | cons b c ih =>
    simp only [List.cons_append, writerLoop]
    split <;> simp [ih]

/-- Everything WriterInsert can do: the pending and the inserted bits, in order, are the bits of full words, which are written, and
then the bits pending afterwards, fewer than a word (R170 to R172, R174). -/
theorem writerLoop_spec {wb : Nat} (h8 : wb % 8 = 0) {pend : Bitstring} (hp : pend.length < wb) (c : Bitstring) :
    ∃ full : Bitstring, pend ++ c = full ++ (writerLoop wb pend c).1 ∧
      (writerLoop wb pend c).2 = emitBits full ∧ full.length % wb = 0 ∧ full.length % 8 = 0 ∧
      (writerLoop wb pend c).1.length < wb := by
  induction c generalizing pend with
  | nil => exact ⟨[], by simp [writerLoop], rfl, by simp, by simp, hp⟩
  | cons b c ih =>
    simp only [writerLoop]
    split
    · next hfull =>
      obtain ⟨full, h1, h2, h3, h4, h5⟩ := ih (pend := []) (by simp; omega)
      have hm : (pend ++ [b]).length % 8 = 0 := by rw [hfull]; exact h8
      refine ⟨(pend ++ [b]) ++ full, ?_, ?_, ?_, ?_, h5⟩
      · rw [List.append_assoc, ← h1]; simp
      · rw [emitBits_append _ hm, h2]
      · rw [List.length_append, hfull, Nat.add_mod, h3]; simp
      · rw [List.length_append, Nat.add_mod, hm, h4]
    · next hfull =>
      obtain ⟨full, h1, h2, h3, h4, h5⟩ := ih (pend := pend ++ [b]) (by
        simp only [List.length_append, List.length_singleton] at hfull ⊢; omega)
      exact ⟨full, by rw [← h1]; simp, h2, h3, h4, h5⟩

/-- Insertions and then a flush write the pending and the inserted bits, zero-padded, whatever WORD_BITS is (R172). -/
theorem writerLoop_flush {wb : Nat} (h8 : wb % 8 = 0) {pend : Bitstring} (hp : pend.length < wb) (c : Bitstring) :
    (writerLoop wb pend c).2 ++ emitBits (writerLoop wb pend c).1 = emitBits (pend ++ c) := by
  obtain ⟨full, h1, h2, -, h4, -⟩ := writerLoop_spec h8 hp c
  rw [h1, emitBits_append _ h4, h2]

/-- Several WriterInserts are one WriterInsert of the joined codes. -/
theorem foldl_writerInsert (codes : List Bitstring) (s : State) :
    codes.foldl State.writerInsert s = s.writerInsert codes.flatten := by
  induction codes generalizing s with
  | nil => simp [State.writerInsert, writerLoop]
  | cons c codes ih =>
    rw [List.foldl_cons, ih, List.flatten_cons]
    simp only [State.writerInsert, writerLoop_append, List.append_assoc]

end Sys2Proof.Machine
end

