-- ==== Sys2Proof/Laws/BitReader.lean ====
section
/-! SUPPORT. The laws of the Bit Reader: one bit, one extraction (43_bit_reader.md R221, R224). -/

namespace Sys2Proof.Machine

/-- The bits a reader standing at `r` has still to consume. -/
def readerBits (src : List Byte) (r : ReaderPos) : Bitstring :=
  (bitsOfByte r.byte).drop (8 - r.nbits) ++ bitsOfBytes (src.drop r.pos)

theorem bitsOfByte_drop (b : Byte) {n : Nat} (h : n < 8) :
    (bitsOfByte b).drop (8 - (n + 1)) = b.getLsbD n :: (bitsOfByte b).drop (8 - n) := by
  rw [List.drop_eq_getElem_cons (by simp [bitsOfByte_length]; omega)]
  refine List.cons_eq_cons.2 ⟨?_, by congr 1; omega⟩
  simp only [bitsOfByte, List.getElem_map, List.getElem_range]
  congr 1; omega

theorem bitsOfByte_eq_cons (b : Byte) : bitsOfByte b = b.getLsbD 7 :: (bitsOfByte b).drop 1 := by
  have := bitsOfByte_drop b (n := 7) (by omega)
  simpa using this

/-- With no bit ahead the source is at its end (R221). -/
theorem nextBit_none {src : List Byte} {r : ReaderPos} (hr : r.nbits ≤ 8) (h : readerBits src r = []) :
    nextBit src r = none ∧ r.nbits = 0 ∧ src.length ≤ r.pos := by
  have hl := congrArg List.length h
  simp only [readerBits, List.length_append, List.length_drop, bitsOfByte_length, bitsOfBytes_length,
    List.length_nil] at hl
  have h0 : r.nbits = 0 := by omega
  have hp : src.length ≤ r.pos := by omega
  simp [nextBit, h0, hp]

/-- No bit consumed: the reader stands where it stood. -/
theorem advance_zero (src : List Byte) (r : ReaderPos) : r.advance src 0 = r := by simp [ReaderPos.advance]

/-- Consuming in two pieces is consuming the sum. -/
theorem advance_advance (src : List Byte) (r : ReaderPos) (m n : Nat) :
    (r.advance src m).advance src n = r.advance src (m + n) := by
  unfold ReaderPos.advance
  by_cases h1 : m ≤ r.nbits
  · rw [if_pos h1]
    by_cases h2 : m + n ≤ r.nbits
    · rw [if_pos h2, if_pos (by dsimp only; omega)]
      simp only [ReaderPos.mk.injEq, true_and, and_true]; omega
    · rw [if_neg h2, if_neg (by dsimp only; omega)]
      simp only [show n - (r.nbits - m) = m + n - r.nbits by omega]
  · rw [if_neg h1, if_neg (show ¬ m + n ≤ r.nbits by omega)]
    dsimp only
    by_cases h2 : n ≤ 8 * ((m - r.nbits + 7) / 8) - (m - r.nbits)
    · rw [if_pos h2]
      have e : (m + n - r.nbits + 7) / 8 = (m - r.nbits + 7) / 8 := by omega
      simp only [e, ReaderPos.mk.injEq, true_and, and_true]; omega
    · rw [if_neg h2]
      have e : (m + n - r.nbits + 7) / 8 =
          (m - r.nbits + 7) / 8 + (n - (8 * ((m - r.nbits + 7) / 8) - (m - r.nbits)) + 7) / 8 := by omega
      simp only [e, ← Nat.add_assoc, ReaderPos.mk.injEq, true_and, and_true]; omega

theorem le_advance_pos (src : List Byte) (r : ReaderPos) (n : Nat) : r.pos ≤ (r.advance src n).pos := by
  unfold ReaderPos.advance
  split
  · exact le_refl _
  · exact Nat.le_add_right _ _

/-- One bit moves the reader by one (R221). -/
theorem nextBit_advance {src : List Byte} {r r' : ReaderPos} {bit : Bool} (h : nextBit src r = some (bit, r')) :
    r' = r.advance src 1 := by
  unfold nextBit at h
  split at h
  · next h0 =>
    split at h
    · cases h
    · next b hb =>
      cases h
      simp [ReaderPos.advance, h0, hb]
  · next h0 =>
    cases h
    rw [ReaderPos.advance, if_pos (by omega)]

/-- With a bit ahead, it is the next one (R221). -/
theorem nextBit_some {src : List Byte} {r : ReaderPos} (hr : r.nbits ≤ 8) {bit : Bool} {rest : Bitstring}
    (h : readerBits src r = bit :: rest) :
    ∃ r', nextBit src r = some (bit, r') ∧ readerBits src r' = rest ∧ r'.nbits ≤ 8 ∧
      r' = r.advance src 1 ∧ (r.pos ≤ src.length → r'.pos ≤ src.length) := by
  suffices hs : ∃ r', nextBit src r = some (bit, r') ∧ readerBits src r' = rest ∧ r'.nbits ≤ 8 ∧
      (r.pos ≤ src.length → r'.pos ≤ src.length) by
    obtain ⟨r', h1, h2, h3, h4⟩ := hs
    exact ⟨r', h1, h2, h3, nextBit_advance h1, h4⟩
  unfold nextBit
  by_cases h0 : r.nbits = 0
  · rw [if_pos h0]
    have hd : (bitsOfByte r.byte).drop (8 - r.nbits) = [] :=
      List.drop_eq_nil_of_le (by rw [bitsOfByte_length]; omega)
    simp only [readerBits, hd, List.nil_append] at h
    cases hs : src.drop r.pos with
    | nil => rw [hs] at h; simp at h
    | cons b tail =>
      have hb : src[r.pos]? = some b := by
        have := congrArg (·[0]?) hs
        simpa using this
      have ht : src.drop (r.pos + 1) = tail := by rw [← List.drop_drop, hs]; rfl
      have hlt : r.pos < src.length := (List.getElem?_eq_some_iff.1 hb).1
      rw [hs, bitsOfBytes_cons, bitsOfByte_eq_cons, List.cons_append] at h
      obtain ⟨h1, h2⟩ := List.cons_eq_cons.1 h
      refine ⟨⟨b, 7, r.pos + 1⟩, by rw [hb, ← h1], ?_, Nat.le_succ 7, fun _ => hlt⟩
      simp only [readerBits, ht]
      exact h2
  · rw [if_neg h0]
    have := bitsOfByte_drop r.byte (n := r.nbits - 1) (by omega)
    rw [show r.nbits - 1 + 1 = r.nbits by omega] at this
    simp only [readerBits, this, List.cons_append] at h
    obtain ⟨h1, h2⟩ := List.cons_eq_cons.1 h
    exact ⟨⟨r.byte, r.nbits - 1, r.pos⟩, by rw [← h1], h2, by simp only; omega, id⟩

/-- Everything the extraction loop can do (R221, R224): it takes the shortest match among the bits ahead, at most `room` of them;
else it fails with NO_MATCH when `room` bits are taken, or with SOURCE_END when none is left. -/
theorem extractLoop_cases (d : DecTable) (src : List Byte) (room : Nat) (acc : Bitstring) {r : ReaderPos}
    (hr : r.nbits ≤ 8) :
    ∃ x : Bitstring, ∃ r' : ReaderPos, readerBits src r = x ++ readerBits src r' ∧ r'.nbits ≤ 8 ∧
      r' = r.advance src x.length ∧ (r.pos ≤ src.length → r'.pos ≤ src.length) ∧
      ((∃ b, extractLoop d src room acc r = (.code (acc ++ x) b, r') ∧ x ≠ [] ∧ x.length ≤ room ∧
          decAt d (acc ++ x) = some b ∧ ∀ y, y ≠ [] → y <+: x → y ≠ x → decAt d (acc ++ y) = none) ∨
        (extractLoop d src room acc r = (.failed .noMatch, r') ∧ x.length = room ∧
          ∀ y, y ≠ [] → y <+: x → decAt d (acc ++ y) = none) ∨
        (extractLoop d src room acc r = (.failed .sourceEnd, r') ∧ x.length < room ∧ readerBits src r' = [] ∧
          ∀ y, y ≠ [] → y <+: x → decAt d (acc ++ y) = none)) := by
  induction room generalizing acc r with
  | zero =>
    refine ⟨[], r, rfl, hr, (advance_zero src r).symm, id, .inr (.inl ⟨rfl, rfl, ?_⟩)⟩
    intro y hy hp
    exact absurd (List.prefix_nil.1 hp) hy
  | succ room ih =>
    cases hb : readerBits src r with
    | nil =>
      obtain ⟨h1, -⟩ := nextBit_none hr hb
      refine ⟨[], r, by simp [hb], hr, (advance_zero src r).symm, id, .inr (.inr ⟨by simp [extractLoop, h1], by simp, hb, ?_⟩)⟩
      intro y hy hp
      exact absurd (List.prefix_nil.1 hp) hy
    | cons bit rest =>
      obtain ⟨r1, h1, h2, h3, h4, h5⟩ := nextBit_some hr hb
      cases hm : decAt d (acc ++ [bit]) with
      | some b =>
        refine ⟨[bit], r1, by simp [h2], h3, h4, h5, .inl ⟨b, by simp [extractLoop, h1, hm], by simp, by simp, hm, ?_⟩⟩
        intro y hy hp hne
        rcases List.prefix_cons_iff.1 hp with rfl | ⟨t, rfl, ht⟩
        · exact absurd rfl hy
        · exact absurd (by rw [List.prefix_nil.1 ht]) hne
      | none =>
        have he : extractLoop d src (room + 1) acc r = extractLoop d src room (acc ++ [bit]) r1 := by
          simp [extractLoop, h1, hm]
        have hnone : ∀ x : Bitstring, (∀ y, y ≠ [] → y <+: x → decAt d (acc ++ [bit] ++ y) = none) →
            ∀ y, y ≠ [] → y <+: bit :: x → decAt d (acc ++ y) = none := by
          intro x hx y hy hp
          rcases List.prefix_cons_iff.1 hp with rfl | ⟨t, rfl, ht⟩
          · exact absurd rfl hy
          · by_cases ht0 : t = []
            · subst ht0; exact hm
            · have := hx t ht0 ht
              simpa using this
        obtain ⟨x, r', hx, hr', hp1, hp2, hcase⟩ := ih (acc ++ [bit]) h3
        refine ⟨bit :: x, r', by rw [← h2, hx]; rfl, hr', ?_, fun h => hp2 (h5 h), ?_⟩
        · rw [hp1, h4, advance_advance, List.length_cons, Nat.add_comm]
        rw [he]
        rcases hcase with ⟨b, c1, c2, c3, c4, c5⟩ | ⟨c1, c2, c3⟩ | ⟨c1, c2, c3, c4⟩
        · refine .inl ⟨b, by simpa using c1, by simp, by simp; omega, by simpa using c4, ?_⟩
          intro y hy hp hne
          rcases List.prefix_cons_iff.1 hp with rfl | ⟨t, rfl, ht⟩
          · exact absurd rfl hy
          · by_cases ht0 : t = []
            · subst ht0; exact hm
            · have := c5 t ht0 ht (fun e => hne (by rw [e]))
              simpa using this
        · exact .inr (.inl ⟨c1, by simp [c2], hnone x c3⟩)
        · exact .inr (.inr ⟨c1, by simp; omega, c3, hnone x c4⟩)

/-- What Extract leaves alone: all but the reader's registers and SRC_POS. -/
theorem extract_frame (s : State) :
    s.extract.2 = { s with
      brByte := s.extract.2.brByte, brNbits := s.extract.2.brNbits, brValid := s.extract.2.brValid,
      brFail := s.extract.2.brFail, srcPos := s.extract.2.srcPos } := by
  unfold State.extract
  split
  · rfl
  · split <;> rfl

/-- An invalid reader extracts nothing and reads nothing (R222). -/
theorem extract_invalid {s : State} (h : s.brValid = false) : s.extract = (none, s) := by
  simp [State.extract, h]

/-- Everything Extract can do on a valid reader (R221). -/
theorem extract_cases {s : State} (hv : s.brValid = true) (hn : s.brNbits ≤ 8) :
    ∃ x : Bitstring, ∃ r : ReaderPos, s.bitsAhead = x ++ (s.readerAt r).bitsAhead ∧ r.nbits ≤ 8 ∧
      r = s.readerPos.advance s.src x.length ∧ (s.srcPos ≤ s.src.length → r.pos ≤ s.src.length) ∧
      ((∃ b, s.extract = (some (x, b), s.readerAt r) ∧ x ≠ [] ∧ x.length ≤ s.brMaxlen + 1 ∧
          decAt s.dec x = some b ∧ ∀ y, y ≠ [] → y <+: x → y ≠ x → decAt s.dec y = none) ∨
        (s.extract = (none, { s.readerAt r with brValid := false, brFail := .noMatch }) ∧
          x.length = s.brMaxlen + 1 ∧ ∀ y, y ≠ [] → y <+: x → decAt s.dec y = none) ∨
        (s.extract = (none, { s.readerAt r with brValid := false, brFail := .sourceEnd }) ∧
          x.length < s.brMaxlen + 1 ∧ (s.readerAt r).bitsAhead = [] ∧
          ∀ y, y ≠ [] → y <+: x → decAt s.dec y = none)) := by
  obtain ⟨x, r, h1, h2, h3, h4, h5⟩ :=
    extractLoop_cases s.dec s.src (s.brMaxlen + 1) [] (r := ⟨s.brByte, s.brNbits, s.srcPos⟩) hn
  refine ⟨x, r, h1, h2, h3, h4, ?_⟩
  simp only [List.nil_append] at h5
  have hv' : ¬ s.brValid = false := by simp [hv]
  rcases h5 with ⟨b, c1, c2, c3, c4, c5⟩ | ⟨c1, c2, c3⟩ | ⟨c1, c2, c3, c4⟩
  · exact .inl ⟨b, by simp only [State.extract, if_neg hv', c1], c2, c3, c4, c5⟩
  · exact .inr (.inl ⟨by simp only [State.extract, if_neg hv', c1], c2, c3⟩)
  · exact .inr (.inr ⟨by simp only [State.extract, if_neg hv', c1], c2, c3, c4⟩)

/-- The bits ahead are counted by `bitsLeft`. -/
theorem bitsAhead_length {s : State} (hn : s.brNbits ≤ 8) : s.bitsAhead.length = s.bitsLeft := by
  simp only [State.bitsAhead, State.bitsLeft, List.length_append, List.length_drop, bitsOfByte_length, bitsOfBytes_length]
  omega

/-- A key with no key among its proper prefixes, first among the bits ahead, is what Extract takes (R221, R224 b). -/
theorem extract_takes {s : State} (hv : s.brValid = true) (hn : s.brNbits ≤ 8) {c rest : Bitstring} {b : Symbol}
    (h : s.bitsAhead = c ++ rest) (hc : c ≠ []) (hl : c.length ≤ s.brMaxlen + 1) (hd : decAt s.dec c = some b)
    (hfree : ∀ y, y ≠ [] → y <+: c → y ≠ c → decAt s.dec y = none) :
    ∃ r, s.extract = (some (c, b), s.readerAt r) ∧ (s.readerAt r).bitsAhead = rest ∧ r.nbits ≤ 8 ∧
      r = s.readerPos.advance s.src c.length ∧ (s.srcPos ≤ s.src.length → r.pos ≤ s.src.length) := by
  obtain ⟨x, r, hx, hr, hp, hp', hcase⟩ := extract_cases hv hn
  have hpre : x <+: c ∨ c <+: x := by
    apply List.prefix_or_prefix_of_prefix (l₃ := s.bitsAhead)
    · exact ⟨_, hx.symm⟩
    · exact ⟨_, h.symm⟩
  rcases hcase with ⟨b', c1, c2, c3, c4, c5⟩ | ⟨-, c2, c3⟩ | ⟨-, c2, c3, c4⟩
  · have hxc : x = c := by
      by_contra hne
      rcases hpre with hpre | hpre
      · rw [hfree x c2 hpre hne] at c4; cases c4
      · rw [c5 c hc hpre (Ne.symm hne)] at hd; cases hd
    subst hxc
    rw [hd] at c4
    obtain rfl := Option.some.inj c4
    exact ⟨r, c1, (List.append_cancel_left (h.symm.trans hx)).symm, hr, hp, hp'⟩
  · have : c <+: x := by
      rcases hpre with hpre | hpre
      · rw [hpre.eq_of_length_le (by omega)]
      · exact hpre
    rw [c3 c hc this] at hd; cases hd
  · have : c <+: x := ⟨rest, by rw [← h, hx, c3, List.append_nil]⟩
    rw [c4 c hc this] at hd; cases hd

/-- Where no key is among the bits that may be taken, Extract fails, with NO_MATCH or SOURCE_END (R221). -/
theorem extract_fails {s : State} (hv : s.brValid = true) (hn : s.brNbits ≤ 8) {x rest : Bitstring}
    (h : s.bitsAhead = x ++ rest) (hfree : ∀ y, y ≠ [] → y <+: x → decAt s.dec y = none) :
    (x.length = s.brMaxlen + 1 → ∃ r, s.extract = (none, { s.readerAt r with brValid := false, brFail := .noMatch }) ∧
      (s.readerAt r).bitsAhead = rest ∧ r.nbits ≤ 8 ∧ r = s.readerPos.advance s.src x.length) ∧
    (x.length ≤ s.brMaxlen → rest = [] →
      ∃ r, s.extract = (none, { s.readerAt r with brValid := false, brFail := .sourceEnd }) ∧
        (s.readerAt r).bitsAhead = [] ∧ r.nbits ≤ 8 ∧ r = s.readerPos.advance s.src x.length) := by
  obtain ⟨z, r, hz, hr, hp, hp', hcase⟩ := extract_cases hv hn
  have hpre : z <+: x ∨ x <+: z := by
    apply List.prefix_or_prefix_of_prefix (l₃ := s.bitsAhead)
    · exact ⟨_, hz.symm⟩
    · exact ⟨_, h.symm⟩
  refine ⟨fun hl => ?_, fun hl hre => ?_⟩
  · rcases hcase with ⟨b', c1, c2, c3, c4, c5⟩ | ⟨c1, c2, c3⟩ | ⟨c1, c2, c3, c4⟩
    · have : z <+: x := by
        rcases hpre with hpre | hpre
        · exact hpre
        · rw [hpre.eq_of_length_le (by omega)]
      rw [hfree z c2 this] at c4; cases c4
    · have : z = x := by
        rcases hpre with hpre | hpre
        · exact hpre.eq_of_length (by omega)
        · exact (hpre.eq_of_length (by omega)).symm
      subst this
      exact ⟨r, c1, (List.append_cancel_left (h.symm.trans hz)).symm, hr, hp⟩
    · have := congrArg List.length (h.symm.trans hz)
      simp [c3] at this
      omega
  · subst hre
    rw [List.append_nil] at h
    rcases hcase with ⟨b', c1, c2, c3, c4, c5⟩ | ⟨c1, c2, c3⟩ | ⟨c1, c2, c3, c4⟩
    · rw [hfree z c2 ⟨_, (h.symm.trans hz).symm⟩] at c4; cases c4
    · have := congrArg List.length (h.symm.trans hz)
      simp at this
      omega
    · rw [c3, List.append_nil] at hz
      exact ⟨r, c1, c3, hr, by rw [hp, ← hz, h]⟩

/-- The codes of a prefix-free table of non-empty codes, held in DEC, are what Extract takes. -/
theorem extract_code {s : State} {enc : EncTable} (hv : s.brValid = true) (hn : s.brNbits ≤ 8)
    (hdec : ∀ b c, decAt s.dec c = some b ↔ encAt enc b = some c) (hfree : EncPrefixFree enc)
    (hlen : ∀ b c, encAt enc b = some c → 1 ≤ c.length ∧ c.length ≤ s.brMaxlen) {b : Symbol} {c rest : Bitstring}
    (hb : encAt enc b = some c) (h : s.bitsAhead = c ++ rest) :
    ∃ r, s.extract = (some (c, b), s.readerAt r) ∧ (s.readerAt r).bitsAhead = rest ∧ r.nbits ≤ 8 ∧
      r = s.readerPos.advance s.src c.length := by
  obtain ⟨l1, l2⟩ := hlen b c hb
  obtain ⟨r, h1, h2, h3, h4, -⟩ := extract_takes hv hn h (List.length_pos_iff.1 l1) (by omega) ((hdec b c).2 hb) (by
    intro y hy hp hne
    cases hd : decAt s.dec y with
    | none => rfl
    | some b' =>
      have hb' := (hdec b' y).1 hd
      by_cases e : b' = b
      · subst e; rw [hb] at hb'; exact absurd (Option.some.inj hb').symm hne
      · exact absurd hp (hfree b' b y c e hb' hb))
  exact ⟨r, h1, h2, h3, h4⟩

end Sys2Proof.Machine
end

