-- ==== Sys2Proof/Laws/TableCodec.lean ====
section
/-! SUPPORT. The laws of the Table Codec: the bits of a slot, the preamble's parser, and the table it commits
(30_encoding.md R112 to R119, 42_table_codec.md R185 to R190). -/

namespace Sys2Proof.Machine

/-! ### Slots -/

@[simp] theorem slotWrite_length (c : Bitstring) (w : Nat) : (slotWrite c w).length = w := by simp [slotWrite]

/-- The bit of a written slot at each position (30_encoding.md R113). -/
theorem bitAt_slotWrite (c : Bitstring) {w p : Nat} (hp : p < 8 * w) : bitAt (slotWrite c w) p = slotBit c w p := by
  have h1 : p / 8 < w := by omega
  have h2 : p % 8 < 8 := Nat.mod_lt _ (by omega)
  unfold bitAt slotWrite
  simp only [List.getD_eq_getElem?_getD, List.getElem?_map, List.getElem?_range h1, Option.map_some, Option.getD_some]
  rw [byteOfBits_getLsbD, show 8 * (p / 8) + p % 8 = p by omega]
  simp [h2]

/-- What a successful SlotRead says (30_encoding.md R114): the marker is the least 1-bit, and the code is the bits above it, the top
one first. -/
theorem slotRead_eq_some {bytes : List Byte} {c : Bitstring} (h : slotRead bytes = some c) :
    ∃ m, m < 8 * bytes.length - 1 ∧ bitAt bytes m = true ∧ (∀ p < m, bitAt bytes p = false) ∧
      c = (List.range (8 * bytes.length - 1 - m)).map fun i => bitAt bytes (8 * bytes.length - 1 - i) := by
  unfold slotRead at h
  split at h
  · simp at h
  · next m hm =>
    split at h
    · simp at h
    · next h0 =>
      obtain ⟨h1, h2, h3⟩ := List.find?_range_eq_some.1 hm
      refine ⟨m, by omega, h1, ?_, by simpa using h.symm⟩
      intro p hp
      simpa using h3 p hp

/-- A read code fits its slot (30_encoding.md R114). -/
theorem slotRead_length {bytes : List Byte} {c : Bitstring} (h : slotRead bytes = some c) :
    1 ≤ c.length ∧ c.length ≤ 8 * bytes.length - 1 := by
  obtain ⟨m, h1, -, -, rfl⟩ := slotRead_eq_some h
  simp; omega

/-! ### The parser -/

/-- What a successful RdSlot says. -/
theorem rdSlot_ok {src : List Byte} {w pos mid : Nat} {c : Bitstring} (h : rdSlot src w pos = .ok c mid) :
    1 ≤ c.length ∧ c.length ≤ 8 * w - 1 ∧ pos ≤ mid ∧ mid ≤ src.length := by
  unfold rdSlot at h
  obtain ⟨bytes, p1, h1, h2⟩ := Parse.andThen_eq_ok h
  obtain ⟨l1, l2, l3⟩ := rdBytes_ok h1
  split at h2
  · simp at h2
  · next c' hc =>
    obtain ⟨rfl, rfl⟩ : c' = c ∧ p1 = mid := by simpa using h2
    have := slotRead_length hc
    rw [l1] at this
    rcases l3 with rfl | l3 <;> omega

/-- RdSlot where the slot's bytes are there. -/
theorem rdSlot_of_drop {src : List Byte} {pos : Nat} {bytes rest : List Byte} {c : Bitstring}
    (h : src.drop pos = bytes ++ rest) (hc : slotRead bytes = some c) :
    rdSlot src bytes.length pos = .ok c (pos + bytes.length) ∧ src.drop (pos + bytes.length) = rest := by
  obtain ⟨h1, h2⟩ := rdBytes_of_drop h
  refine ⟨?_, h2⟩
  unfold rdSlot
  rw [h1, Parse.andThen_ok, hc]

/-- The errors RdSlot raises, and where it stops. -/
theorem rdSlot_raised {src : List Byte} {w pos mid : Nat} {e : CmdError} (h : rdSlot src w pos = .raised e mid) :
    (e = .truncated ∨ e = .badSlot) ∧ pos ≤ mid ∧ (pos ≤ src.length → mid ≤ src.length) := by
  unfold rdSlot at h
  rcases Parse.andThen_eq_raised h with h1 | ⟨bytes, p1, h1, h2⟩
  · obtain ⟨rfl, h3, h4, h5⟩ := rdBytes_raised h1
    exact ⟨.inl rfl, h3, fun hp => by rcases h5 with rfl | h5 <;> omega⟩
  · obtain ⟨l1, l2, l3⟩ := rdBytes_ok h1
    split at h2
    · obtain ⟨rfl, rfl⟩ : CmdError.badSlot = e ∧ p1 = mid := by simpa using h2
      exact ⟨.inr rfl, by omega, fun hp => by rcases l3 with rfl | l3 <;> omega⟩
    · simp at h2

/-- What a successful entry loop says: it has added entries with new symbols and codes that fit (42_table_codec.md R188). -/
theorem rdEntries_ok {src : List Byte} {w n pos mid : Nat} {s0 : Symbol} {ent all : List (Symbol × Bitstring)}
    (h : rdEntries src w s0 n ent pos = .ok all mid) :
    ∃ more, all = ent ++ more ∧ (∀ p ∈ more, 1 ≤ p.2.length ∧ p.2.length ≤ 8 * w - 1) ∧
      ((ent.map Prod.fst).Nodup → (all.map Prod.fst).Nodup) ∧ pos ≤ mid ∧ mid ≤ src.length := by
  induction n generalizing ent pos with
  | zero => simp [rdEntries] at h
  | succ n ih =>
    simp only [rdEntries] at h
    rcases rd_cases src pos with ⟨-, hr⟩ | ⟨b, -, hlt, hr⟩
    · simp [hr] at h
    · rw [hr, Parse.andThen_ok] at h
      split at h
      · obtain ⟨rfl, rfl⟩ : ent = all ∧ pos + 1 = mid := by simpa using h
        exact ⟨[], by simp, by simp, id, by omega, by omega⟩
      · split at h
        · simp at h
        · next hdup =>
          obtain ⟨c, p1, h1, h2⟩ := Parse.andThen_eq_ok h
          obtain ⟨c1, c2, c3, c4⟩ := rdSlot_ok h1
          obtain ⟨more, rfl, m1, m2, m3, m4⟩ := ih h2
          refine ⟨(b, c) :: more, by simp, ?_, ?_, by omega, m4⟩
          · intro p hp
            rcases List.mem_cons.1 hp with rfl | hp
            · exact ⟨c1, c2⟩
            · exact m1 p hp
          · intro hn
            apply m2
            rw [List.map_append, List.nodup_append]
            refine ⟨hn, by simp, ?_⟩
            rintro x hx y hy rfl
            obtain rfl : x = b := by simpa using hy
            apply hdup
            obtain ⟨p, hp, rfl⟩ := List.mem_map.1 hx
            exact List.any_eq_true.2 ⟨p, hp, by simp⟩

/-- The errors the entry loop raises, and where it stops. -/
theorem rdEntries_raised {src : List Byte} {w n pos mid : Nat} {s0 : Symbol} {ent : List (Symbol × Bitstring)}
    {e : CmdError} (h : rdEntries src w s0 n ent pos = .raised e mid) :
    (e = .truncated ∨ e = .badSlot ∨ e = .dupSymbol) ∧ pos ≤ mid ∧ (pos ≤ src.length → mid ≤ src.length) := by
  induction n generalizing ent pos with
  | zero =>
    obtain ⟨rfl, rfl⟩ : CmdError.truncated = e ∧ pos = mid := by simpa [rdEntries] using h
    exact ⟨.inl rfl, le_refl _, id⟩
  | succ n ih =>
    simp only [rdEntries] at h
    rcases rd_cases src pos with ⟨-, hr⟩ | ⟨b, -, hlt, hr⟩
    · rw [hr, Parse.andThen_raised] at h
      obtain ⟨rfl, rfl⟩ : CmdError.truncated = e ∧ pos = mid := by simpa using h
      exact ⟨.inl rfl, le_refl _, id⟩
    · rw [hr, Parse.andThen_ok] at h
      split at h
      · simp at h
      · split at h
        · obtain ⟨rfl, rfl⟩ : CmdError.dupSymbol = e ∧ pos + 1 = mid := by simpa using h
          exact ⟨.inr (.inr rfl), by omega, fun _ => by omega⟩
        · rcases Parse.andThen_eq_raised h with h1 | ⟨c, p1, h1, h2⟩
          · obtain ⟨h3, h4, h5⟩ := rdSlot_raised h1
            exact ⟨by rcases h3 with rfl | rfl <;> simp, by omega, fun _ => h5 (by omega)⟩
          · obtain ⟨-, -, c3, c4⟩ := rdSlot_ok h1
            obtain ⟨h3, h4, h5⟩ := ih h2
            exact ⟨h3, by omega, fun _ => h5 c4⟩

/-- The entry loop passes over entries laid out in the source, each a new symbol and a slot. `n` may be anything that covers the bytes
left (42_table_codec.md R188). -/
theorem rdEntries_skip {src : List Byte} {w n : Nat} {s0 : Symbol}
    {more : List (Symbol × Bitstring × List Byte)} {ent : List (Symbol × Bitstring)} {pos : Nat} {tail : List Byte}
    (hd : src.drop pos = (more.flatMap fun p => p.1 :: p.2.2) ++ tail)
    (hslot : ∀ p ∈ more, p.2.2.length = w ∧ slotRead p.2.2 = some p.2.1)
    (hs0 : s0 ∈ ent.map Prod.fst) (hn : (ent.map Prod.fst ++ more.map Prod.fst).Nodup)
    (hfuel : src.length - pos ≤ n) :
    ∃ k mid, rdEntries src w s0 n ent pos = rdEntries src w s0 k (ent ++ more.map fun p => (p.1, p.2.1)) mid ∧
      src.drop mid = tail ∧ src.length - mid ≤ k := by
  induction more generalizing ent pos n with
  | nil => exact ⟨n, pos, by simp, by simpa using hd, hfuel⟩
  | cons p more ih =>
    obtain ⟨b, c, bytes⟩ := p
    obtain ⟨hw, hc⟩ := hslot _ List.mem_cons_self
    simp only at hw hc
    obtain ⟨h1, h2⟩ := rd_of_drop (b := b) (rest := bytes ++ ((more.flatMap fun p => p.1 :: p.2.2) ++ tail))
      (by simpa using hd)
    obtain ⟨h3, h4⟩ := rdSlot_of_drop h2 hc
    rw [hw] at h3 h4
    have hlen := congrArg List.length hd
    simp only [List.length_drop, List.flatMap_cons, List.length_append, List.length_cons] at hlen
    have hb : b ∉ ent.map Prod.fst := by
      intro hb
      rw [List.nodup_append] at hn
      exact hn.2.2 b hb b (by simp) rfl
    cases n with
    | zero => omega
    | succ n =>
      obtain ⟨k, mid, h5, h6, h7⟩ := ih (n := n) (ent := ent ++ [(b, c)]) h4
        (fun p hp => hslot p (List.mem_cons_of_mem _ hp)) (by simp at hs0 ⊢; exact .inl hs0)
        (by simpa using hn) (by omega)
      refine ⟨k, mid, ?_, h6, h7⟩
      have hne : b ≠ s0 := fun e => hb (e ▸ hs0)
      have hdup : ent.any (fun p => p.1 == b) = false := by
        rw [List.any_eq_false]
        intro p hp hpb
        exact hb (List.mem_map.2 ⟨p, hp, by simpa using hpb⟩)
      simp only [rdEntries, h1, Parse.andThen_ok, if_neg hne, hdup, Bool.false_eq_true, if_false, h3, h5]
      simp

/-- The entry loop on entries and their terminator, the first symbol again (42_table_codec.md R188). -/
theorem rdEntries_of_drop {src : List Byte} {w n : Nat} {s0 : Symbol}
    {more : List (Symbol × Bitstring × List Byte)} {ent : List (Symbol × Bitstring)} {pos : Nat} {rest : List Byte}
    (hd : src.drop pos = (more.flatMap fun p => p.1 :: p.2.2) ++ s0 :: rest)
    (hslot : ∀ p ∈ more, p.2.2.length = w ∧ slotRead p.2.2 = some p.2.1)
    (hs0 : s0 ∈ ent.map Prod.fst) (hn : (ent.map Prod.fst ++ more.map Prod.fst).Nodup)
    (hfuel : src.length - pos ≤ n) :
    ∃ mid, rdEntries src w s0 n ent pos = .ok (ent ++ more.map fun p => (p.1, p.2.1)) mid ∧ src.drop mid = rest := by
  obtain ⟨k, mid, h1, h2, h3⟩ := rdEntries_skip hd hslot hs0 hn hfuel
  obtain ⟨h4, h5⟩ := rd_of_drop h2
  have := congrArg List.length h2
  simp at this
  obtain ⟨k, rfl⟩ : ∃ m, k = m + 1 := ⟨k - 1, by omega⟩
  exact ⟨mid + 1, by rw [h1]; simp [rdEntries, h4], h5⟩

/-- A slot of which the source holds only a part is truncated (42_table_codec.md R188). -/
theorem rdBytes_short {src : List Byte} {n pos : Nat} (h : src.length - pos < n) :
    ∃ mid, rdBytes src n pos = .raised .truncated mid ∧ src.length ≤ mid := by
  induction n generalizing pos with
  | zero => omega
  | succ n ih =>
    rcases rd_cases src pos with ⟨h1, h2⟩ | ⟨b, h1, h2, h3⟩
    · exact ⟨pos, by simp [rdBytes, h2], h1⟩
    · obtain ⟨mid, h4, h5⟩ := ih (pos := pos + 1) (by omega)
      exact ⟨mid, by simp [rdBytes, h3, h4], h5⟩

theorem rdSlot_short {src : List Byte} {n pos : Nat} (h : src.length - pos < n) :
    ∃ mid, rdSlot src n pos = .raised .truncated mid ∧ src.length ≤ mid := by
  obtain ⟨mid, h1, h2⟩ := rdBytes_short h
  exact ⟨mid, by simp [rdSlot, h1], h2⟩

/-- A slot without a code is refused after all its bytes (42_table_codec.md R188). -/
theorem rdSlot_bad {src : List Byte} {pos : Nat} {bytes rest : List Byte} (h : src.drop pos = bytes ++ rest)
    (hb : slotRead bytes = none) :
    rdSlot src bytes.length pos = .raised .badSlot (pos + bytes.length) ∧ src.drop (pos + bytes.length) = rest := by
  obtain ⟨h1, h2⟩ := rdBytes_of_drop h
  exact ⟨by simp [rdSlot, h1, hb], h2⟩

/-- The entry loop where the source ends inside the entries or before the terminator (42_table_codec.md R188). -/
theorem rdEntries_short {src : List Byte} {w n : Nat} {s0 : Symbol}
    {more : List (Symbol × Bitstring × List Byte)} {ent : List (Symbol × Bitstring)} {pos : Nat} {lost : List Byte}
    (hd : src.drop pos ++ lost = more.flatMap fun p => p.1 :: p.2.2)
    (hslot : ∀ p ∈ more, p.2.2.length = w ∧ slotRead p.2.2 = some p.2.1)
    (hs0 : s0 ∈ ent.map Prod.fst) (hn : (ent.map Prod.fst ++ more.map Prod.fst).Nodup) :
    ∃ mid, rdEntries src w s0 n ent pos = .raised .truncated mid ∧ (src.length ≤ pos → src.length ≤ mid) ∧
      (src.length - pos ≤ n → src.length ≤ mid) := by
  induction n generalizing ent pos more with
  | zero => exact ⟨pos, rfl, id, fun h => by omega⟩
  | succ n ih =>
    rcases rd_cases src pos with ⟨h1, h2⟩ | ⟨b, h1, h2, h3⟩
    · exact ⟨pos, by simp [rdEntries, h2], id, fun _ => h1⟩
    have hdrop : src.drop pos = b :: src.drop (pos + 1) := by
      rw [List.drop_eq_getElem_cons h2]
      congr 1
      rw [List.getElem?_eq_getElem h2] at h1
      exact Option.some.inj h1
    rw [hdrop] at hd
    cases more with
    | nil => simp at hd
    | cons p more =>
      obtain ⟨b', c, bytes⟩ := p
      obtain ⟨hw, hc⟩ := hslot _ List.mem_cons_self
      simp only at hw hc
      simp only [List.cons_append, List.flatMap_cons, List.cons.injEq] at hd
      obtain ⟨rfl, hd⟩ := hd
      have hb : b ∉ ent.map Prod.fst := by
        intro hb
        rw [List.nodup_append] at hn
        exact hn.2.2 b hb b (by simp) rfl
      have hne : b ≠ s0 := fun e => hb (e ▸ hs0)
      have hdup : ent.any (fun p => p.1 == b) = false := by
        rw [List.any_eq_false]
        intro p hp hpb
        exact hb (List.mem_map.2 ⟨p, hp, by simpa using hpb⟩)
      by_cases hs : src.length - (pos + 1) < w
      · obtain ⟨mid, h4, h5⟩ := rdSlot_short hs
        exact ⟨mid, by simp only [rdEntries, h3, Parse.andThen_ok, if_neg hne, hdup, Bool.false_eq_true, if_false, h4,
          Parse.andThen_raised], fun _ => h5, fun _ => h5⟩
      · obtain ⟨tail, ht⟩ : bytes <+: src.drop (pos + 1) :=
          List.prefix_of_prefix_length_le ⟨_, hd.symm⟩ (List.prefix_append _ _) (by simp; omega)
        obtain ⟨h4, h5⟩ := rdSlot_of_drop ht.symm hc
        rw [hw] at h4 h5
        obtain ⟨mid, h6, h7, h8⟩ := ih (ent := ent ++ [(b, c)]) (pos := pos + 1 + w) (more := more)
          (by rw [h5]; rw [← ht, List.append_assoc] at hd; exact List.append_cancel_left hd)
          (fun p hp => hslot p (List.mem_cons_of_mem _ hp)) (by simp at hs0 ⊢; exact .inl hs0) (by simpa using hn)
        exact ⟨mid, by simp only [rdEntries, h3, Parse.andThen_ok, if_neg hne, hdup, Bool.false_eq_true, if_false, h4, h6],
          fun h => by omega, fun h => h8 (by omega)⟩

/-! ### Validation and the committed table -/

/-- What Validate accepts: the sentinel's code is its entry's, and no two symbols share a code (42_table_codec.md R189). -/
theorem validate_eq_none {ent : List (Symbol × Bitstring)} {e : Symbol} {ce : Bitstring} :
    validate ent e ce = none ↔
      (∀ p ∈ ent, p.1 = e → p.2 = ce) ∧
      (∀ p ∈ ent ++ [(e, ce)], ∀ q ∈ ent ++ [(e, ce)], p.2 = q.2 → p.1 = q.1) := by
  unfold validate
  constructor
  · intro h
    split at h
    · simp at h
    · next h1 =>
      split at h
      · simp at h
      · next h2 =>
        refine ⟨fun p hp he => ?_, fun p hp q hq hpq => ?_⟩
        · by_contra hne
          exact h1 (List.any_eq_true.2 ⟨p, hp, by simp [he, hne]⟩)
        · by_contra hne
          exact h2 (List.any_eq_true.2 ⟨p, hp, List.any_eq_true.2 ⟨q, hq, by simp [hpq, hne]⟩⟩)
  · rintro ⟨h1, h2⟩
    rw [if_neg, if_neg]
    · intro h
      obtain ⟨p, hp, h⟩ := List.any_eq_true.1 h
      obtain ⟨q, hq, h⟩ := List.any_eq_true.1 h
      simp only [Bool.and_eq_true, beq_iff_eq, bne_iff_ne] at h
      exact h.2 (h2 p hp q hq h.1)
    · intro h
      obtain ⟨p, hp, h⟩ := List.any_eq_true.1 h
      simp only [Bool.and_eq_true, beq_iff_eq, bne_iff_ne] at h
      exact h.2 (h1 p hp h.1)

theorem validate_eq_some {ent : List (Symbol × Bitstring)} {e : Symbol} {ce : Bitstring} {err : CmdError}
    (h : validate ent e ce = some err) : err = .eofConflict ∨ err = .dupCode := by
  unfold validate at h
  split at h
  · left; simpa using h.symm
  · split at h
    · right; simpa using h.symm
    · simp at h

/-- What a successful parse says of the preamble (42_table_codec.md R188, R189). -/
theorem parsePreamble_ok {src : List Byte} {pos mid : Nat} {p : Preamble} (h : parsePreamble src pos = .ok p mid) :
    p.width ≠ 0 ∧ p.entries ≠ [] ∧ (p.entries.map Prod.fst).Nodup ∧
      (∀ q ∈ p.entries ++ [(p.eof, p.eofCode)], 1 ≤ q.2.length ∧ q.2.length ≤ 2039) ∧
      validate p.entries p.eof p.eofCode = none ∧ pos ≤ mid ∧ mid ≤ src.length := by
  unfold parsePreamble at h
  obtain ⟨w, p1, r1, h⟩ := Parse.andThen_eq_ok h
  split at h
  · simp at h
  next hw =>
  obtain ⟨s0, p2, r2, h⟩ := Parse.andThen_eq_ok h
  obtain ⟨c0, p3, r3, h⟩ := Parse.andThen_eq_ok h
  obtain ⟨ent, p4, r4, h⟩ := Parse.andThen_eq_ok h
  obtain ⟨ce, p5, r5, h⟩ := Parse.andThen_eq_ok h
  obtain ⟨e, p6, r6, h⟩ := Parse.andThen_eq_ok h
  have rdok : ∀ {x : Nat} {b : Byte} {y : Nat}, rd src x = .ok b y → y = x + 1 ∧ y ≤ src.length := by
    intro x b y hr
    rcases rd_cases src x with ⟨-, h'⟩ | ⟨b', -, hlt, h'⟩
    · simp [h'] at hr
    · rw [h'] at hr
      have : x + 1 = y := by simp at hr; exact hr.2
      omega
  obtain ⟨q1, -⟩ := rdok r1
  obtain ⟨q2, -⟩ := rdok r2
  obtain ⟨a1, a2, a3, a4⟩ := rdSlot_ok r3
  obtain ⟨more, rfl, b1, b2, b3, b4⟩ := rdEntries_ok r4
  obtain ⟨c1, c2, c3, c4⟩ := rdSlot_ok r5
  obtain ⟨q6, q7⟩ := rdok r6
  split at h
  · simp at h
  next hv =>
  have hwlt := w.isLt
  simp only [Parse.ok.injEq] at h
  obtain ⟨rfl, rfl⟩ := h
  refine ⟨hw, by simp, b2 (by simp), ?_, hv, by omega, q7⟩
  intro q hq
  simp only [List.mem_append, List.mem_cons, List.not_mem_nil, or_false] at hq
  rcases hq with (rfl | hq) | rfl
  · exact ⟨a1, by dsimp only; omega⟩
  · have := b1 q hq; omega
  · exact ⟨c1, by dsimp only; omega⟩

/-- The errors the parser raises, all of code MALFORMED_HEADER, and where it stops (42_table_codec.md R188). -/
theorem parsePreamble_raised {src : List Byte} {pos mid : Nat} {e : CmdError}
    (h : parsePreamble src pos = .raised e mid) :
    e ∈ [CmdError.truncated, .badWidth, .badSlot, .dupSymbol, .eofConflict, .dupCode] ∧ pos ≤ mid ∧
      (pos ≤ src.length → mid ≤ src.length) := by
  have rdcase : ∀ {x : Nat} {y : Nat} {e : CmdError}, rd src x = .raised e y → e = .truncated ∧ y = x := by
    intro x y e hr
    rcases rd_cases src x with ⟨-, h'⟩ | ⟨b', -, -, h'⟩
    · rw [h'] at hr; simp at hr; exact ⟨hr.1.symm, hr.2.symm⟩
    · simp [h'] at hr
  have rdok : ∀ {x : Nat} {b : Byte} {y : Nat}, rd src x = .ok b y → y = x + 1 ∧ y ≤ src.length := by
    intro x b y hr
    rcases rd_cases src x with ⟨-, h'⟩ | ⟨b', -, hlt, h'⟩
    · simp [h'] at hr
    · rw [h'] at hr
      have : x + 1 = y := by simp at hr; exact hr.2
      omega
  unfold parsePreamble at h
  rcases Parse.andThen_eq_raised h with h1 | ⟨w, p1, r1, h⟩
  · obtain ⟨rfl, rfl⟩ := rdcase h1; simp
  obtain ⟨q1, q1'⟩ := rdok r1
  split at h
  · obtain ⟨rfl, rfl⟩ : CmdError.badWidth = e ∧ p1 = mid := by simpa using h
    exact ⟨by simp, by omega, fun _ => q1'⟩
  rcases Parse.andThen_eq_raised h with h1 | ⟨s0, p2, r2, h⟩
  · obtain ⟨rfl, rfl⟩ := rdcase h1; exact ⟨by simp, by omega, fun _ => q1'⟩
  obtain ⟨q2, q2'⟩ := rdok r2
  rcases Parse.andThen_eq_raised h with h1 | ⟨c0, p3, r3, h⟩
  · obtain ⟨h3, h4, h5⟩ := rdSlot_raised h1
    exact ⟨by rcases h3 with rfl | rfl <;> simp, by omega, fun _ => h5 q2'⟩
  obtain ⟨-, -, a3, a4⟩ := rdSlot_ok r3
  rcases Parse.andThen_eq_raised h with h1 | ⟨ent, p4, r4, h⟩
  · obtain ⟨h3, h4, h5⟩ := rdEntries_raised h1
    exact ⟨by rcases h3 with rfl | rfl | rfl <;> simp, by omega, fun _ => h5 a4⟩
  obtain ⟨-, -, -, -, b3, b4⟩ := rdEntries_ok r4
  rcases Parse.andThen_eq_raised h with h1 | ⟨ce, p5, r5, h⟩
  · obtain ⟨h3, h4, h5⟩ := rdSlot_raised h1
    exact ⟨by rcases h3 with rfl | rfl <;> simp, by omega, fun _ => h5 b4⟩
  obtain ⟨-, -, c3, c4⟩ := rdSlot_ok r5
  rcases Parse.andThen_eq_raised h with h1 | ⟨eb, p6, r6, h⟩
  · obtain ⟨rfl, rfl⟩ := rdcase h1; exact ⟨by simp, by omega, fun _ => c4⟩
  obtain ⟨q6, q7⟩ := rdok r6
  split at h
  · next err hv =>
    obtain ⟨rfl, rfl⟩ : err = e ∧ p6 = mid := by simpa using h
    exact ⟨by rcases validate_eq_some hv with rfl | rfl <;> simp, by omega, fun _ => q7⟩
  · simp at h

theorem decFold_sorted (l : List (Symbol × Bitstring)) {d : DecTable} (hd : decSorted d = true) :
    decSorted (l.foldl (fun d q => decPut q.2 q.1 d) d) = true := by
  induction l generalizing d with
  | nil => exact hd
  | cons q l ih => exact ih (decSorted_decPut hd)

theorem decFold_lookup (l : List (Symbol × Bitstring)) (hinj : ∀ p ∈ l, ∀ q ∈ l, p.2 = q.2 → p.1 = q.1)
    (d : DecTable) (c : Bitstring) (b : Symbol) (hd : ∀ q ∈ l, decAt d q.2 = none ∨ decAt d q.2 = some q.1) :
    decAt (l.foldl (fun d q => decPut q.2 q.1 d) d) c = some b ↔ decAt d c = some b ∨ (b, c) ∈ l := by
  induction l generalizing d with
  | nil => simp
  | cons x l ih =>
    have hinj' : ∀ p ∈ l, ∀ q ∈ l, p.2 = q.2 → p.1 = q.1 := fun p hp q hq =>
      hinj p (List.mem_cons_of_mem _ hp) q (List.mem_cons_of_mem _ hq)
    have hd' : ∀ q ∈ l, decAt (decPut x.2 x.1 d) q.2 = none ∨ decAt (decPut x.2 x.1 d) q.2 = some q.1 := by
      intro q hq
      rw [decAt_decPut]
      split
      · next e => right; rw [hinj q (List.mem_cons_of_mem _ hq) x List.mem_cons_self e]
      · exact hd q (List.mem_cons_of_mem _ hq)
    rw [List.foldl_cons, ih hinj' _ hd', decAt_decPut]
    constructor
    · rintro (h | h)
      · split at h
        · next e => right; subst e; obtain rfl := Option.some.inj h; exact List.mem_cons_self
        · exact .inl h
      · exact .inr (List.mem_cons_of_mem _ h)
    · rintro (h | h)
      · left
        split
        · next e =>
          subst e
          rcases hd x List.mem_cons_self with h' | h'
          · rw [h'] at h; simp at h
          · rw [h'] at h; exact h
        · exact h
      · rcases List.mem_cons.1 h with rfl | h
        · left; simp
        · exact .inr h

/-- DEC for an accepted preamble: sorted, and exactly the inverse of its entries and of the sentinel (42_table_codec.md R188). -/
theorem decTable_spec {p : Preamble} (hv : validate p.entries p.eof p.eofCode = none) :
    decSorted p.decTable = true ∧
      ∀ c b, decAt p.decTable c = some b ↔ (b, c) ∈ p.entries ++ [(p.eof, p.eofCode)] := by
  obtain ⟨-, h2⟩ := validate_eq_none.1 hv
  refine ⟨decFold_sorted _ rfl, fun c b => ?_⟩
  have := decFold_lookup _ h2 [] c b (fun _ _ => .inl rfl)
  simpa [Preamble.decTable, decAt_nil] using this

/-! ### The longest code -/

theorem le_maxCodeLen {enc : EncTable} {b : Symbol} {c : Bitstring} (h : encAt enc b = some c) :
    c.length ≤ maxCodeLen enc := by
  have key : ∀ l : List (Option Bitstring), some c ∈ l →
      c.length ≤ l.foldr (fun c m => max ((c.map List.length).getD 0) m) 0 := by
    intro l
    induction l with
    | nil => simp
    | cons x l ih =>
      intro hm
      simp only [List.foldr_cons]
      rcases List.mem_cons.1 hm with rfl | hm
      · exact Nat.le_max_left _ _
      · exact le_trans (ih hm) (Nat.le_max_right _ _)
  apply key
  rw [← h, Vector.mem_toList_iff]
  exact Vector.getElem_mem _

theorem maxCodeLen_le {enc : EncTable} {n : Nat} (h : ∀ b c, encAt enc b = some c → c.length ≤ n) :
    maxCodeLen enc ≤ n := by
  have key : ∀ l : List (Option Bitstring), (∀ c, some c ∈ l → c.length ≤ n) →
      l.foldr (fun c m => max ((c.map List.length).getD 0) m) 0 ≤ n := by
    intro l
    induction l with
    | nil => simp
    | cons x l ih =>
      intro hl
      simp only [List.foldr_cons]
      refine max_le ?_ (ih fun c hc => hl c (List.mem_cons_of_mem _ hc))
      cases x with
      | none => simp
      | some c => exact hl c List.mem_cons_self
  apply key
  intro c hc
  rw [Vector.mem_toList_iff] at hc
  obtain ⟨i, hi, hi'⟩ := Vector.getElem_of_mem hc
  exact h (BitVec.ofNat 8 i) c (by simp [encAt, Nat.mod_eq_of_lt hi, hi'])

/-- The longest code's length is the length of some code. -/
theorem maxCodeLen_attained {enc : EncTable} {b0 : Symbol} {c0 : Bitstring} (h : encAt enc b0 = some c0) :
   ∃ b c, encAt enc b = some c ∧ c.length = maxCodeLen enc := by
  by_contra hno
  push Not at hno
  have : maxCodeLen enc ≤ maxCodeLen enc - 1 := maxCodeLen_le fun b c hc => by
    have h1 := hno b c hc
    have h2 := le_maxCodeLen hc
    omega
  have h2 := le_maxCodeLen h
  have h3 := hno b0 c0 h
  omega

/-- The symbols WRITE_TABLE writes entries for (42_table_codec.md R187, 30_encoding.md R119). -/
theorem tableSymbols_spec (enc : EncTable) (eof : Symbol) :
    ∃ first more, tableSymbols enc eof = first :: more ∧
   (first :: more).Pairwise (· < ·) ∧ (∀ b, b ≠ eof → encAt enc b ≠ none → b ∈ first :: more) ∧
   (∀ b ∈ first :: more, b ≠ eof → encAt enc b ≠ none) ∧
   (eof ∈ first :: more → first = eof ∧ more = [] ∧ ∀ b, b ≠ eof → encAt enc b = none) := by
  have hm : ∀ b, b ∈ (symbolsWhere enc Option.isSome).filter (fun b => b != eof) ↔ encAt enc b ≠ none ∧ b ≠ eof := by
    intro b
    rw [List.mem_filter, mem_symbolsWhere]
    simp [encAt, Option.isSome_iff_ne_none]
  have hp := (symbolsWhere_rising enc Option.isSome).filter (fun b => b != eof)
  unfold tableSymbols
  generalize (symbolsWhere enc Option.isSome).filter (fun b => b != eof) = l at hm hp ⊢
  rcases l with _ | ⟨x, xs⟩
  · refine ⟨eof, [], rfl, by simp, fun b hb hn => ?_, fun b hb hn => ?_, fun _ => ⟨rfl, rfl, fun b hb => ?_⟩⟩
    · exact absurd ((hm b).2 ⟨hn, hb⟩) (by simp)
    · simp at hb; exact absurd hb hn
    · by_contra h; exact absurd ((hm b).2 ⟨h, hb⟩) (by simp)
  · exact ⟨x, xs, rfl, hp, fun b hb hn => (hm b).2 ⟨hn, hb⟩, fun b hb _ => ((hm b).1 hb).1,
      fun h => absurd rfl ((hm eof).1 h).2⟩

/-- The parser accepts every preamble of distinct symbols and one-to-one codes, and stops just after it (42_table_codec.md R188). -/
theorem parsePreamble_of_drop {src : List Byte} {pos : Nat} {w : Byte} {first : Symbol × Bitstring × List Byte}
    {more : List (Symbol × Bitstring × List Byte)}
    {ce : Bitstring} {eofSlot : List Byte} {eof : Symbol} {rest : List Byte} (hw : w ≠ 0)
    (hd : src.drop pos = preambleBytes w first more eofSlot eof ++ rest)
    (hn : ((first :: more).map Prod.fst).Nodup) (hs : ∀ p ∈ first :: more, SlotOf w.toNat p.2.1 p.2.2)
    (he : SlotOf w.toNat ce eofSlot) (h1 : ∀ p ∈ first :: more, (p.1 = eof ↔ p.2.1 = ce))
    (h2 : ((first :: more).map fun p => p.2.1).Nodup) :
    parsePreamble src pos = .ok ⟨w, (first :: more).map fun p => (p.1, p.2.1), eof, ce⟩ (src.length - rest.length) ∧
     validate ((first :: more).map fun p => (p.1, p.2.1)) eof ce = none := by
  have hv : validate ((first :: more).map fun p => (p.1, p.2.1)) eof ce = none := by
    rw [validate_eq_none]
    refine ⟨?_, ?_⟩
    · intro p hp hpe
      obtain ⟨q, hq, rfl⟩ := List.mem_map.1 hp
      exact (h1 q hq).1 hpe
    · intro p hp q hq hpq
      simp only [List.mem_append, List.mem_singleton] at hp hq
      rcases hp with hp | rfl <;> rcases hq with hq | rfl
      · obtain ⟨p', hp', rfl⟩ := List.mem_map.1 hp
        obtain ⟨q', hq', rfl⟩ := List.mem_map.1 hq
        have := List.inj_on_of_nodup_map h2 hp' hq' hpq
        rw [this]
      · obtain ⟨p', hp', rfl⟩ := List.mem_map.1 hp
        exact (h1 p' hp').2 hpq
      · obtain ⟨q', hq', rfl⟩ := List.mem_map.1 hq
        exact ((h1 q' hq').2 hpq.symm).symm
      · rfl
  refine ⟨?_, hv⟩
  have hd0 := congrArg List.length hd
  unfold preambleBytes at hd
  simp only [List.flatMap_cons, List.append_assoc, List.cons_append, List.nil_append] at hd
  obtain ⟨a1, a2⟩ := rd_of_drop hd
  obtain ⟨b1, b2⟩ := rd_of_drop a2
  have hf := hs first (by simp)
  obtain ⟨c1, c2⟩ := rdSlot_of_drop b2 hf.2
  rw [hf.1] at c1 c2
  obtain ⟨mid, e1, e2⟩ := rdEntries_of_drop (w := w.toNat) (n := src.length - (pos + 1 + 1 + w.toNat))
    (ent := [(first.1, first.2.1)]) c2 (fun p hp => hs p (by simp [hp])) (by simp) (by simpa using hn) (le_refl _)
  obtain ⟨f1, f2⟩ := rdSlot_of_drop e2 he.2
  rw [he.1] at f1 f2
  obtain ⟨g1, g2⟩ := rd_of_drop f2
  have hpos : mid + w.toNat + 1 = src.length - rest.length := by
    have h3 := congrArg List.length f2
    have h4 := congrArg List.length g2
    simp at h3 h4
    omega
  unfold parsePreamble
  simp only [a1, Parse.andThen_ok, if_neg hw, b1, c1, e1, f1, g1]
  have hl : [(first.1, first.2.1)] ++ more.map (fun p => (p.1, p.2.1)) = (first :: more).map fun p => (p.1, p.2.1) := rfl
  rw [hl, hv, hpos]

end Sys2Proof.Machine
end

