-- ==== Sys2Proof/Laws/Transcoder.lean ====
section
/-! SUPPORT. The laws of the Transcoder: the codes ENCODE inserts, the magic check, and everything the loop of DECODE can do
(44_transcoder.md R240 to R244). -/

namespace Sys2Proof.Machine

/-! ### ENCODE -/

/-- The codes of the content are its bits: the sentinel's twice (30_encoding.md R115, R116). -/
theorem contentCodes_flatten (enc : EncTable) (eof : Symbol) (bytes : List Byte) :
    (contentCodes enc eof bytes).flatten = bytes.flatMap fun b =>
      if b = eof then (encAt enc b).getD [] ++ (encAt enc b).getD [] else (encAt enc b).getD [] := by
  induction bytes with
  | nil => rfl
  | cons b rest ih => by_cases h : b = eof <;> simp [contentCodes, h, ← ih]

/-- The codes of the payload are its bits (30_encoding.md R116). -/
theorem payloadCodes_flatten (enc : EncTable) (eof : Symbol) (bytes : List Byte) :
    (payloadCodes enc eof bytes).flatten = payloadBits enc eof bytes := by
  simp [payloadCodes, payloadBits, contentCodes_flatten]

/-! ### The magic check -/

/-- The whole of MAGIC is there: it is consumed. -/
theorem checkMagic_of_drop {src magic : List Byte} {pos : Nat} {rest : List Byte} (h : src.drop pos = magic ++ rest) :
    checkMagic src magic pos = .ok () (pos + magic.length) := by
  induction magic generalizing pos with
  | nil => rfl
  | cons m magic ih =>
    obtain ⟨h1, h2⟩ := rd_of_drop (by simpa using h)
    simp only [checkMagic, h1, Parse.andThen_ok, if_true, ih h2, List.length_cons]
    congr 1; omega

/-- A byte other than MAGIC's is a mismatch just after it. -/
theorem checkMagic_mismatch {src good magicRest : List Byte} {m b : Byte} {pos : Nat} {rest : List Byte}
    (hb : b ≠ m) (h : src.drop pos = good ++ b :: rest) :
    checkMagic src (good ++ m :: magicRest) pos = .raised .magicMismatch (pos + good.length + 1) := by
  induction good generalizing pos with
  | nil =>
    obtain ⟨h1, -⟩ := rd_of_drop (by simpa using h)
    simp [checkMagic, h1, hb]
  | cons g good ih =>
    obtain ⟨h1, h2⟩ := rd_of_drop (by simpa using h)
    simp only [List.cons_append, checkMagic, h1, Parse.andThen_ok, if_true, ih h2, List.length_cons]
    congr 1; omega

/-- A source that ends inside MAGIC is truncated. -/
theorem checkMagic_truncated {src good magicRest : List Byte} {m : Byte} {pos : Nat} (h : src.drop pos = good) :
    checkMagic src (good ++ m :: magicRest) pos = .raised .truncated (pos + good.length) := by
  induction good generalizing pos with
  | nil => simp [checkMagic, rd_end (List.drop_eq_nil_iff.1 h)]
  | cons g good ih =>
    obtain ⟨h1, h2⟩ := rd_of_drop h
    simp only [List.cons_append, checkMagic, h1, Parse.andThen_ok, if_true, ih h2, List.length_cons]
    congr 1; omega

/-- Everything the magic check can do. -/
theorem checkMagic_cases (src magic : List Byte) (pos : Nat) :
    (∃ rest, src.drop pos = magic ++ rest ∧ checkMagic src magic pos = .ok () (pos + magic.length)) ∨
    (∃ e mid, checkMagic src magic pos = .raised e mid ∧ (e = .magicMismatch ∨ e = .truncated) ∧ pos ≤ mid ∧
      (pos ≤ src.length → mid ≤ src.length)) := by
  induction magic generalizing pos with
  | nil => exact .inl ⟨_, rfl, rfl⟩
  | cons m magic ih =>
    rcases rd_cases src pos with ⟨h1, h2⟩ | ⟨b, h1, h2, h3⟩
    · exact .inr ⟨.truncated, pos, by simp [checkMagic, h2], .inr rfl, le_refl _, id⟩
    by_cases hb : b = m
    · subst hb
      have hd : src.drop pos = b :: src.drop (pos + 1) := by
        rw [List.drop_eq_getElem_cons h2]
        congr 1
        rw [List.getElem?_eq_getElem h2] at h1
        exact Option.some.inj h1
      have he : checkMagic src (b :: magic) pos = checkMagic src magic (pos + 1) := by simp [checkMagic, h3]
      rcases ih (pos + 1) with ⟨rest, hr, hc⟩ | ⟨e, mid, hc, hk, hm, hm'⟩
      · refine .inl ⟨rest, by rw [hd, hr]; rfl, ?_⟩
        rw [he, hc, List.length_cons]
        congr 1; omega
      · exact .inr ⟨e, mid, he.trans hc, hk, by omega, fun _ => hm' h2⟩
    · exact .inr ⟨.magicMismatch, pos + 1, by simp [checkMagic, h3, hb], .inl rfl, by omega, fun _ => h2⟩

/-! ### DECODE's loop -/

/-- `t` came from `s` by extractions and appends to the sink: nothing else moved. -/
def Extracts (s t : State) : Prop :=
  ∃ out, t = { s with
    snk := s.snk ++ out, brByte := t.brByte, brNbits := t.brNbits, brValid := t.brValid, brFail := t.brFail,
    srcPos := t.srcPos }

theorem Extracts.refl (s : State) : Extracts s s := ⟨[], by simp⟩

theorem Extracts.trans {s t u : State} (h : Extracts s t) (h' : Extracts t u) : Extracts s u := by
  obtain ⟨a, ha⟩ := h
  obtain ⟨b, hb⟩ := h'
  refine ⟨a ++ b, ?_⟩
  rw [hb, ha]
  simp

theorem Extracts.extract (s : State) : Extracts s s.extract.2 := ⟨[], by
  conv_lhs => rw [extract_frame]
  simp⟩

theorem Extracts.append (s : State) (bytes : List Byte) : Extracts s (s.snkAppend bytes) := ⟨bytes, rfl⟩

/-- What the loop of DECODE leaves alone. -/
theorem decodeLoop_frame (n : Nat) (s : State) : Extracts s (decodeLoop n s).state := by
  induction n generalizing s with
  | zero => exact .extract s
  | succ n ih =>
    have h1 := Extracts.extract s
    unfold decodeLoop
    split
    · rename_i t ht; rw [ht] at h1; exact h1
    · rename_i c b t ht
      rw [ht] at h1
      split
      · exact (h1.trans (.append t [b])).trans (ih _)
      · have h2 := h1.trans (Extracts.extract t)
        split
        · rename_i u hu; rw [hu] at h2; exact h2
        · rename_i c2 b2 u hu
          rw [hu] at h2
          split
          · exact h2
          · exact (h2.trans (.append u _)).trans (ih _)

/-- How DECODE's loop can end, from a valid reader: it returns, or raises CORRUPT_STREAM with the reader's reason; and `n` rounds, one
for each bit left, are enough (R243). -/
theorem decodeLoop_ends {n : Nat} {s : State} (hv : s.brValid = true) (hn : s.brNbits ≤ 8) (hf : s.brFail = .none)
    (hp : s.srcPos ≤ s.src.length) (hfuel : s.bitsLeft ≤ n) :
    (∃ t, decodeLoop n s = .ok t ∧ t.brNbits ≤ 8 ∧ t.srcPos ≤ t.src.length ∧ (t.brValid = true → t.brFail = .none)) ∨
    (∃ r t, decodeLoop n s = .raised (.corruptStream r) t ∧ (r = .noMatch ∨ r = .sourceEnd) ∧ t.brNbits ≤ 8 ∧
      t.srcPos ≤ t.src.length ∧ t.brValid = false) := by
  induction n generalizing s with
  | zero =>
    obtain ⟨x, r, hx, hr, -, hp', hcase⟩ := extract_cases hv hn
    have h0 : s.bitsAhead.length = 0 := by rw [bitsAhead_length hn]; omega
    have hx0 : x = [] := by
      have := congrArg List.length hx
      rw [List.length_append, h0] at this
      exact List.length_eq_zero_iff.1 (by omega)
    rcases hcase with ⟨b, -, c2, -⟩ | ⟨c1, -⟩ | ⟨c1, -⟩
    · exact absurd hx0 c2
    · exact .inr ⟨.noMatch, s.extract.2, by simp [decodeLoop, c1], .inl rfl, by simp [c1, hr], by simp [c1, hp' hp], by simp [c1]⟩
    · exact .inr ⟨.sourceEnd, s.extract.2, by simp [decodeLoop, c1], .inr rfl, by simp [c1, hr], by simp [c1, hp' hp], by simp [c1]⟩
  | succ n ih =>
    obtain ⟨x, r, hx, hr, -, hp', hcase⟩ := extract_cases hv hn
    have hlen : s.bitsLeft = x.length + (s.readerAt r).bitsLeft := by
      rw [← bitsAhead_length hn, ← bitsAhead_length (s := s.readerAt r) hr, hx, List.length_append]
    rcases hcase with ⟨b, c1, c2, -⟩ | ⟨c1, -⟩ | ⟨c1, -⟩
    · have hx1 : 1 ≤ x.length := List.length_pos_iff.2 c2
      unfold decodeLoop
      rw [c1]
      simp only
      split
      · refine ih (s := (s.readerAt r).snkAppend [b]) hv hr hf (hp' hp) ?_
        show (s.readerAt r).bitsLeft ≤ n
        omega
      · obtain ⟨x2, r2, hx2, hr2, -, hp2, hcase2⟩ := extract_cases (s := s.readerAt r) hv hr
        have hlen2 : (s.readerAt r).bitsLeft = x2.length + ((s.readerAt r).readerAt r2).bitsLeft := by
          rw [← bitsAhead_length (s := s.readerAt r) hr, ← bitsAhead_length (s := (s.readerAt r).readerAt r2) hr2, hx2, List.length_append]
        rcases hcase2 with ⟨b2, d1, d2, -⟩ | ⟨d1, -⟩ | ⟨d1, -⟩
        · rw [d1]
          simp only
          split
          · exact .inl ⟨_, rfl, hr2, hp2 (hp' hp), fun _ => hf⟩
          · refine ih (s := ((s.readerAt r).readerAt r2).snkAppend [_]) hv hr2 hf (hp2 (hp' hp)) ?_
            show ((s.readerAt r).readerAt r2).bitsLeft ≤ n
            omega
        · rw [d1]
          exact .inl ⟨_, rfl, hr2, hp2 (hp' hp), fun h => by cases h⟩
        · rw [d1]
          exact .inl ⟨_, rfl, hr2, hp2 (hp' hp), fun h => by cases h⟩
    · exact .inr ⟨.noMatch, s.extract.2, by simp [decodeLoop, c1], .inl rfl, by simp [c1, hr], by simp [c1, hp' hp], by simp [c1]⟩
    · exact .inr ⟨.sourceEnd, s.extract.2, by simp [decodeLoop, c1], .inr rfl, by simp [c1, hr], by simp [c1, hp' hp], by simp [c1]⟩

/-! ### DECODE's loop over the codes of a prefix-free table

In these laws DEC is the inverse of `enc`, a prefix-free table of non-empty codes none longer than BR_MAXLEN. -/

/-- What one more Extract does, by what the bits ahead begin with (43_bit_reader.md R221). -/
theorem extract_peek {s : State} {enc : EncTable} (hv : s.brValid = true) (hn : s.brNbits ≤ 8)
    (hdec : ∀ b c, decAt s.dec c = some b ↔ encAt enc b = some c) (hfree : EncPrefixFree enc)
    (hlen : ∀ b c, encAt enc b = some c → 1 ≤ c.length ∧ c.length ≤ s.brMaxlen) :
    (∀ b c, encAt enc b = some c → c <+: s.bitsAhead →
      s.extract = (some (c, b), s.readerAt (s.readerPos.advance s.src c.length))) ∧
    ((∀ b c, encAt enc b = some c → ¬ c <+: s.bitsAhead) →
      (s.brMaxlen < s.bitsAhead.length → s.extract = (none,
        { s.readerAt (s.readerPos.advance s.src (s.brMaxlen + 1)) with brValid := false, brFail := .noMatch })) ∧
      (s.bitsAhead.length ≤ s.brMaxlen → s.extract = (none,
        { s.readerAt (s.readerPos.advance s.src s.bitsAhead.length) with brValid := false, brFail := .sourceEnd }))) := by
  refine ⟨fun b c hb hp => ?_, fun hno => ?_⟩
  · obtain ⟨rest, hr⟩ := hp
    obtain ⟨r, h1, -, -, h4⟩ := extract_code hv hn hdec hfree hlen hb hr.symm
    rw [h1, h4]
  have hnone : ∀ y, y ≠ [] → y <+: s.bitsAhead → decAt s.dec y = none := by
    intro y _ hp
    cases hd : decAt s.dec y with
    | none => rfl
    | some b => exact absurd hp (hno b y ((hdec b y).1 hd))
  refine ⟨fun hl => ?_, fun hl => ?_⟩
  · have htake : (s.bitsAhead.take (s.brMaxlen + 1)).length = s.brMaxlen + 1 := by rw [List.length_take]; omega
    obtain ⟨r, h1, -, -, h4⟩ := (extract_fails hv hn (List.take_append_drop (s.brMaxlen + 1) s.bitsAhead).symm
      fun y hy hp => hnone y hy (hp.trans (List.take_prefix _ _))).1 htake
    rw [h1, h4, htake]
  · obtain ⟨r, h1, -, -, h4⟩ := (extract_fails hv hn (List.append_nil s.bitsAhead).symm hnone).2 hl rfl
    rw [h1, h4]

/-- One round on an ordinary symbol (R243). -/
theorem decodeLoop_symbol {n : Nat} {s t : State} {c : Bitstring} {b : Symbol} (h : s.extract = (some (c, b), t))
    (hb : b ≠ t.eofSym) : decodeLoop (n + 1) s = decodeLoop n (t.snkAppend [b]) := by
  simp [decodeLoop, h, hb]

/-- One round on an escaped sentinel (R243). -/
theorem decodeLoop_escaped {n : Nat} {s t u : State} {c c2 : Bitstring} {b b2 : Symbol} (h : s.extract = (some (c, b), t))
    (hb : b = t.eofSym) (h2 : t.extract = (some (c2, b2), u)) (hb2 : b2 = u.eofSym) :
    decodeLoop (n + 1) s = decodeLoop n (u.snkAppend [u.eofSym]) := by
  simp [decodeLoop, h, hb, h2, hb2]

/-- The loop on the codes of some content: it appends the content to the sink and goes on behind those codes
(44_transcoder.md R243). -/
theorem decodeLoop_content {n : Nat} {s : State} {enc : EncTable} {content : List Byte} {tail : Bitstring}
    (hv : s.brValid = true) (hn : s.brNbits ≤ 8)
    (hdec : ∀ b c, decAt s.dec c = some b ↔ encAt enc b = some c) (hfree : EncPrefixFree enc)
    (hlen : ∀ b c, encAt enc b = some c → 1 ≤ c.length ∧ c.length ≤ s.brMaxlen)
    (hx : ∀ b ∈ content, encAt enc b ≠ none)
    (h : s.bitsAhead = (contentCodes enc s.eofSym content).flatten ++ tail) (hfuel : s.bitsAhead.length ≤ n) :
    ∃ m t, decodeLoop n s = decodeLoop m t ∧ t.bitsAhead.length ≤ m ∧ t.bitsAhead = tail ∧ t.brNbits ≤ 8 ∧
      t = (s.readerAt (s.readerPos.advance s.src (contentCodes enc s.eofSym content).flatten.length)).snkAppend content := by
  induction content generalizing n s with
  | nil =>
    refine ⟨n, s, rfl, hfuel, by simpa [contentCodes] using h, hn, ?_⟩
    simp [contentCodes, advance_zero, State.snkAppend, State.readerAt, State.readerPos]
  | cons b rest ih =>
    obtain ⟨c, hc⟩ := Option.ne_none_iff_exists'.1 (hx b (by simp))
    have hrest : ∀ b ∈ rest, encAt enc b ≠ none := fun b' hb' => hx b' (by simp [hb'])
    have hc1 := (hlen b c hc).1
    have hn0 : n ≠ 0 := by
      rintro rfl
      rw [h] at hfuel
      have hf : c.length ≤ ((contentCodes enc s.eofSym (b :: rest)).flatten ++ tail).length := by
        by_cases hb : b = s.eofSym
        · subst hb; simp [contentCodes, hc]
        · simp [contentCodes, hb, hc]
      omega
    obtain ⟨n, rfl⟩ := Nat.exists_eq_succ_of_ne_zero hn0
    by_cases hb : b = s.eofSym
    · subst hb
      have h' : s.bitsAhead = c ++ (c ++ ((contentCodes enc s.eofSym rest).flatten ++ tail)) := by
        rw [h]
        simp [contentCodes, hc]
      obtain ⟨r, h1, h2, h3, h4⟩ := extract_code hv hn hdec hfree hlen hc h'
      obtain ⟨r2, e1, e2, e3, e4⟩ := extract_code (s := s.readerAt r) hv h3 hdec hfree hlen hc h2
      obtain ⟨m, t, g1, g2, g3, g4, g5⟩ :=
        ih (n := n) (s := ((s.readerAt r).readerAt r2).snkAppend [s.eofSym]) hv e3 hdec hlen hrest e2 (by
          show ((s.readerAt r).readerAt r2).bitsAhead.length ≤ n
          rw [e2]
          rw [h'] at hfuel
          simp only [List.length_append] at hfuel ⊢
          omega)
      refine ⟨m, t, (decodeLoop_escaped h1 rfl e1 rfl).trans g1, g2, g3, g4, ?_⟩
      have hr : r2.advance s.src (contentCodes enc s.eofSym rest).flatten.length =
          s.readerPos.advance s.src (contentCodes enc s.eofSym (s.eofSym :: rest)).flatten.length := by
        rw [e4]
        show ((r.advance s.src c.length).advance s.src _) = _
        rw [h4, advance_advance, advance_advance]
        simp [contentCodes, hc]
      rw [g5, ← hr]
      simp [State.snkAppend, State.readerAt, State.readerPos]
    · have h' : s.bitsAhead = c ++ ((contentCodes enc s.eofSym rest).flatten ++ tail) := by
        rw [h]
        simp [contentCodes, hb, hc]
      obtain ⟨r, h1, h2, h3, h4⟩ := extract_code hv hn hdec hfree hlen hc h'
      obtain ⟨m, t, g1, g2, g3, g4, g5⟩ := ih (n := n) (s := (s.readerAt r).snkAppend [b]) hv h3 hdec hlen hrest h2 (by
        show (s.readerAt r).bitsAhead.length ≤ n
        rw [h2]
        rw [h'] at hfuel
        simp only [List.length_append] at hfuel ⊢
        omega)
      refine ⟨m, t, (decodeLoop_symbol h1 hb).trans g1, g2, g3, g4, ?_⟩
      have hr : r.advance s.src (contentCodes enc s.eofSym rest).flatten.length =
          s.readerPos.advance s.src (contentCodes enc s.eofSym (b :: rest)).flatten.length := by
        rw [h4, advance_advance]
        simp [contentCodes, hb, hc]
      rw [g5, ← hr]
      simp [State.snkAppend, State.readerAt, State.readerPos]

/-- The loop on the bits of a payload and then others that do not begin with the sentinel's code: it returns behind one more Extract, the
peek, whatever that gives (44_transcoder.md R243). -/
theorem decodeLoop_payload {n : Nat} {s : State} {enc : EncTable} {content : List Byte} {ce tail : Bitstring}
    (hv : s.brValid = true) (hn : s.brNbits ≤ 8)
    (hdec : ∀ b c, decAt s.dec c = some b ↔ encAt enc b = some c) (hfree : EncPrefixFree enc)
    (hlen : ∀ b c, encAt enc b = some c → 1 ≤ c.length ∧ c.length ≤ s.brMaxlen)
    (he : encAt enc s.eofSym = some ce) (hx : ∀ b ∈ content, encAt enc b ≠ none) (htail : ¬ ce <+: tail)
    (h : s.bitsAhead = payloadBits enc s.eofSym content ++ tail) (hfuel : s.bitsAhead.length ≤ n) :
    ∃ t, decodeLoop n s = .ok t.extract.2 ∧ t.bitsAhead = tail ∧ t.brNbits ≤ 8 ∧
      t = (s.readerAt (s.readerPos.advance s.src (payloadBits enc s.eofSym content).length)).snkAppend content := by
  have hp : payloadBits enc s.eofSym content = (contentCodes enc s.eofSym content).flatten ++ ce := by
    rw [← payloadCodes_flatten]; simp [payloadCodes, he]
  obtain ⟨m, t, g1, g2, g3, g4, g5⟩ := decodeLoop_content (tail := ce ++ tail) hv hn hdec hfree hlen hx
    (by rw [h, hp, List.append_assoc]) hfuel
  have tv : t.brValid = true := by rw [g5]; exact hv
  have td : t.dec = s.dec := by rw [g5]; rfl
  have tm : t.brMaxlen = s.brMaxlen := by rw [g5]; rfl
  have te : t.eofSym = s.eofSym := by rw [g5]; rfl
  have ts : t.src = s.src := by rw [g5]; rfl
  obtain ⟨r, h1, h2, h3, h4⟩ := extract_code (enc := enc) tv g4 (by rw [td]; exact hdec) hfree (by rw [tm]; exact hlen) he g3
  have hm0 : m ≠ 0 := by
    rintro rfl
    have := (hlen _ _ he).1
    rw [g3] at g2
    simp at g2
    simp [g2] at this
  obtain ⟨m, rfl⟩ := Nat.exists_eq_succ_of_ne_zero hm0
  refine ⟨t.readerAt r, ?_, h2, h3, ?_⟩
  · rw [g1]
    unfold decodeLoop
    rw [h1]
    have heof : (t.readerAt r).eofSym = s.eofSym := te
    simp only [heof, ne_eq, not_true, if_false]
    obtain ⟨x, r2, hx2, -, -, -, hcase⟩ := extract_cases (s := t.readerAt r) tv h3
    rcases hcase with ⟨b2, d1, d2, -, d4, -⟩ | ⟨d1, -⟩ | ⟨d1, -⟩
    · rw [d1]
      simp only
      rw [if_pos]
      intro hb2
      have hc := (hdec b2 x).1 (by rw [← td]; exact d4)
      rw [show b2 = s.eofSym from hb2.trans te, he] at hc
      refine htail ⟨((t.readerAt r).readerAt r2).bitsAhead, ?_⟩
      rw [← h2, Option.some.inj hc]; exact hx2.symm
    · rw [d1]
    · rw [d1]
  · rw [h4, ts, hp, List.length_append, ← advance_advance, g5]
    rfl

/-- The loop on the codes of some content and then bits no code matches: CORRUPT_STREAM behind one more Extract
(44_transcoder.md R243). -/
theorem decodeLoop_fails {n : Nat} {s : State} {enc : EncTable} {content : List Byte} {tail : Bitstring}
    (hv : s.brValid = true) (hn : s.brNbits ≤ 8)
    (hdec : ∀ b c, decAt s.dec c = some b ↔ encAt enc b = some c) (hfree : EncPrefixFree enc)
    (hlen : ∀ b c, encAt enc b = some c → 1 ≤ c.length ∧ c.length ≤ s.brMaxlen)
    (hx : ∀ b ∈ content, encAt enc b ≠ none) (htail : ∀ b c, encAt enc b = some c → ¬ c <+: tail)
    (h : s.bitsAhead = (contentCodes enc s.eofSym content).flatten ++ tail) (hfuel : s.bitsAhead.length ≤ n) :
    ∃ t, decodeLoop n s = .raised (.corruptStream t.extract.2.brFail) t.extract.2 ∧ t.bitsAhead = tail ∧ t.brNbits ≤ 8 ∧
      t = (s.readerAt (s.readerPos.advance s.src (contentCodes enc s.eofSym content).flatten.length)).snkAppend content := by
  obtain ⟨m, t, g1, g2, g3, g4, g5⟩ := decodeLoop_content hv hn hdec hfree hlen hx h hfuel
  refine ⟨t, ?_, g3, g4, g5⟩
  rw [g1]
  have tv : t.brValid = true := by rw [g5]; exact hv
  have td : t.dec = s.dec := by rw [g5]; rfl
  have hnone : t.extract.1 = none := by
    obtain ⟨x, r, hx2, -, -, -, hcase⟩ := extract_cases tv g4
    rcases hcase with ⟨b, d1, -, -, d4, -⟩ | ⟨d1, -⟩ | ⟨d1, -⟩
    · exact absurd ⟨_, hx2.symm.trans g3⟩ (htail b x ((hdec b x).1 (by rw [← td]; exact d4)))
    · rw [d1]
    · rw [d1]
  cases m with
  | zero => rfl
  | succ m =>
    unfold decodeLoop
    split
    · next u hu => rw [hu]
    · next c b u hu => rw [hu] at hnone; cases hnone

end Sys2Proof.Machine
end

