-- ==== Sys2Proof/Laws/TreeBuilder.lean ====
section
/-! SUPPORT. The laws of the Tree Builder: what COUNT's loop counts, which symbol SELECT_EOF takes, and the codes of a tree
(40_tree_builder.md R140 to R147). -/

namespace Sys2Proof.Machine

/-! ### COUNT -/

/-- COUNT's loop on a source short enough: every byte is counted (R140), and no count wraps (R141). -/
theorem countLoop_spec {bytes : List Byte} {n : Nat} {freq : FreqTable} (hn : n + bytes.length < 2 ^ 32)
    (hf : ∀ b, (freqAt freq b).toNat ≤ n) :
    (countLoop bytes n freq).overflow = false ∧ (countLoop bytes n freq).taken = n + bytes.length ∧
      ∀ b, (freqAt (countLoop bytes n freq).freq b).toNat = (freqAt freq b).toNat + bytes.count b := by
  induction bytes generalizing n freq with
  | nil => simp [countLoop]
  | cons x rest ih =>
    simp only [List.length_cons] at hn
    have hx : (freqAt freq x + 1).toNat = (freqAt freq x).toNat + 1 := by
      have := hf x
      have one : (1 : Count).toNat = 1 := rfl
      rw [BitVec.toNat_add, one, Nat.mod_eq_of_lt (by omega)]
    have hf' : ∀ b, (freqAt (freqSet freq x (freqAt freq x + 1)) b).toNat ≤ n + 1 := by
      intro b
      rw [freqAt_freqSet]
      split
      · rw [hx]; have := hf x; omega
      · have := hf b; omega
    obtain ⟨h1, h2, h3⟩ := ih (n := n + 1) (by omega) hf'
    have e : countLoop (x :: rest) n freq = countLoop rest (n + 1) (freqSet freq x (freqAt freq x + 1)) := by
      rw [countLoop, if_neg (by omega)]
    refine ⟨by rw [e, h1], by rw [e, h2, List.length_cons]; omega, fun b => ?_⟩
    rw [e, h3, freqAt_freqSet, List.count_cons]
    by_cases hb : b = x
    · subst hb; simp only [hx, if_true, beq_self_eq_true]; omega
    · simp [hb, Ne.symm hb]

/-- COUNT's loop on a source too long: it stops at byte number 2^32, with the bytes before it counted (R141). -/
theorem countLoop_overflow {bytes : List Byte} {n : Nat} {freq : FreqTable} (hn : 2 ^ 32 ≤ n + bytes.length)
    (hlt : n ≤ 2 ^ 32 - 1) (hf : ∀ b, (freqAt freq b).toNat ≤ n) :
    (countLoop bytes n freq).overflow = true ∧ (countLoop bytes n freq).taken = 2 ^ 32 ∧
      ∀ b, (freqAt (countLoop bytes n freq).freq b).toNat =
        (freqAt freq b).toNat + (bytes.take (2 ^ 32 - 1 - n)).count b := by
  induction bytes generalizing n freq with
  | nil => simp at hn; omega
  | cons x rest ih =>
    simp only [List.length_cons] at hn
    by_cases h : n = 2 ^ 32 - 1
    · rw [countLoop, if_pos h]; subst h; simp
    have hx : (freqAt freq x + 1).toNat = (freqAt freq x).toNat + 1 := by
      have := hf x
      have one : (1 : Count).toNat = 1 := rfl
      rw [BitVec.toNat_add, one, Nat.mod_eq_of_lt (by omega)]
    have hf' : ∀ b, (freqAt (freqSet freq x (freqAt freq x + 1)) b).toNat ≤ n + 1 := by
      intro b
      rw [freqAt_freqSet]
      split
      · rw [hx]; have := hf x; omega
      · have := hf b; omega
    obtain ⟨h1, h2, h3⟩ := ih (n := n + 1) (by omega) (by omega) hf'
    have e : countLoop (x :: rest) n freq = countLoop rest (n + 1) (freqSet freq x (freqAt freq x + 1)) := by
      rw [countLoop, if_neg h]
    refine ⟨by rw [e, h1], by rw [e, h2], fun b => ?_⟩
    have ht : 2 ^ 32 - 1 - n = (2 ^ 32 - 1 - (n + 1)) + 1 := by omega
    rw [e, h3, freqAt_freqSet, ht, List.take_succ_cons, List.count_cons]
    by_cases hb : b = x
    · subst hb; simp only [hx, if_true, beq_self_eq_true]; omega
    · simp [hb, Ne.symm hb]

/-! ### Observed symbols and the sentinel -/

theorem mem_observed (freq : FreqTable) (b : Symbol) : b ∈ observed freq ↔ freqAt freq b ≠ 0 := by
  unfold observed
  rw [mem_symbolsWhere]
  simp [freqAt]

theorem observed_eq_nil (freq : FreqTable) : observed freq = [] ↔ ∀ b, freqAt freq b = 0 := by
  rw [List.eq_nil_iff_forall_not_mem]
  exact forall_congr' fun b => by rw [mem_observed, not_not]

theorem observed_rising (freq : FreqTable) : (observed freq).Pairwise (· < ·) := symbolsWhere_rising _ _

theorem observed_nodup (freq : FreqTable) : (observed freq).Nodup := symbolsWhere_nodup _ _

theorem observed_length_le (freq : FreqTable) : (observed freq).length ≤ 256 := symbolsWhere_length_le _ _

theorem leastFrequent_eq_none {freq : FreqTable} {l : List Symbol} : leastFrequent freq l = none ↔ l = [] := by
  cases l with
  | nil => simp [leastFrequent]
  | cons b rest =>
    simp only [leastFrequent, reduceCtorEq, iff_false]
    split
    · simp
    · split <;> simp

/-- The sentinel: a symbol of the list, of least count, the lowest of those on an ascending list (R142). -/
theorem leastFrequent_spec {freq : FreqTable} {l : List Symbol} (hl : l.Pairwise (· < ·)) {e : Symbol}
    (h : leastFrequent freq l = some e) :
    e ∈ l ∧ ∀ b ∈ l, freqAt freq e ≤ freqAt freq b ∧ (freqAt freq b = freqAt freq e → e ≤ b) := by
  induction l generalizing e with
  | nil => simp [leastFrequent] at h
  | cons x rest ih =>
    obtain ⟨hx, hr⟩ := List.pairwise_cons.1 hl
    simp only [leastFrequent] at h
    split at h
    · next hn =>
      obtain rfl : x = e := by simpa using h
      have : rest = [] := leastFrequent_eq_none.1 hn
      subst this
      simp
    · next c hc =>
      obtain ⟨h1, h2⟩ := ih hr hc
      split at h
      · next hlt =>
        obtain rfl : c = e := by simpa using h
        refine ⟨List.mem_cons_of_mem _ h1, fun b hb => ?_⟩
        rcases List.mem_cons.1 hb with rfl | hb
        · exact ⟨BitVec.le_of_lt hlt, fun e' => absurd hlt (by rw [e']; exact BitVec.lt_irrefl _)⟩
        · exact h2 b hb
      · next hlt =>
        obtain rfl : x = e := by simpa using h
        refine ⟨List.mem_cons_self, fun b hb => ?_⟩
        rcases List.mem_cons.1 hb with rfl | hb
        · exact ⟨BitVec.le_refl _, fun _ => BitVec.le_refl _⟩
        · exact ⟨BitVec.le_trans (BitVec.not_lt.1 hlt) (h2 b hb).1, fun _ => BitVec.le_of_lt (hx b hb)⟩

/-! ### The priority queue -/

/-- RemoveMin takes one item out and keeps the others. -/
theorem removeMin_perm (x : QItem) (rest : List QItem) :
    ((removeMin x rest).1 :: (removeMin x rest).2).Perm (x :: rest) := by
  induction rest generalizing x with
  | nil => exact .refl _
  | cons y rest ih =>
    simp only [removeMin]
    split
    · exact (List.Perm.swap _ _ _).trans ((ih y).cons x)
    · exact .refl _

theorem removeMin_length (x : QItem) (rest : List QItem) : (removeMin x rest).2.length = rest.length := by
  have := (removeMin_perm x rest).length_eq
  simpa using this

/-- The order of RemoveMin on (f, q) pairs (R144). -/
theorem QItem.before_iff (a b : QItem) : a.before b = true ↔ a.f < b.f ∨ (a.f = b.f ∧ a.q < b.q) := by
  simp [QItem.before]

/-- No item of the queue comes before the one RemoveMin takes (R144). -/
theorem removeMin_least (x : QItem) (rest : List QItem) :
    ∀ y ∈ x :: rest, y.before (removeMin x rest).1 = false := by
  induction rest generalizing x with
  | nil =>
    intro y hy
    obtain rfl : y = x := by simpa using hy
    simp [removeMin, QItem.before]
  | cons z rest ih =>
    intro y hy
    simp only [removeMin]
    have hz := ih z
    rw [Bool.eq_false_iff, Ne, QItem.before_iff]
    split
    · next hb =>
      rw [QItem.before_iff] at hb
      rcases List.mem_cons.1 hy with rfl | hy
      · dsimp only; omega
      · have := hz y hy
        rwa [Bool.eq_false_iff, Ne, QItem.before_iff] at this
    · next hb =>
      rw [QItem.before_iff] at hb
      rcases List.mem_cons.1 hy with rfl | hy
      · dsimp only; omega
      · have := hz y hy
        rw [Bool.eq_false_iff, Ne, QItem.before_iff] at this
        simp only
        omega

/-! ### Trees and their codes -/

/-- The leaves of a tree, one-branch first. -/
def Tree.leaves : Tree → List Symbol
  | .leaf b => [b]
  | .node one zero => one.leaves ++ zero.leaves

theorem Tree.codes_fst (t : Tree) : t.codes.map Prod.fst = t.leaves := by
  induction t with
  | leaf b => rfl
  | node one zero h1 h0 => simp [Tree.codes, Tree.leaves, ← h1, ← h0, Function.comp_def]

theorem Tree.leaves_pos (t : Tree) : 0 < t.leaves.length := by
  induction t with
  | leaf b => simp [Tree.leaves]
  | node one zero h1 h0 => simp [Tree.leaves]; omega

/-- Codes are prefix-free: paths to distinct leaves (R147 a). -/
theorem Tree.codes_prefix {t : Tree} {p q : Symbol × Bitstring} (hp : p ∈ t.codes) (hq : q ∈ t.codes)
    (h : p.2 <+: q.2) : p = q := by
  induction t generalizing p q with
  | leaf b => simp [Tree.codes] at hp hq; simp [hp, hq]
  | node one zero h1 h0 =>
    simp only [Tree.codes, List.mem_append, List.mem_map] at hp hq
    rcases hp with ⟨p', hp, rfl⟩ | ⟨p', hp, rfl⟩ <;> rcases hq with ⟨q', hq, rfl⟩ | ⟨q', hq, rfl⟩ <;>
      simp [List.cons_prefix_cons] at h
    · rw [h1 hp hq h]
    · rw [h0 hp hq h]

/-- No code is longer than the number of the other leaves (R147 b). -/
theorem Tree.codes_length {t : Tree} {p : Symbol × Bitstring} (hp : p ∈ t.codes) :
    p.2.length + 1 ≤ t.leaves.length := by
  induction t generalizing p with
  | leaf b => simp [Tree.codes] at hp; simp [hp, Tree.leaves]
  | node one zero h1 h0 =>
    have l1 := one.leaves_pos
    have l0 := zero.leaves_pos
    simp only [Tree.codes, List.mem_append, List.mem_map] at hp
    rcases hp with ⟨p', hp, rfl⟩ | ⟨p', hp, rfl⟩
    · have := h1 hp; simp [Tree.leaves]; omega
    · have := h0 hp; simp [Tree.leaves]; omega

/-- A tree's code is complete (R147 c). -/
theorem Tree.codes_kraft (t : Tree) : (t.codes.map fun p => (1 / 2 : ℚ) ^ p.2.length).sum = 1 := by
  induction t with
  | leaf b => simp [Tree.codes]
  | node one zero h1 h0 =>
    have half : ∀ (l : List (Symbol × Bitstring)),
        (l.map fun p => (1 / 2 : ℚ) ^ (p.2.length + 1)).sum = (1 / 2) * (l.map fun p => (1 / 2 : ℚ) ^ p.2.length).sum := by
      intro l
      rw [← List.sum_map_mul_left]
      simp only [pow_succ, mul_comm]
    simp only [Tree.codes, List.map_append, List.map_map, Function.comp_def, List.length_cons, List.sum_append, half, h1, h0]
    norm_num

/-! ### Merging -/

/-- The merging loop keeps the leaves (R145). -/
theorem mergeLoop_leaves {n next : Nat} {x : QItem} {rest : List QItem} (h : n = rest.length) :
    (mergeLoop n next x rest).leaves.Perm ((x :: rest).flatMap fun i => i.node.leaves) := by
  induction n generalizing next x rest with
  | zero =>
    obtain rfl : rest = [] := List.length_eq_zero_iff.1 h.symm
    simp [mergeLoop]
  | succ n ih =>
    have pa := removeMin_perm x rest
    have la := removeMin_length x rest
    simp only [mergeLoop]
    split
    · next h0 => rw [h0] at la; simp at la; omega
    · next y ys h0 =>
      rw [h0] at pa la
      have pb := removeMin_perm y ys
      have lb := removeMin_length y ys
      refine (ih (by simp at la; omega)).trans ?_
      have := (pa.trans (.refl _)).flatMap_right fun i => i.node.leaves
      refine List.Perm.trans ?_ this
      have := pb.flatMap_right fun i => i.node.leaves
      simp only [List.flatMap_cons, Tree.leaves, List.append_assoc] at this ⊢
      exact this.append_left _

/-- What one node of the queue has, and every node above it has, the tree has. -/
theorem mergeLoop_keeps {P : Tree → Prop} (hP : ∀ a b, P a ∨ P b → P (.node a b)) {n next : Nat} {x : QItem}
    {rest : List QItem} (h : n = rest.length) (hex : ∃ i ∈ x :: rest, P i.node) : P (mergeLoop n next x rest) := by
  induction n generalizing next x rest with
  | zero =>
    obtain rfl : rest = [] := List.length_eq_zero_iff.1 h.symm
    simpa [mergeLoop] using hex
  | succ n ih =>
    have pa := removeMin_perm x rest
    have la := removeMin_length x rest
    simp only [mergeLoop]
    split
    · next h0 => rw [h0] at la; simp at la; omega
    · next y ys h0 =>
      rw [h0] at pa la
      have pb := removeMin_perm y ys
      have lb := removeMin_length y ys
      refine ih (by simp at la; omega) ?_
      obtain ⟨i, hi, hPi⟩ := hex
      rcases List.mem_cons.1 (pa.mem_iff.2 hi) with rfl | hi
      · exact ⟨_, List.mem_cons_self, hP _ _ (.inl hPi)⟩
      · rcases List.mem_cons.1 (pb.mem_iff.2 hi) with rfl | hi
        · exact ⟨_, List.mem_cons_self, hP _ _ (.inr hPi)⟩
        · exact ⟨i, List.mem_cons_of_mem _ hi, hPi⟩

theorem seedQueue_leaves (freq : FreqTable) (l : List Symbol) (q : Nat) :
    ((seedQueue freq l q).flatMap fun i => i.node.leaves) = l := by
  induction l generalizing q with
  | nil => rfl
  | cons b rest ih => simp [seedQueue, Tree.leaves, ih]

theorem seedQueue_length (freq : FreqTable) (l : List Symbol) (q : Nat) : (seedQueue freq l q).length = l.length := by
  induction l generalizing q with
  | nil => rfl
  | cons b rest ih => simp [seedQueue, ih]

/-- An item of the seeded queue: the leaf of a symbol, numbered in the list's order. -/
theorem mem_seedQueue {freq : FreqTable} {l : List Symbol} {q : Nat} {i : QItem} (h : i ∈ seedQueue freq l q) :
    ∃ k, ∃ b, l[k]? = some b ∧ i = ⟨(freqAt freq b).toNat, q + k, .leaf b⟩ := by
  induction l generalizing q with
  | nil => simp [seedQueue] at h
  | cons b rest ih =>
    rcases List.mem_cons.1 h with rfl | h
    · exact ⟨0, b, by simp, by simp⟩
    · obtain ⟨k, c, h1, h2⟩ := ih h
      exact ⟨k + 1, c, by simpa using h1, by rw [h2]; congr 1; omega⟩

/-- Each symbol of the list is an item of the seeded queue. -/
theorem seedQueue_mem (freq : FreqTable) {l : List Symbol} (q : Nat) {k : Nat} {c : Symbol} (h : l[k]? = some c) :
    (⟨(freqAt freq c).toNat, q + k, .leaf c⟩ : QItem) ∈ seedQueue freq l q := by
  induction l generalizing q k with
  | nil => simp at h
  | cons x l ih =>
    cases k with
    | zero => simp at h; simp [seedQueue, h]
    | succ k =>
      have := ih (q + 1) (k := k) (by simpa using h)
      rw [show q + 1 + k = q + (k + 1) by omega] at this
      exact List.mem_cons_of_mem _ this

/-- The seeded queue is numbered in order (R144). -/
theorem seedQueue_numbers (freq : FreqTable) (l : List Symbol) (q : Nat) :
    (seedQueue freq l q).map QItem.q = List.range' q l.length := by
  induction l generalizing q with
  | nil => rfl
  | cons x l ih => simp [seedQueue, ih, List.range'_succ]

/-- The tree's leaves are the observed symbols (R145). -/
theorem buildTree_leaves (freq : FreqTable) (b : Symbol) (rest : List Symbol) :
    (buildTree freq b rest).leaves.Perm (b :: rest) := by
  have := mergeLoop_leaves (next := rest.length + 1) (x := ⟨(freqAt freq b).toNat, 0, .leaf b⟩)
    (seedQueue_length freq rest 1).symm
  simpa [buildTree, Tree.leaves, seedQueue_leaves] using this

/-- The symbol RemoveMin takes first from the seeded queue is the one SELECT_EOF chooses (R147 d). -/
theorem removeMin_seed {freq : FreqTable} {b : Symbol} {rest : List Symbol} (hl : (b :: rest).Pairwise (· < ·))
    {e : Symbol} (he : leastFrequent freq (b :: rest) = some e) :
    (removeMin ⟨(freqAt freq b).toNat, 0, .leaf b⟩ (seedQueue freq rest 1)).1.node = .leaf e := by
  have hseed : ∀ i, i ∈ (⟨(freqAt freq b).toNat, 0, .leaf b⟩ : QItem) :: seedQueue freq rest 1 →
      ∃ k, ∃ c, (b :: rest)[k]? = some c ∧ i = ⟨(freqAt freq c).toNat, k, .leaf c⟩ := by
    intro i hi
    have hi : i ∈ seedQueue freq (b :: rest) 0 := by simpa [seedQueue] using hi
    obtain ⟨k, c, h1, h2⟩ := mem_seedQueue hi
    exact ⟨k, c, h1, by rw [h2]; congr 1; omega⟩
  obtain ⟨hm, hleast⟩ := leastFrequent_spec hl he
  obtain ⟨ke, hke, hgete⟩ := List.mem_iff_getElem.1 hm
  have hein : (⟨(freqAt freq e).toNat, ke, .leaf e⟩ : QItem) ∈
      (⟨(freqAt freq b).toNat, 0, .leaf b⟩ : QItem) :: seedQueue freq rest 1 := by
    have h := seedQueue_mem freq (l := b :: rest) 0 (k := ke) (c := e) (by rw [List.getElem?_eq_getElem hke, hgete])
    simpa [seedQueue] using h
  have hmin := removeMin_least ⟨(freqAt freq b).toNat, 0, .leaf b⟩ (seedQueue freq rest 1)
  have hin := (removeMin_perm ⟨(freqAt freq b).toNat, 0, .leaf b⟩ (seedQueue freq rest 1)).mem_iff.1 List.mem_cons_self
  obtain ⟨k, c, hk, hc⟩ := hseed _ hin
  have h := hmin _ hein
  rw [Bool.eq_false_iff, Ne, QItem.before_iff, hc] at h
  simp only at h
  rw [hc]
  simp only [Tree.leaf.injEq]
  have hcm : c ∈ b :: rest := List.mem_of_getElem? hk
  obtain ⟨h1, h2⟩ := hleast c hcm
  rw [BitVec.le_def] at h1
  have hfe : (freqAt freq e).toNat = (freqAt freq c).toNat := by omega
  have hec : e ≤ c := h2 (BitVec.eq_of_toNat_eq hfe.symm)
  have hkk : k ≤ ke := by omega
  by_contra hne
  have hlt : k < ke := by
    rcases Nat.lt_or_ge k ke with h | h
    · exact h
    · exfalso
      have : k = ke := by omega
      subst this
      rw [List.getElem?_eq_getElem hke, hgete] at hk
      exact hne (Option.some.inj hk).symm
  have hk' : k < (b :: rest).length := by omega
  have := List.pairwise_iff_getElem.1 hl k ke hk' hke hlt
  rw [List.getElem?_eq_getElem hk'] at hk
  rw [Option.some.inj hk, hgete] at this
  exact absurd hec (BitVec.not_le.2 this)

/-- The sentinel's code ends in 1 (R147 d). -/
theorem buildTree_sentinel {freq : FreqTable} {b c : Symbol} {rest : List Symbol}
    (hl : (b :: c :: rest).Pairwise (· < ·)) {e : Symbol} (he : leastFrequent freq (b :: c :: rest) = some e) :
    ∃ x : Bitstring, (e, x ++ [true]) ∈ (buildTree freq b (c :: rest)).codes := by
  have ha := removeMin_seed hl he
  have la := removeMin_length ⟨(freqAt freq b).toNat, 0, .leaf b⟩ (seedQueue freq (c :: rest) 1)
  unfold buildTree
  simp only [List.length_cons, mergeLoop]
  split
  · next h0 => rw [h0, seedQueue_length] at la; simp at la
  · next y ys h0 =>
    have lb := removeMin_length y ys
    refine mergeLoop_keeps (P := fun t => ∃ x : Bitstring, (e, x ++ [true]) ∈ t.codes) ?_ ?_ ?_
    · rintro t u (⟨x, h⟩ | ⟨x, h⟩)
      · exact ⟨true :: x, List.mem_append_left _ (List.mem_map.2 ⟨_, h, rfl⟩)⟩
      · exact ⟨false :: x, List.mem_append_right _ (List.mem_map.2 ⟨_, h, rfl⟩)⟩
    · rw [h0, seedQueue_length] at la; simp at la; omega
    · refine ⟨_, List.mem_cons_self, [], ?_⟩
      simp only [ha]
      exact List.mem_append_left _ (by simp [Tree.codes])

/-! ### The merges in order -/

/-- What the merging loop does on a queue (40_tree_builder.md R144, R145), with the nodes named by their insertion numbers: `f`, `code`
and `order` as in MergeHistory. -/
def MergesTo (n next : Nat) (queue : List QItem) (t : Tree) (f : Nat → Nat) (code : Nat → Bitstring) (order : Nat → Nat) : Prop :=
  (∀ i ∈ queue, f i.q = i.f ∧ ∀ p ∈ i.node.codes, (p.1, code i.q ++ p.2) ∈ t.codes) ∧
  (∀ k < n, f (next + k) = f (order (2 * k)) + f (order (2 * k + 1)) ∧
    code (order (2 * k)) = code (next + k) ++ [true] ∧ code (order (2 * k + 1)) = code (next + k) ++ [false]) ∧
  (∀ j < 2 * n, (∃ i ∈ queue, order j = i.q) ∨ (next ≤ order j ∧ order j < next + j / 2)) ∧
  (∀ j, j + 1 < 2 * n → LeavesBefore (f (order j)) (f (order (j + 1))) (order j) (order (j + 1))) ∧
  (∀ g p, p < next → (∀ i ∈ queue, LeavesBefore g i.f p i.q) → ∀ j < 2 * n, LeavesBefore g (f (order j)) p (order j)) ∧
  (0 < n → code (next + n - 1) = []) ∧ (n = 0 → ∀ i ∈ queue, code i.q = [])

/-- The merging loop does that, for a queue whose items are numbered differently and below `next`. -/
theorem mergeLoop_mergesTo {n next : Nat} {x : QItem} {rest : List QItem} (h : n = rest.length)
    (hq : ((x :: rest).map QItem.q).Nodup) (hnext : ∀ i ∈ x :: rest, i.q < next) :
    ∃ f code order, MergesTo n next (x :: rest) (mergeLoop n next x rest) f code order := by
  induction n generalizing next x rest with
  | zero =>
    obtain rfl : rest = [] := List.length_eq_zero_iff.1 h.symm
    refine ⟨fun _ => x.f, fun _ => [], id, ?_, by omega, by omega, by omega, by omega, by omega, fun _ _ _ => rfl⟩
    intro i hi
    obtain rfl : i = x := by simpa using hi
    exact ⟨rfl, fun p hp => hp⟩
  | succ n ih =>
    have pa := removeMin_perm x rest
    have la := removeMin_length x rest
    have lst := removeMin_least x rest
    simp only [mergeLoop]
    generalize (removeMin x rest).1 = a at pa lst ⊢
    split
    · next h0 => rw [h0] at la; simp at la; omega
    next y ys h0 =>
    rw [h0] at pa la
    have pb := removeMin_perm y ys
    have lb := removeMin_length y ys
    have lst2 := removeMin_least y ys
    generalize (removeMin y ys).1 = b at pb lst2 ⊢
    generalize (removeMin y ys).2 = zs at pb lb ⊢
    have pq : (a :: b :: zs).Perm (x :: rest) := (pb.cons a).trans pa
    have hq' : ((a :: b :: zs).map QItem.q).Nodup := (pq.map _).nodup_iff.2 hq
    have hn' : ∀ i ∈ a :: b :: zs, i.q < next := fun i hi => hnext i (pq.mem_iff.1 hi)
    simp only [List.map_cons, List.nodup_cons, List.mem_cons, List.mem_map, not_or, not_exists, not_and] at hq'
    obtain ⟨⟨hab, haz⟩, hbz, hz⟩ := hq'
    have hane : a.q < next := hn' a (by simp)
    have hbne : b.q < next := hn' b (by simp)
    have hzn : ∀ i ∈ zs, i.q < next := fun i hi => hn' i (by simp [hi])
    have hle : ∀ i ∈ x :: rest, i.q ≠ a.q → LeavesBefore a.f i.f a.q i.q := by
      intro i hi hne
      have := lst i hi
      rw [Bool.eq_false_iff, Ne, QItem.before_iff] at this
      unfold LeavesBefore; omega
    have hab' : LeavesBefore a.f b.f a.q b.q := hle b (pq.mem_iff.1 (by simp)) (Ne.symm hab)
    have hbz' : ∀ i ∈ zs, LeavesBefore b.f i.f b.q i.q := by
      intro i hi
      have := lst2 i (pb.mem_iff.1 (List.mem_cons_of_mem _ hi))
      rw [Bool.eq_false_iff, Ne, QItem.before_iff] at this
      have := hbz i hi
      unfold LeavesBefore; omega
    obtain ⟨f, code, order, m1, m2, m3, m4, m5, m6, m7⟩ := ih (next := next + 1)
      (x := ⟨a.f + b.f, next, .node a.node b.node⟩) (rest := zs) (by simp at la; omega)
      (by
        simp only [List.map_cons, List.nodup_cons, List.mem_map, not_exists, not_and]
        exact ⟨fun i hi => by have := hzn i hi; omega, hz⟩)
      (by
        intro i hi
        rcases List.mem_cons.1 hi with rfl | hi
        · exact Nat.lt_succ_self _
        · have := hzn i hi; omega)
    -- the codes and frequencies of the two removed nodes
    let f' : Nat → Nat := fun i => if i = a.q then a.f else if i = b.q then b.f else f i
    let code' : Nat → Bitstring := fun i =>
      if i = a.q then code next ++ [true] else if i = b.q then code next ++ [false] else code i
    let order' : Nat → Nat := fun j => if j = 0 then a.q else if j = 1 then b.q else order (j - 2)
    have fa : f' a.q = a.f := if_pos rfl
    have fb : f' b.q = b.f := by simp [f', Ne.symm hab]
    have ca : code' a.q = code next ++ [true] := if_pos rfl
    have cb : code' b.q = code next ++ [false] := by simp [code', Ne.symm hab]
    have fo : ∀ i, i ≠ a.q → i ≠ b.q → f' i = f i := fun i h1 h2 => by simp only [f']; rw [if_neg h1, if_neg h2]
    have co : ∀ i, i ≠ a.q → i ≠ b.q → code' i = code i := fun i h1 h2 => by simp only [code']; rw [if_neg h1, if_neg h2]
    have o0 : order' 0 = a.q := rfl
    have o1 : order' 1 = b.q := rfl
    have o2 : ∀ j, order' (j + 2) = order j := fun j => rfl
    have fn : f next = a.f + b.f := (m1 _ List.mem_cons_self).1
    have hord : ∀ j < 2 * n, order j ≠ a.q ∧ order j ≠ b.q ∧
        ((∃ i ∈ zs, order j = i.q) ∨ (next ≤ order j ∧ order j < next + 1 + j / 2)) := by
      intro j hj
      rcases m3 j hj with ⟨i, hi, he⟩ | ⟨h1, h2⟩
      · rcases List.mem_cons.1 hi with rfl | hi
        · simp only at he
          exact ⟨by omega, by omega, .inr ⟨by omega, by omega⟩⟩
        · exact ⟨by rw [he]; exact haz i hi, by rw [he]; exact hbz i hi, .inl ⟨i, hi, he⟩⟩
      · exact ⟨by omega, by omega, .inr ⟨by omega, h2⟩⟩
    have hbafter : ∀ j < 2 * n, LeavesBefore b.f (f (order j)) b.q (order j) := by
      refine m5 b.f b.q (by omega) fun i hi => ?_
      rcases List.mem_cons.1 hi with rfl | hi
      · unfold LeavesBefore; dsimp only; omega
      · exact hbz' i hi
    refine ⟨f', code', order', ?_, ?_, ?_, ?_, ?_, ?_, by omega⟩
    · intro i hi
      have hroot := (m1 _ List.mem_cons_self).2
      rcases List.mem_cons.1 (pq.mem_iff.2 hi) with rfl | hi
      · refine ⟨fa, fun p hp => ?_⟩
        have := hroot (p.1, true :: p.2) (List.mem_append_left _ (List.mem_map.2 ⟨p, hp, rfl⟩))
        rw [ca]; simpa using this
      rcases List.mem_cons.1 hi with rfl | hi
      · refine ⟨fb, fun p hp => ?_⟩
        have := hroot (p.1, false :: p.2) (List.mem_append_right _ (List.mem_map.2 ⟨p, hp, rfl⟩))
        rw [cb]; simpa using this
      · rw [fo _ (haz i hi) (hbz i hi), co _ (haz i hi) (hbz i hi)]
        exact m1 i (List.mem_cons_of_mem _ hi)
    · intro k hk
      rw [fo (next + k) (by omega) (by omega), co (next + k) (by omega) (by omega)]
      cases k with
      | zero =>
        show f next = f' a.q + f' b.q ∧ code' a.q = _ ∧ code' b.q = _
        rw [fa, fb, ca, cb]
        exact ⟨fn, rfl, rfl⟩
      | succ k =>
        obtain ⟨h1, h2, h3⟩ := m2 k (by omega)
        rw [show 2 * (k + 1) = 2 * k + 2 by omega, o2, show 2 * k + 2 + 1 = 2 * k + 1 + 2 by omega, o2,
          show next + (k + 1) = next + 1 + k by omega]
        obtain ⟨p1, p2, -⟩ := hord (2 * k) (by omega)
        obtain ⟨q1, q2, -⟩ := hord (2 * k + 1) (by omega)
        rw [fo _ p1 p2, fo _ q1 q2, co _ p1 p2, co _ q1 q2]
        exact ⟨h1, h2, h3⟩
    · intro j hj
      match j with
      | 0 => exact .inl ⟨a, pq.mem_iff.1 (by simp), rfl⟩
      | 1 => exact .inl ⟨b, pq.mem_iff.1 (by simp), rfl⟩
      | j + 2 =>
        rw [o2]
        rcases (hord j (by omega)).2.2 with ⟨i, hi, he⟩ | ⟨h1, h2⟩
        · exact .inl ⟨i, pq.mem_iff.1 (by simp [hi]), he⟩
        · exact .inr ⟨h1, by omega⟩
    · intro j hj
      match j with
      | 0 => show LeavesBefore (f' a.q) (f' b.q) a.q b.q; rw [fa, fb]; exact hab'
      | 1 =>
        obtain ⟨p1, p2, -⟩ := hord 0 (by omega)
        show LeavesBefore (f' b.q) (f' (order 0)) b.q (order 0)
        rw [fb, fo _ p1 p2]
        exact hbafter 0 (by omega)
      | j + 2 =>
        obtain ⟨p1, p2, -⟩ := hord j (by omega)
        obtain ⟨q1, q2, -⟩ := hord (j + 1) (by omega)
        rw [o2, show j + 2 + 1 = j + 1 + 2 by omega, o2, fo _ p1 p2, fo _ q1 q2]
        exact m4 j (by omega)
    · intro g p hp hg j hj
      have ga := hg a (pq.mem_iff.1 (by simp))
      have gb := hg b (pq.mem_iff.1 (by simp))
      match j with
      | 0 => show LeavesBefore g (f' a.q) p a.q; rw [fa]; exact ga
      | 1 => show LeavesBefore g (f' b.q) p b.q; rw [fb]; exact gb
      | j + 2 =>
        obtain ⟨p1, p2, -⟩ := hord j (by omega)
        rw [o2, fo _ p1 p2]
        refine m5 g p (by omega) (fun i hi => ?_) j (by omega)
        rcases List.mem_cons.1 hi with rfl | hi
        · unfold LeavesBefore at ga ⊢; dsimp only; omega
        · exact hg i (pq.mem_iff.1 (by simp [hi]))
    · intro _
      rw [show next + (n + 1) - 1 = next + n by omega, co _ (by omega) (by omega)]
      rcases Nat.eq_zero_or_pos n with hn | hn
      · subst hn; exact m7 rfl _ List.mem_cons_self
      · rw [show next + n = next + 1 + n - 1 by omega]; exact m6 hn

/-- The list L of R143. -/
theorem observed_eq_counted (freq : FreqTable) : observed freq = countedSymbols freq := by
  have h2 : (countedSymbols freq).Pairwise (· < ·) := allSymbols_rising.sublist List.filter_sublist
  have hnd : ∀ l : List Symbol, l.Pairwise (· < ·) → l.Nodup := fun l h => h.imp fun h => BitVec.ne_of_lt h
  refine List.Perm.eq_of_pairwise (fun a b _ _ h h' => absurd (BitVec.lt_trans h h') (BitVec.lt_irrefl a))
    (observed_rising freq) h2 ?_
  rw [List.perm_ext_iff_of_nodup (hnd _ (observed_rising freq)) (hnd _ h2)]
  intro b
  rw [mem_observed]
  simp [countedSymbols, mem_allSymbols]

/-- The table of the tree is merged in the order of the queue (40_tree_builder.md R144 to R146). -/
theorem buildTree_mergedInOrder {freq : FreqTable} {b c : Symbol} {rest : List Symbol} (h : observed freq = b :: c :: rest)
    {enc : EncTable} (henc : ∀ x code, (x, code) ∈ (buildTree freq b (c :: rest)).codes → encAt enc x = some code) :
    MergedInOrder freq enc := by
  have hL : countedSymbols freq = b :: c :: rest := by rw [← observed_eq_counted, h]
  have hseed : (⟨(freqAt freq b).toNat, 0, .leaf b⟩ : QItem) :: seedQueue freq (c :: rest) 1 = seedQueue freq (b :: c :: rest) 0 := rfl
  have hmem : ∀ i s, (b :: c :: rest)[i]? = some s →
      (⟨(freqAt freq s).toNat, i, .leaf s⟩ : QItem) ∈ seedQueue freq (b :: c :: rest) 0 := by
    intro i s hs
    simpa using seedQueue_mem freq 0 hs
  have hlt : ∀ i ∈ seedQueue freq (b :: c :: rest) 0, i.q < rest.length + 2 := by
    intro i hi
    have := List.mem_map_of_mem (f := QItem.q) hi
    rw [seedQueue_numbers] at this
    simp at this; omega
  obtain ⟨f, code, order, m1, m2, m3, m4, -, m6, -⟩ := mergeLoop_mergesTo (n := (c :: rest).length)
    (next := (c :: rest).length + 1) (x := ⟨(freqAt freq b).toNat, 0, .leaf b⟩) (rest := seedQueue freq (c :: rest) 1)
    (seedQueue_length _ _ _).symm (by rw [hseed, seedQueue_numbers]; exact List.nodup_range') (by rw [hseed]; exact hlt)
  rw [hseed] at m1 m3
  have hN : (countedSymbols freq).length = (c :: rest).length + 1 := by rw [hL]; rfl
  have made : ∀ j < 2 * (c :: rest).length, order j < (c :: rest).length + 1 + j / 2 := by
    intro j hj
    rcases m3 j hj with ⟨i, hi, he⟩ | ⟨-, h2⟩
    · have := hlt i hi
      simp only [List.length_cons]; omega
    · exact h2
  refine ⟨f, code, order, ?_, ?_, ?_, ?_, ?_, ?_, ?_⟩
  · intro i s hi
    rw [hL] at hi
    obtain ⟨h1, h2⟩ := m1 _ (hmem i s hi)
    refine ⟨h1, henc s (code i) ?_⟩
    have := h2 (s, []) (by simp [Tree.codes])
    rwa [List.append_nil] at this
  all_goals rw [hN]
  · intro k hk
    have h1 := made (2 * k) (by omega)
    have h2 := made (2 * k + 1) (by omega)
    constructor <;> omega
  · intro k hk; exact (m2 k (by omega)).1
  · intro k hk; exact (m2 k (by omega)).2.1
  · intro k hk; exact (m2 k (by omega)).2.2
  · have := m6 (by simp)
    rw [show (c :: rest).length + 1 + (c :: rest).length - 1 = 2 * ((c :: rest).length + 1) - 2 by omega] at this
    exact this
  · intro j hj; exact m4 j (by omega)

/-- Of the removed nodes a later one comes later in the queue's order. -/
theorem MergeHistory.rising_lt {freq : FreqTable} {enc : EncTable} {f : Nat → Nat} {code : Nat → Bitstring} {order : Nat → Nat}
    (h : MergeHistory freq enc f code order) {i j : Nat} (hij : i < j) (hj : j < 2 * (countedSymbols freq).length - 2) :
    LeavesBefore (f (order i)) (f (order j)) (order i) (order j) := by
  induction j, hij using Nat.le_induction with
  | base => exact h.rising i hj
  | succ j _ ih =>
    have h1 := ih (by omega)
    have h2 := h.rising j hj
    unfold LeavesBefore at *
    omega

/-- Every node but the root is removed. -/
theorem MergeHistory.removed {freq : FreqTable} {enc : EncTable} {f : Nat → Nat} {code : Nat → Bitstring} {order : Nat → Nat}
    (h : MergeHistory freq enc f code order) {i : Nat} (hi : i < 2 * (countedSymbols freq).length - 2) :
    ∃ j < 2 * (countedSymbols freq).length - 2, order j = i := by
  have hlt : ∀ j < 2 * (countedSymbols freq).length - 2, order j < 2 * (countedSymbols freq).length - 2 := by
    intro j hj
    obtain ⟨h1, h2⟩ := h.made (j / 2) (by omega)
    rcases Nat.even_or_odd' j with ⟨k, rfl | rfl⟩
    · rw [show 2 * k / 2 = k by omega] at h1; omega
    · rw [show (2 * k + 1) / 2 = k by omega] at h2; omega
  let g : Fin (2 * (countedSymbols freq).length - 2) → Fin (2 * (countedSymbols freq).length - 2) := fun j => ⟨order j, hlt j j.2⟩
  have hg : Function.Injective g := by
    intro a b hab
    have hab : order a = order b := congrArg Fin.val hab
    by_contra hne
    have key : ∀ a b : Fin (2 * (countedSymbols freq).length - 2), a.val < b.val → order a = order b → False := by
      intro a b hlt he
      have := h.rising_lt hlt b.2
      rw [he] at this
      unfold LeavesBefore at this
      omega
    rcases Nat.lt_or_gt_of_ne (fun e => hne (Fin.ext e)) with hl | hl
    · exact key a b hl hab
    · exact key b a hl hab.symm
  obtain ⟨j, hj⟩ := Finite.surjective_of_injective hg ⟨i, hi⟩
  exact ⟨j, j.2, congrArg Fin.val hj⟩

/-- Nodes removed earlier lie no higher in the tree. -/
theorem MergeHistory.depth {freq : FreqTable} {enc : EncTable} {f : Nat → Nat} {code : Nat → Bitstring} {order : Nat → Nat}
    (h : MergeHistory freq enc f code order) {i j : Nat} (hij : i ≤ j) (hj : j < 2 * (countedSymbols freq).length - 2) :
    (code (order j)).length ≤ (code (order i)).length := by
  have parent : ∀ j < 2 * (countedSymbols freq).length - 2,
      (code (order j)).length = (code ((countedSymbols freq).length + j / 2)).length + 1 ∧
      f (order j) ≤ f ((countedSymbols freq).length + j / 2) ∧ order j < (countedSymbols freq).length + j / 2 := by
    intro j hj
    obtain ⟨h1, h2⟩ := h.made (j / 2) (by omega)
    have h3 := h.sum (j / 2) (by omega)
    have h4 := h.one (j / 2) (by omega)
    have h5 := h.zero (j / 2) (by omega)
    rcases Nat.even_or_odd' j with ⟨k, rfl | rfl⟩
    · rw [show 2 * k / 2 = k by omega] at *
      exact ⟨by rw [h4]; simp, by omega, by omega⟩
    · rw [show (2 * k + 1) / 2 = k by omega] at *
      exact ⟨by rw [h5]; simp, by omega, by omega⟩
  generalize hm : 2 * (countedSymbols freq).length - 2 - i = m
  induction m using Nat.strong_induction_on generalizing i j with
  | _ m ih =>
  rcases Nat.eq_or_lt_of_le hij with rfl | hij
  · exact le_refl _
  rw [(parent i (by omega)).1, (parent j hj).1]
  rcases Nat.eq_or_lt_of_le (show i / 2 ≤ j / 2 by omega) with he | hlt
  · rw [he]
  by_cases hroot : (countedSymbols freq).length + j / 2 = 2 * (countedSymbols freq).length - 2
  · rw [hroot, h.root]; simp
  obtain ⟨i', hi', ei⟩ := h.removed (i := (countedSymbols freq).length + i / 2) (by omega)
  obtain ⟨j', hj', ej⟩ := h.removed (i := (countedSymbols freq).length + j / 2) (by omega)
  have hmono : ∀ a b, a < b → b < 2 * (countedSymbols freq).length - 2 → f (order a) ≤ f (order b) := by
    intro a b hab hb
    have := h.rising_lt hab hb
    unfold LeavesBefore at this; omega
  have hf : f ((countedSymbols freq).length + i / 2) ≤ f ((countedSymbols freq).length + j / 2) := by
    rw [h.sum (i / 2) (by omega), h.sum (j / 2) (by omega)]
    have := hmono (2 * (i / 2)) (2 * (j / 2)) (by omega) (by omega)
    have := hmono (2 * (i / 2) + 1) (2 * (j / 2) + 1) (by omega) (by omega)
    omega
  have hij' : i' < j' := by
    by_contra hge
    rcases Nat.lt_or_ge j' i' with hl | hl
    · have := h.rising_lt hl hi'
      rw [ei, ej] at this
      unfold LeavesBefore at this; omega
    · have : i' = j' := by omega
      rw [this, ej] at ei; omega
  have hii' : i < i' := by
    obtain ⟨-, p2, p3⟩ := parent i (by omega)
    by_contra hge
    rcases Nat.lt_or_ge i' i with hl | hl
    · have := h.rising_lt hl (by omega)
      rw [ei] at this
      unfold LeavesBefore at this; omega
    · have : i' = i := by omega
      rw [this] at ei; omega
  have := ih (2 * (countedSymbols freq).length - 2 - i') (by omega) (i := i') (j := j') (by omega) hj' rfl
  rw [ei, ej] at this
  omega

theorem mem_countedSymbols {freq : FreqTable} {b : Symbol} : b ∈ countedSymbols freq ↔ freqAt freq b ≠ 0 := by
  rw [← observed_eq_counted, mem_observed]

/-- A counted symbol is a leaf, and the leaves are numbered in ascending order of the symbols. -/
theorem countedSymbols_index {freq : FreqTable} {b : Symbol} (h : freqAt freq b ≠ 0) :
    ∃ i, i < (countedSymbols freq).length ∧ (countedSymbols freq)[i]? = some b ∧
      ∀ c k, (countedSymbols freq)[k]? = some c → (i < k ↔ b < c) := by
  obtain ⟨i, hi, hb⟩ := List.mem_iff_getElem.1 (mem_countedSymbols.2 h)
  refine ⟨i, hi, by rw [List.getElem?_eq_getElem hi, hb], fun c k hk => ?_⟩
  obtain ⟨hk, hc⟩ := List.getElem?_eq_some_iff.1 hk
  have hs : (countedSymbols freq).Pairwise (· < ·) := by rw [← observed_eq_counted]; exact observed_rising freq
  have hp := List.pairwise_iff_getElem.1 hs
  constructor
  · intro hik; have := hp i k hi hk hik; rwa [hb, hc] at this
  · intro hbc
    rcases Nat.lt_trichotomy i k with h | h | h
    · exact h
    · subst h; rw [hb] at hc; subst hc; exact absurd hbc (BitVec.lt_irrefl _)
    · have := hp k i hk hi h
      rw [hb, hc] at this
      exact absurd (BitVec.lt_trans hbc this) (BitVec.lt_irrefl _)

/-- A rarer symbol, or one as rare with a lower byte value, has no shorter code. -/
theorem MergedInOrder.shorter {freq : FreqTable} {enc : EncTable} (h : MergedInOrder freq enc) {b c : Symbol} {x y : Bitstring}
    (hb : freqAt freq b ≠ 0) (hc : freqAt freq c ≠ 0)
    (hbc : freqAt freq b < freqAt freq c ∨ (freqAt freq b = freqAt freq c ∧ b < c))
    (hx : encAt enc b = some x) (hy : encAt enc c = some y) : y.length ≤ x.length := by
  obtain ⟨f, code, order, h⟩ := h
  obtain ⟨i, hi, gi, ii⟩ := countedSymbols_index hb
  obtain ⟨k, hk, gk, -⟩ := countedSymbols_index hc
  obtain ⟨fi, ci⟩ := h.leaf i b gi
  obtain ⟨fk, ck⟩ := h.leaf k c gk
  rw [hx] at ci; rw [hy] at ck
  rw [Option.some.inj ci, Option.some.inj ck]
  have hik : i ≠ k := by
    rintro rfl
    rw [gi] at gk
    obtain rfl := Option.some.inj gk
    rcases hbc with h | ⟨-, h⟩ <;> exact absurd h (BitVec.lt_irrefl _)
  obtain ⟨m, hm, em⟩ := h.removed (i := i) (by omega)
  obtain ⟨n, hn, en⟩ := h.removed (i := k) (by omega)
  have hmn : m ≤ n := by
    by_contra hlt
    have := h.rising_lt (show n < m by omega) hm
    rw [em, en, fi, fk] at this
    unfold LeavesBefore at this
    rcases hbc with h | ⟨h, h'⟩
    · have := BitVec.lt_def.1 h; omega
    · have := (ii c k gk).2 h'
      have := congrArg BitVec.toNat h
      omega
  have := h.depth hmn hn
  rwa [em, en] at this

/-- The two symbols removed first are siblings: the first the one-branch, the second the zero-branch. -/
theorem MergedInOrder.siblings {freq : FreqTable} {enc : EncTable} (h : MergedInOrder freq enc) {b c : Symbol} (hne : b ≠ c)
    (hb : freqAt freq b ≠ 0) (hc : freqAt freq c ≠ 0)
    (h1 : ∀ d, freqAt freq d ≠ 0 → freqAt freq b < freqAt freq d ∨ (freqAt freq b = freqAt freq d ∧ b ≤ d))
    (h2 : ∀ d, freqAt freq d ≠ 0 → d ≠ b → freqAt freq c < freqAt freq d ∨ (freqAt freq c = freqAt freq d ∧ c ≤ d)) :
    ∃ p : Bitstring, encAt enc b = some (p ++ [true]) ∧ encAt enc c = some (p ++ [false]) := by
  obtain ⟨f, code, order, h⟩ := h
  obtain ⟨i, hi, gi, ii⟩ := countedSymbols_index hb
  obtain ⟨k, hk, gk, kk⟩ := countedSymbols_index hc
  obtain ⟨fi, ci⟩ := h.leaf i b gi
  obtain ⟨fk, ck⟩ := h.leaf k c gk
  have hik : i ≠ k := fun e => hne (Option.some.inj (by rw [← gi, ← gk, e]))
  obtain ⟨o0, o1⟩ := h.made 0 (by omega)
  rw [Nat.mul_zero, Nat.zero_add, Nat.add_zero] at o1
  rw [Nat.mul_zero, Nat.add_zero] at o0
  have hnd : (countedSymbols freq).Nodup := by rw [← observed_eq_counted]; exact observed_nodup freq
  have leafAt : ∀ m < (countedSymbols freq).length, ∃ d, (countedSymbols freq)[m]? = some d ∧ freqAt freq d ≠ 0 :=
    fun m hm => ⟨_, List.getElem?_eq_getElem hm, mem_countedSymbols.1 (List.getElem_mem hm)⟩
  obtain ⟨m, hm, em⟩ := h.removed (i := i) (by omega)
  obtain ⟨n, hn, en⟩ := h.removed (i := k) (by omega)
  have hm0 : m = 0 := by
    by_contra hm0
    have hr := h.rising_lt (show 0 < m by omega) hm
    obtain ⟨d, gd, hd⟩ := leafAt _ o0
    rw [em, fi, (h.leaf _ d gd).1] at hr
    unfold LeavesBefore at hr
    rcases h1 d hd with h3 | ⟨h3, h4⟩
    · have := BitVec.lt_def.1 h3; omega
    · rw [h3] at hr
      by_cases e : b = d
      · subst e
        have := (List.getElem?_inj hi hnd).1 (gi.trans gd.symm)
        omega
      · have := (ii d _ gd).2 (BitVec.lt_of_le_ne h4 e)
        omega
  subst hm0
  have hn1 : n = 1 := by
    have : n ≠ 0 := by rintro rfl; exact hik (em.symm.trans en)
    by_contra hn1
    have hr := h.rising_lt (show 1 < n by omega) hn
    have hr0 := h.rising_lt (show 0 < 1 by omega) (by omega : 1 < _)
    obtain ⟨d, gd, hd⟩ := leafAt _ o1
    have hdb : d ≠ b := by
      rintro rfl
      have := (List.getElem?_inj hi hnd).1 (gi.trans gd.symm)
      rw [em, this] at hr0
      unfold LeavesBefore at hr0; omega
    rw [en, fk, (h.leaf _ d gd).1] at hr
    unfold LeavesBefore at hr
    rcases h2 d hd hdb with h3 | ⟨h3, h4⟩
    · have := BitVec.lt_def.1 h3; omega
    · rw [h3] at hr
      by_cases e : c = d
      · subst e
        have := (List.getElem?_inj hk hnd).1 (gk.trans gd.symm)
        omega
      · have := (kk d _ gd).2 (BitVec.lt_of_le_ne h4 e)
        omega
  subst hn1
  have hone := h.one 0 (by omega)
  have hzero := h.zero 0 (by omega)
  rw [Nat.mul_zero] at hone hzero
  rw [em] at hone
  rw [Nat.zero_add, en] at hzero
  exact ⟨_, by rw [ci, hone], by rw [ck, hzero]⟩

/-! ### ENC from a list of codes -/

theorem encAt_foldl (entries : List (Symbol × Bitstring)) (hn : (entries.map Prod.fst).Nodup) (enc : EncTable)
    (b : Symbol) :
    encAt (entries.foldl (fun enc p => encPut enc p.1 (some p.2)) enc) b =
      match entries.find? (fun p => p.1 == b) with
      | some p => some p.2
      | none => encAt enc b := by
  induction entries generalizing enc with
  | nil => rfl
  | cons p rest ih =>
    obtain ⟨h1, h2⟩ := List.nodup_cons.1 hn
    rw [List.foldl_cons, ih h2]
    by_cases hb : p.1 = b
    · have : rest.find? (fun p => p.1 == b) = none := by
        rw [List.find?_eq_none]
        intro q hq hqb
        exact h1 (List.mem_map.2 ⟨q, hq, by rw [hb]; simpa using hqb⟩)
      simp [hb, this, encAt_encPut]
    · simp [hb, encAt_encPut, Ne.symm hb]

/-- ENC from codes of distinct symbols: those entries and no other. -/
theorem encAt_encOf {entries : List (Symbol × Bitstring)} (hn : (entries.map Prod.fst).Nodup) (b : Symbol)
    (c : Bitstring) : encAt (encOf entries) b = some c ↔ (b, c) ∈ entries := by
  unfold encOf
  rw [encAt_foldl _ hn]
  split
  · next p hp =>
    have h1 := List.mem_of_find?_eq_some hp
    have h2 : p.1 = b := by simpa using List.find?_some hp
    constructor
    · intro h
      obtain rfl : p.2 = c := by simpa using h
      rw [← h2]; exact h1
    · intro h
      have : p = (b, c) := List.inj_on_of_nodup_map hn h1 h h2
      rw [this]
  · next hp =>
    simp only [encAt_encEmpty, reduceCtorEq, false_iff]
    intro h
    have := List.find?_eq_none.1 hp _ h
    simp at this

end Sys2Proof.Machine
end

