-- ==== Sys2Proof/Laws/Commands.lean ====
section
/-! SUPPORT. The rules of the commands that other commands run: everything each of them can do. -/

namespace Sys2Proof.Machine

/-! ### COUNT, SELECT_EOF, BUILD -/

/-- COUNT on a source short enough (40_tree_builder.md R140). -/
theorem countBody_ok {s : State} (h : s.src.length < 2 ^ 32) :
    ∃ freq, countBody s = .ok { s.readerReset with freq := freq, srcPos := s.src.length } ∧
      ∀ b, (freqAt freq b).toNat = s.src.count b := by
  obtain ⟨h1, h2, h3⟩ := countLoop_spec (bytes := s.src) (n := 0) (freq := freqZero) (by omega) (by simp)
  refine ⟨(countLoop s.src 0 freqZero).freq, ?_, fun b => by simpa using h3 b⟩
  simp only [countBody, h1, h2, Nat.zero_add]
  rfl

/-- COUNT on a source too long (40_tree_builder.md R141). -/
theorem countBody_overflow {s : State} (h : 2 ^ 32 ≤ s.src.length) :
    ∃ freq, countBody s = .raised .countOverflow { s.readerReset with freq := freq, srcPos := 2 ^ 32 } ∧
      ∀ b, (freqAt freq b).toNat = (s.src.take (2 ^ 32 - 1)).count b := by
  obtain ⟨h1, h2, h3⟩ := countLoop_overflow (bytes := s.src) (n := 0) (freq := freqZero) (by omega) (by omega) (by simp)
  refine ⟨(countLoop s.src 0 freqZero).freq, ?_, fun b => by simpa using h3 b⟩
  simp only [countBody, h1, h2]
  rfl

/-- Everything SELECT_EOF can do (40_tree_builder.md R142). -/
theorem selectEofBody_cases (s : State) :
    ((∀ b, freqAt s.freq b = 0) ∧ selectEofBody s = .raised .emptyFreq s) ∨
    (∃ e, leastFrequent s.freq (observed s.freq) = some e ∧ freqAt s.freq e ≠ 0 ∧
      selectEofBody s = .ok { s with eofSym := e, eofValid := true } ∧
      ∀ b, freqAt s.freq b ≠ 0 →
        freqAt s.freq e ≤ freqAt s.freq b ∧ (freqAt s.freq b = freqAt s.freq e → e ≤ b)) := by
  cases h : leastFrequent s.freq (observed s.freq) with
  | none => exact .inl ⟨(observed_eq_nil _).1 (leastFrequent_eq_none.1 h), by simp [selectEofBody, h]⟩
  | some e =>
    obtain ⟨h1, h2⟩ := leastFrequent_spec (observed_rising _) h
    exact .inr ⟨e, rfl, (mem_observed _ _).1 h1, by simp [selectEofBody, h], fun b hb => h2 b ((mem_observed _ _).2 hb)⟩

/-- Everything BUILD can do (40_tree_builder.md R143): the table it writes is that of a code list over the observed symbols. -/
theorem buildBody_cases (s : State) :
    ((∀ b, freqAt s.freq b = 0) ∧ buildBody s = .raised .emptyFreq s) ∨
    (∃ b, observed s.freq = [b] ∧ buildBody s = .ok { s with enc := encOf [(b, [true])] }) ∨
    (∃ b c rest, observed s.freq = b :: c :: rest ∧
      buildBody s = .ok { s with enc := encOf (buildTree s.freq b (c :: rest)).codes }) := by
  rcases h : observed s.freq with _ | ⟨b, _ | ⟨c, rest⟩⟩
  · exact .inl ⟨(observed_eq_nil _).1 h, by simp [buildBody, h]⟩
  · exact .inr (.inl ⟨b, rfl, by simp [buildBody, h]⟩)
  · exact .inr (.inr ⟨b, c, rest, rfl, by simp [buildBody, h]⟩)

/-- The table of a tree: its symbols have its codes (40_tree_builder.md R146). -/
theorem encAt_buildTree {freq : FreqTable} {b c : Symbol} {rest : List Symbol} (h : observed freq = b :: c :: rest)
    (x : Symbol) (code : Bitstring) :
    encAt (encOf (buildTree freq b (c :: rest)).codes) x = some code ↔ (x, code) ∈ (buildTree freq b (c :: rest)).codes := by
  apply encAt_encOf
  rw [Tree.codes_fst]
  exact (buildTree_leaves freq b (c :: rest)).nodup_iff.2 (h ▸ observed_nodup freq)

/-- What BUILD's table is: a code for exactly the observed symbols, prefix-free, of 1 to 255 bits (40_tree_builder.md R147). -/
theorem buildBody_spec {s : State} (h : ∃ b, freqAt s.freq b ≠ 0) :
    ∃ enc, buildBody s = .ok { s with enc := enc } ∧ (∀ b, encAt enc b ≠ none ↔ freqAt s.freq b ≠ 0) ∧
      EncPrefixFree enc ∧
      (∀ b c, encAt enc b = some c →
        1 ≤ c.length ∧ c.length ≤ max 1 ((observed s.freq).length - 1) ∧ c.length ≤ 255) := by
  rcases buildBody_cases s with ⟨h0, -⟩ | ⟨b, hb, he⟩ | ⟨b, c, rest, hb, he⟩
  · obtain ⟨b, hb⟩ := h; exact absurd (h0 b) hb
  · have key : ∀ x code, encAt (encOf [(b, [true])]) x = some code ↔ (x, code) ∈ [(b, [true])] :=
      fun x code => encAt_encOf (by simp) x code
    refine ⟨_, he, fun x => ?_, fun x y cx cy hne hx hy => ?_, fun x c hx => ?_⟩
    · rw [← mem_observed, hb, Option.ne_none_iff_exists']
      constructor
      · rintro ⟨c, hc⟩; have := (key x c).1 hc; simp at this; simp [this.1]
      · intro hx; exact ⟨[true], (key x _).2 (by simpa using hx)⟩
    · have h1 := (key x cx).1 hx
      have h2 := (key y cy).1 hy
      simp at h1 h2
      exact absurd (h1.1.trans h2.1.symm) hne
    · have := (key x c).1 hx; simp at this; rw [this.2]; simp
  · have key := encAt_buildTree hb
    have hlen : (buildTree s.freq b (c :: rest)).leaves.length = (observed s.freq).length := by
      rw [hb]; exact (buildTree_leaves _ _ _).length_eq
    have h256 := observed_length_le s.freq
    refine ⟨_, he, fun x => ?_, fun x y cx cy hne hx hy hp => ?_, fun x code hx => ?_⟩
    · rw [← mem_observed, hb, Option.ne_none_iff_exists', ← (buildTree_leaves s.freq b (c :: rest)).mem_iff,
        ← Tree.codes_fst, List.mem_map]
      constructor
      · rintro ⟨code, hc⟩; exact ⟨_, (key x code).1 hc, rfl⟩
      · rintro ⟨⟨x', code⟩, hm, rfl⟩; exact ⟨code, (key _ _).2 hm⟩
    · exact hne (congrArg Prod.fst (Tree.codes_prefix ((key x cx).1 hx) ((key y cy).1 hy) hp))
    · have hm := (key x code).1 hx
      have h1 := Tree.codes_length hm
      refine ⟨?_, by simp only at h1; omega, by simp only at h1; omega⟩
      by_contra h0
      have h0 : code = [] := List.length_eq_zero_iff.1 (by omega)
      have hl : 2 ≤ (buildTree s.freq b (c :: rest)).leaves.length := by rw [hlen, hb]; simp
      have hnd : (buildTree s.freq b (c :: rest)).leaves.Nodup :=
        (buildTree_leaves s.freq b (c :: rest)).nodup_iff.2 (hb ▸ observed_nodup _)
      have hcl : (buildTree s.freq b (c :: rest)).codes.length = (buildTree s.freq b (c :: rest)).leaves.length := by
        rw [← Tree.codes_fst, List.length_map]
      have all : ∀ p ∈ (buildTree s.freq b (c :: rest)).codes, p = (x, code) := fun p hp =>
        (Tree.codes_prefix hm hp (by rw [h0]; exact List.nil_prefix)).symm
      have hrep := List.eq_replicate_of_mem (l := (buildTree s.freq b (c :: rest)).leaves) (a := x) (by
        intro y hy
        rw [← Tree.codes_fst] at hy
        obtain ⟨p, hp, rfl⟩ := List.mem_map.1 hy
        rw [all p hp])
      rw [hrep] at hnd
      have := List.nodup_replicate.1 hnd
      omega

/-- The sentinel SELECT_EOF chooses gets a code that ends in 1 (40_tree_builder.md R147 d). -/
theorem buildBody_sentinel {s : State} {e : Symbol} (he : leastFrequent s.freq (observed s.freq) = some e) :
   ∃ enc c, buildBody s = .ok { s with enc := enc } ∧ encAt enc e = some (c ++ [true]) := by
  rcases buildBody_cases s with ⟨h0, -⟩ | ⟨b', hb', h⟩ | ⟨b', c, rest, hb', h⟩
  · rw [(observed_eq_nil _).2 h0] at he; cases he
  · rw [hb'] at he
    simp [leastFrequent] at he
    subst he
    exact ⟨_, [], h, (encAt_encOf (by simp) _ _).2 (by simp)⟩
  · rw [hb'] at he
    obtain ⟨x, hx⟩ := buildTree_sentinel (hb' ▸ observed_rising s.freq) he
    exact ⟨_, x, h, (encAt_buildTree hb' _ _).2 hx⟩

/-! ### READ_TABLE, BR_START -/

/-- Everything READ_TABLE can do (42_table_codec.md R188). -/
theorem readTableBody_cases (s : State) :
    (∃ p mid, parsePreamble s.src s.srcPos = .ok p mid ∧ readTableBody s = .ok { s.readerReset with
      dec := p.decTable, decValid := true, eofSym := p.eof, eofValid := true, width := p.width, srcPos := mid }) ∨
    (∃ e mid, parsePreamble s.src s.srcPos = .raised e mid ∧
      readTableBody s = .raised e { s.readerReset.clearParsed with srcPos := mid }) := by
  cases h : parsePreamble s.src s.srcPos with
  | ok p mid => exact .inl ⟨p, mid, rfl, by simp only [readTableBody, h, Parse.run]; rfl⟩
  | raised e mid => exact .inr ⟨e, mid, rfl, by simp only [readTableBody, h, Parse.run]⟩

/-- BR_START over a table (43_bit_reader.md R220). -/
theorem brStartBody_ok {s : State} (h : s.decValid = true) : brStartBody s = .ok { s with
    brByte := 0, brNbits := 0, brFail := .none, brMaxlen := maxKeyLen s.dec, brValid := true } := by
  simp [brStartBody, h]

/-! ### ENCODE and DECODE -/

/-- What EncodePayload leaves: the source at its end, the writer empty, the payload packed and padded (44_transcoder.md R241,
41_bit_writer.md R170 to R173). -/
theorem encodePayload_eq {s : State} (hl : s.params.legal = true) (hp : s.bwPend = []) :
    s.encodePayload = { s with
      srcPos := s.srcPos + s.unread.length, bwPend := [], snk := s.snk ++ emitBits (payloadBits s.enc s.eofSym s.unread) } := by
  have h8 : s.params.wordBits % 8 = 0 ∧ 0 < s.params.wordBits := by
    simp [Params.legal] at hl; omega
  have := writerLoop_flush h8.1 (pend := s.bwPend) (by rw [hp]; exact h8.2) (payloadBits s.enc s.eofSym s.unread)
  rw [hp, List.nil_append] at this
  simp only [State.encodePayload, foldl_writerInsert, payloadCodes_flatten, State.writerInsert, State.writerFlush,
    List.append_assoc, hp, this]

/-- The state DECODE enters its loop with: the table of the preamble committed, the reader started over it
(44_transcoder.md R242). -/
def State.decodeStart (s : State) (p : Preamble) (pos : Nat) : State :=
  { s with
    dec := p.decTable, decValid := true, eofSym := p.eof, eofValid := true, width := p.width, srcPos := pos,
    brByte := 0, brNbits := 0, brFail := .none, brMaxlen := maxKeyLen p.decTable, brValid := true }

/-- Everything DECODE can do before its loop (44_transcoder.md R242). -/
theorem decodeBody_cases (s : State) :
    (∃ e mid, decodeBody s = .raised e { s.readerReset.clearParsed with srcPos := mid } ∧
      e ∈ [CmdError.magicMismatch, .truncated, .badWidth, .badSlot, .dupSymbol, .eofConflict, .dupCode] ∧
      (s.srcPos ≤ s.src.length → mid ≤ s.src.length)) ∨
    (∃ p mid rest, s.unread = s.params.magic ++ rest ∧
      parsePreamble s.src (s.srcPos + s.params.magic.length) = .ok p mid ∧
      decodeBody s = decodeLoop (s.decodeStart p mid).bitsLeft (s.decodeStart p mid)) := by
  rcases checkMagic_cases s.src s.params.magic s.srcPos with ⟨rest, h1, h2⟩ | ⟨e, mid, h1, h2, h3, h4⟩
  · have hin : s.srcPos ≤ s.src.length → s.srcPos + s.params.magic.length ≤ s.src.length := by
      intro h
      have := congrArg List.length h1
      simp at this; omega
    have hb : decodeBody s =
        ((readTableBody { s.readerReset.clearParsed with srcPos := s.srcPos + s.params.magic.length }).andThen
          brStartBody).andThen fun u => decodeLoop u.bitsLeft u := by
      simp only [decodeBody, h2, Parse.run]
    rcases readTableBody_cases { s.readerReset.clearParsed with srcPos := s.srcPos + s.params.magic.length } with
      ⟨p, mid, g1, g2⟩ | ⟨e, mid, g1, g2⟩
    · refine .inr ⟨p, mid, rest, h1, g1, ?_⟩
      rw [hb, g2, Body.andThen_ok, brStartBody_ok rfl, Body.andThen_ok]
      rfl
    · obtain ⟨k1, k2, k3⟩ := parsePreamble_raised g1
      refine .inl ⟨e, mid, ?_, List.mem_cons_of_mem _ k1, fun h => k3 (hin h)⟩
      rw [hb, g2]
      rfl
  · refine .inl ⟨e, mid, by simp only [decodeBody, h1, Parse.run], ?_, h4⟩
    rcases h2 with rfl | rfl <;> simp

/-- `t` came from `s` by writing what ENCODE writes, the sink only appended to. -/
def EncodeWrites (s t : State) : Prop :=
  ∃ out, t = { s with
    freq := t.freq, eofSym := t.eofSym, eofValid := t.eofValid, enc := t.enc, width := t.width, snk := s.snk ++ out,
    bwPend := t.bwPend, srcPos := t.srcPos, brByte := t.brByte, brNbits := t.brNbits, brValid := t.brValid,
    brMaxlen := t.brMaxlen, brFail := t.brFail }

theorem EncodeWrites.trans {s t u : State} (h : EncodeWrites s t) (h' : EncodeWrites t u) : EncodeWrites s u := by
  obtain ⟨a, ha⟩ := h
  obtain ⟨b, hb⟩ := h'
  refine ⟨a ++ b, ?_⟩
  rw [hb, ha]
  simp

theorem EncodeWrites.andThen {s : State} {b : Body} {k : State → Body} (h : EncodeWrites s b.state)
    (hk : ∀ t, EncodeWrites t (k t).state) : EncodeWrites s (b.andThen k).state := by
  cases b with
  | ok t => exact h.trans (hk t)
  | raised e t => exact h

/-- What ENCODE leaves alone (44_transcoder.md R240). -/
theorem encodeBody_frame (s : State) : EncodeWrites s (encodeBody s).state := by
  have keep : ∀ t : State, EncodeWrites t t := fun t => ⟨[], by simp⟩
  unfold encodeBody
  split
  · exact keep s
  refine .andThen (.andThen (.andThen ?_ fun t => ?_) fun t => ?_) fun t => ?_
  · unfold countBody
    simp only
    split <;> exact ⟨[], by simp [State.readerReset, State.srcRewind]⟩
  · unfold selectEofBody
    split
    · exact keep t
    · exact ⟨[], by simp⟩
  · unfold buildBody
    split
    · exact keep t
    all_goals exact ⟨[], by simp⟩
  · refine .andThen ?_ fun u => ?_
    · unfold writeTableBody
      split
      · exact ⟨t.params.magic, rfl⟩
      · exact ⟨t.params.magic ++ preamble t.enc t.eofSym, by simp [State.snkAppend]⟩
    · simp only [Body.state_ok, State.encodePayload, foldl_writerInsert, State.writerInsert, State.writerFlush,
        State.srcRewind, List.append_assoc]
      exact ⟨_, rfl⟩

/-- What DECODE leaves alone (44_transcoder.md R242). -/
theorem decodeBody_frame (s : State) :
    ∃ t out, (decodeBody s).state = t ∧ t = { s with
      dec := t.dec, decValid := t.decValid, eofSym := t.eofSym, eofValid := t.eofValid, width := t.width,
      snk := s.snk ++ out, srcPos := t.srcPos, brByte := t.brByte, brNbits := t.brNbits, brValid := t.brValid,
      brMaxlen := t.brMaxlen, brFail := t.brFail } := by
  rcases decodeBody_cases s with ⟨e, mid, h, -⟩ | ⟨p, mid, rest, -, -, h⟩
  · rw [h]; exact ⟨_, [], rfl, by simp [State.clearParsed, State.readerReset]⟩
  · rw [h]
    obtain ⟨out, ho⟩ := decodeLoop_frame (s.decodeStart p mid).bitsLeft (s.decodeStart p mid)
    generalize (decodeLoop (s.decodeStart p mid).bitsLeft (s.decodeStart p mid)).state = t at ho ⊢
    refine ⟨t, out, rfl, ?_⟩
    conv_lhs => rw [ho]
    rw [show t.dec = (s.decodeStart p mid).dec from by rw [ho],
      show t.decValid = (s.decodeStart p mid).decValid from by rw [ho],
      show t.eofSym = (s.decodeStart p mid).eofSym from by rw [ho],
      show t.eofValid = (s.decodeStart p mid).eofValid from by rw [ho],
      show t.width = (s.decodeStart p mid).width from by rw [ho],
      show t.brMaxlen = (s.decodeStart p mid).brMaxlen from by rw [ho]]
    rfl

/-- The canonical form of DEC at reset (log entry 8). READ_TABLE keeps it: `decTable_spec`. -/
theorem decSorted_reset (p : Params) : decSorted (State.resetWith p).dec = true := rfl

end Sys2Proof.Machine
end

