-- ==== Sys2Proof/Laws/Decode.lean ====
section
/-! SUPPORT. The laws of decoding and encoding: a word and its bus bytes, and the opcode field (30_encoding.md R100 to R102). -/

namespace Sys2Proof

/-- A word is the word of its bus bytes (20_memory.md R80). -/
theorem wordOfLanes_wordLanes (v : Word) : wordOfLanes (wordLanes v) = v := by
  apply BitVec.eq_of_getLsbD_eq
  intro i hi
  simp only [wordOfLanes, wordLanes, BitVec.getLsbD_append, BitVec.getLsbD_extractLsb']
  split
  · simp [*]
  · split
    · rw [show (decide (i - 8 < 8)) = true by simpa using ‹_›, Bool.true_and]; congr 1; omega
    · split
      · rw [show (decide (i - 8 - 8 < 8)) = true by simpa using ‹_›, Bool.true_and]; congr 1; omega
      · rw [show (decide (i - 8 - 8 - 8 < 8)) = true by simp; omega, Bool.true_and]; congr 1; omega

/-- The opcode field of a word that holds an opcode and zeros above it (R100). -/
theorem opcodeField_setWidth (op : Byte) : opcodeField (op.setWidth 32) = op := by
  apply BitVec.eq_of_getLsbD_eq
  intro i hi
  simp [opcodeField, hi]; omega

/-- Only bits [7:0] of a command word count (R100). -/
theorem opcodeField_eq (v : Word) : opcodeField v = BitVec.ofNat 8 (v.toNat % 256) := by
  apply BitVec.eq_of_toNat_eq; simp [opcodeField, BitVec.extractLsb'_toNat]

/-- Four bus bytes decode to the command of their word (R105). -/
theorem decodeBytes_wordLanes (v : Word) (rest : List Byte) :
    decodeBytes (wordLanes v ++ rest) = .ok (decodeWord v, rest) := by
  show Except.ok (decodeWord (wordOfLanes (wordLanes v)), rest) = _
  rw [wordOfLanes_wordLanes]

/-- Every opcode selects a well-formed command, of that opcode (R101, R102). -/
theorem decodeOpcode_spec (op : Byte) : (decodeOpcode op).wellFormed = true ∧ encodeOpcode (decodeOpcode op) = op := by
  revert op; decide

end Sys2Proof
end

