-- ==== Sys2Proof/Laws/Operands.lean ====
section
/-! SUPPORT. The laws of the operand forms and the status bits: CODE through its window, a bitstring put and read, ENC_VALID. -/

namespace Sys2Proof.Machine

/-- A bitstring put to CODE is the operand read from it (30_encoding.md R104). -/
theorem operand_putCode (s : State) {c : Bitstring} (h : c.length ≤ 2048) : (s.putCode c).operand = c := by
  simp only [State.operand, State.putCode]
  apply List.ext_getElem
  · simp; omega
  · intro i h1 h2
    simp only [List.getElem_map, List.getElem_range, ofNat_natOfBits_getLsbD]
    have : i < 2048 := by omega
    simp [this, h2]

/-- The operand is the bits of CODE below CODE_LEN (30_encoding.md R104). -/
theorem operand_eq (s : State) (c : Bitstring) (hl : c.length = s.codeLen.toNat)
    (hb : ∀ i < c.length, c.getD i false = s.code.getLsbD i) : s.operand = c := by
  apply List.ext_getElem
  · simp [State.operand, hl]
  · intro i h1 h2
    have := hb i h2
    simp only [State.operand, List.getElem_map, List.getElem_range]
    rw [← this]; simp [h2]

/-- CODE after a write of window `k` (10_state.md R49). -/
theorem codeWindowPut_bit (code : BitVec 2048) (k : Nat) (v : Word) (i : Nat) (hi : i < 2048) :
    (codeWindowPut code k v).getLsbD i = if i / 32 = k then v.getLsbD (i % 32) else code.getLsbD i := by
  simp only [codeWindowPut, BitVec.getLsbD_or, BitVec.getLsbD_and, BitVec.getLsbD_not, BitVec.getLsbD_shiftLeft,
    BitVec.getLsbD_setWidth, BitVec.getLsbD_allOnes]
  split
  · have h1 : ¬ i < 32 * k := by omega
    have h2 : i - 32 * k = i % 32 := by omega
    have h3 : i % 32 < 2048 := by omega
    have h4 : i % 32 < 32 := by omega
    simp [h1, hi, h2, h3, h4]
  · by_cases h1 : i < 32 * k
    · simp [h1, hi]
    · have : 32 ≤ i - 32 * k := by omega
      have : v.getLsbD (i - 32 * k) = false := BitVec.getLsbD_of_ge _ _ this
      simp [h1, hi, this]; omega

/-- ENC_VALID says that some symbol has a code (10_state.md R31). -/
theorem encValid_iff (s : State) : s.encValid = true ↔ ∃ b, encAt s.enc b ≠ none := by
  simp only [State.encValid, List.any_eq_true, encAt]
  constructor
  · rintro ⟨x, hx, hs⟩
    obtain ⟨i, hi, rfl⟩ := List.mem_iff_getElem.1 hx
    simp at hi
    exact ⟨BitVec.ofNat 8 i, by
      have : (BitVec.ofNat 8 i).toNat = i := by simp; omega
      simp only [this]; intro h; simp at hs; rw [h] at hs; simp at hs⟩
  · rintro ⟨b, hb⟩
    exact ⟨_, List.getElem_mem (l := s.enc.toList) (n := b.toNat) (by have := b.isLt; simp; omega), by
      simp at hb ⊢; exact Option.isSome_iff_ne_none.2 hb⟩

end Sys2Proof.Machine
end

