-- ==== Sys2Proof/Laws/PerInstr.lean ====
section
/-! SUPPORT. One statement for each command as syntax: a well-formed command's word lies in its own row of opcode_table.json and in no
other (30_encoding.md R101, R102). -/

namespace Sys2Proof.Laws

/-- A row of opcode_table.json: the words `v` with `v &&& mask = bits` are the row's. -/
structure OpcodeRow where
  mnemonic : String
  mask : Word
  bits : Word
  deriving DecidableEq, Repr

/-- The rows of opcode_table.json, in its order. -/
def opcodeRows : List OpcodeRow :=
  [⟨"NOP", 0xFF, 0x00⟩, ⟨"CLEAR", 0xFF, 0x01⟩, ⟨"COUNT", 0xFF, 0x02⟩, ⟨"SELECT_EOF", 0xFF, 0x03⟩, ⟨"BUILD", 0xFF, 0x04⟩]
  ++ [⟨"ENC_LOOKUP", 0xFF, 0x05⟩, ⟨"ENC_SET", 0xFF, 0x06⟩, ⟨"BW_INSERT", 0xFF, 0x07⟩, ⟨"BW_FLUSH", 0xFF, 0x08⟩, ⟨"WRITE_TABLE", 0xFF, 0x09⟩]
  ++ [⟨"READ_TABLE", 0xFF, 0x0A⟩, ⟨"DEC_LOOKUP", 0xFF, 0x0B⟩, ⟨"BR_START", 0xFF, 0x0C⟩, ⟨"BR_EXTRACT", 0xFF, 0x0D⟩, ⟨"ENCODE", 0xFF, 0x0E⟩]
  ++ [⟨"DECODE", 0xFF, 0x0F⟩, ⟨"RESERVED_10_1F", 0xF0, 0x10⟩, ⟨"RESERVED_20_3F", 0xE0, 0x20⟩, ⟨"RESERVED_40_7F", 0xC0, 0x40⟩, ⟨"RESERVED_80_FF", 0x80, 0x80⟩]

/-- The mnemonics of the rows a word lies in. -/
def rowsOf (v : Word) : List String := (opcodeRows.filter fun r => v &&& r.mask == r.bits).map OpcodeRow.mnemonic

/-- The family: the word of a well-formed command lies in its own row and in no other. -/
def EncodedRow.Statement (i : Instr) : Prop := i.wellFormed = true → rowsOf (encode i) = [i.mnemonic]

namespace EncodedRow

theorem nop : Statement .nop := by unfold Statement; decide
theorem clear : Statement .clear := by unfold Statement; decide
theorem count : Statement .count := by unfold Statement; decide
theorem selectEof : Statement .selectEof := by unfold Statement; decide
theorem build : Statement .build := by unfold Statement; decide
theorem encLookup : Statement .encLookup := by unfold Statement; decide
theorem encSet : Statement .encSet := by unfold Statement; decide
theorem bwInsert : Statement .bwInsert := by unfold Statement; decide
theorem bwFlush : Statement .bwFlush := by unfold Statement; decide
theorem writeTable : Statement .writeTable := by unfold Statement; decide
theorem readTable : Statement .readTable := by unfold Statement; decide
theorem decLookup : Statement .decLookup := by unfold Statement; decide
theorem brStart : Statement .brStart := by unfold Statement; decide
theorem brExtract : Statement .brExtract := by unfold Statement; decide
theorem encode : Statement .encode := by unfold Statement; decide
theorem decode : Statement .decode := by unfold Statement; decide
theorem reserved10To1F (opcode : Byte) : Statement (.reserved10To1F opcode) := by unfold Statement; revert opcode; decide
theorem reserved20To3F (opcode : Byte) : Statement (.reserved20To3F opcode) := by unfold Statement; revert opcode; decide
theorem reserved40To7F (opcode : Byte) : Statement (.reserved40To7F opcode) := by unfold Statement; revert opcode; decide
theorem reserved80ToFF (opcode : Byte) : Statement (.reserved80ToFF opcode) := by unfold Statement; revert opcode; decide

end EncodedRow

end Sys2Proof.Laws
end

