-- ==== Sys2Proof/Laws/Step.lean ====
section
/-! SUPPORT. The laws of a step: the window's offsets, a bus write, a bus read, and everything a step that answers a next state can
do. -/

namespace Sys2Proof.Machine

/-- A window access of four lanes at an aligned offset (20_memory.md R81). -/
theorem windowOffset_ok (base off : Nat) (h : off < 64) (h4 : off % 4 = 0) :
    windowOffset base (base + off) 4 = .ok off := by
  simp [windowOffset, h4]; omega

/-- What a register reads does not depend on the agenda. -/
@[simp] theorem regRead_agenda (s : State) (a : List Turn) (off : Nat) :
    ({ s with agenda := a } : State).regRead off = s.regRead off := by
  unfold State.regRead
  split <;> rfl

@[simp] theorem busValue_agenda (s : State) (a : List Turn) (off : Nat) :
    ({ s with agenda := a } : State).busValue off = s.busValue off := by
  simp only [State.busValue, regRead_agenda]

/-- A turn that is a bus write to the window (10_state.md R39 to R55). -/
theorem step_busWrite (s : State) (v : Word) (rest : List Turn) (off : Nat) (ho : off < 64) (h4 : off % 4 = 0)
    (h : s.agenda = .busWrite (s.params.base + off) (wordLanes v) :: rest) :
    step s = .next (if s.busy then { s with agenda := rest, overrun := true }
      else ({ s with agenda := rest } : State).regWrite off v) := by
  have := windowOffset_ok s.params.base off ho h4
  have e : (wordLanes v).length = 4 := rfl
  simp [step, State.takeTurn, h, takeStep, busWrite, e, this, wordOfLanes_wordLanes]

/-- A turn that is a bus read of the window (10_state.md R39 to R53). -/
theorem step_busRead (s : State) (rest : List Turn) (off : Nat) (ho : off < 64) (h4 : off % 4 = 0)
    (h : s.agenda = .busRead (s.params.base + off) 4 :: rest) :
    step s = .next { s with
      agenda := rest,
      seen := .lanes (s.params.base + off) (wordLanes (s.busValue off)) :: s.seen,
      draws := if s.busy = true ∧ off ≠ 0x04 then s.draws + 1 else s.draws } := by
  have := windowOffset_ok s.params.base off ho h4
  simp only [step, State.takeTurn, h, takeStep, busRead, this, busValue_agenda]

/-- Everything a step that answers a next state can do: one clause for each kind of turn (log entry 1). -/
theorem step_cases {s t : State} (h : step s = .next t) :
    (∃ addr lanes off rest, s.agenda = .busWrite addr lanes :: rest ∧
      windowOffset s.params.base addr lanes.length = .ok off ∧
      t = if s.busy then { s with agenda := rest, overrun := true }
        else ({ s with agenda := rest } : State).regWrite off (wordOfLanes lanes)) ∨
    (∃ addr width off rest, s.agenda = .busRead addr width :: rest ∧ windowOffset s.params.base addr width = .ok off ∧
      ∃ seen draws, t = { s with agenda := rest, seen := seen, draws := draws }) ∨
    (∃ bytes rest, s.agenda = .attach bytes :: rest ∧ s.busy = false ∧
      t = { s with agenda := rest, src := bytes, srcPos := 0 }) ∨
    (∃ rest, s.agenda = .lookSink :: rest ∧ s.busy = false ∧
      t = { s with agenda := rest, seen := .sink s.snk :: s.seen }) ∨
    (∃ rest, s.agenda = .drain :: rest ∧ s.busy = false ∧
      t = { s with agenda := rest, seen := .sink s.snk :: s.seen, snk := [] }) ∨
    (∃ rest, s.agenda = .platformReset :: rest ∧ t = ({ s with agenda := rest } : State).platformReset) ∨
    (s.takeTurn.1 = .block ∧ ∃ rest, s.takeTurn.2 = { s with agenda := rest } ∧
      ((s.busy = false ∧ t = { s with agenda := rest }) ∨
        (s.busy = true ∧ exec (decodeOpcode s.pendingOp) { s with agenda := rest } = .next t))) := by
  unfold step at h
  rcases ha : s.agenda with _ | ⟨a, rest⟩
  · have h1 : s.takeTurn = (.block, s) := by simp [State.takeTurn, ha]
    rw [h1] at h ⊢
    simp only [takeStep, blockTurn, State.fetch] at h
    refine .inr (.inr (.inr (.inr (.inr (.inr ⟨rfl, [], by rw [← ha], ?_⟩)))))
    have e : ({ s with agenda := [] } : State) = s := by rw [← ha]
    rw [e]
    cases hb : s.busy
    · rw [hb] at h; left; refine ⟨rfl, ?_⟩; cases h; rfl
    · rw [hb] at h; right; exact ⟨rfl, h⟩
  · have h1 : s.takeTurn = (a, { s with agenda := rest }) := by simp [State.takeTurn, ha]
    rw [h1] at h ⊢
    cases a with
    | block =>
      refine .inr (.inr (.inr (.inr (.inr (.inr ⟨rfl, rest, rfl, ?_⟩)))))
      simp only [takeStep, blockTurn, State.fetch] at h
      cases hb : s.busy
      · rw [hb] at h; left; refine ⟨rfl, ?_⟩; cases h; rfl
      · rw [hb] at h; right; exact ⟨rfl, h⟩
    | busWrite addr lanes =>
      refine .inl ⟨addr, lanes, ?_⟩
      simp only [takeStep, busWrite] at h
      cases hw : windowOffset s.params.base addr lanes.length with
      | error r => rw [hw] at h; cases h
      | ok off => rw [hw] at h; cases h; exact ⟨off, rest, rfl, rfl, rfl⟩
    | busRead addr width =>
      refine .inr (.inl ⟨addr, width, ?_⟩)
      simp only [takeStep, busRead] at h
      cases hw : windowOffset s.params.base addr width with
      | error r => rw [hw] at h; cases h
      | ok off => rw [hw] at h; cases h; exact ⟨off, rest, rfl, rfl, _, _, rfl⟩
    | attach bytes =>
      refine .inr (.inr (.inl ⟨bytes, rest, rfl, ?_⟩))
      simp only [takeStep, attachSource] at h
      cases hb : s.busy <;> rw [hb] at h <;> cases h
      exact ⟨rfl, rfl⟩
    | lookSink =>
      refine .inr (.inr (.inr (.inl ⟨rest, rfl, ?_⟩)))
      simp only [takeStep, lookSink] at h
      cases hb : s.busy <;> rw [hb] at h <;> cases h
      exact ⟨rfl, rfl⟩
    | drain =>
      refine .inr (.inr (.inr (.inr (.inl ⟨rest, rfl, ?_⟩))))
      simp only [takeStep, drainSink] at h
      cases hb : s.busy <;> rw [hb] at h <;> cases h
      exact ⟨rfl, rfl⟩
    | platformReset =>
      refine .inr (.inr (.inr (.inr (.inr (.inl ⟨rest, rfl, ?_⟩)))))
      simp only [takeStep] at h
      cases h; rfl

end Sys2Proof.Machine
end

