-- ==== Sys2Proof/Tests/Slice0.lean ====
section
/-! SUPPORT. Own tests. Every expected value comes from spec/: the encodings of 30_encoding.md R100 to R102, the rules' examples and the
vectors of 95_test_vectors.md (named V-…). The second half is one witness for each obligation with hypotheses. -/

namespace Sys2Proof.Tests

open Sys2Proof Sys2Proof.Machine

/- One thread: each kernel evaluation below would take one of its own. -/
set_option Elab.async false

/-! ### Decoding: words written out from the opcode map (R101) -/

theorem test_decode_control :
    decodeBytes [0x00, 0x00, 0x00, 0x00] = .ok (.nop, []) ∧ decodeBytes [0x01, 0x00, 0x00, 0x00] = .ok (.clear, []) := by decide

theorem test_decode_builder :
    decodeBytes [0x02, 0x00, 0x00, 0x00] = .ok (.count, []) ∧ decodeBytes [0x03, 0x00, 0x00, 0x00] = .ok (.selectEof, []) ∧
    decodeBytes [0x04, 0x00, 0x00, 0x00] = .ok (.build, []) ∧ decodeBytes [0x05, 0x00, 0x00, 0x00] = .ok (.encLookup, []) ∧
    decodeBytes [0x06, 0x00, 0x00, 0x00] = .ok (.encSet, []) := by decide

theorem test_decode_writer :
    decodeBytes [0x07, 0x00, 0x00, 0x00] = .ok (.bwInsert, []) ∧ decodeBytes [0x08, 0x00, 0x00, 0x00] = .ok (.bwFlush, []) := by
  decide

theorem test_decode_table :
    decodeBytes [0x09, 0x00, 0x00, 0x00] = .ok (.writeTable, []) ∧ decodeBytes [0x0A, 0x00, 0x00, 0x00] = .ok (.readTable, []) ∧
    decodeBytes [0x0B, 0x00, 0x00, 0x00] = .ok (.decLookup, []) := by decide

theorem test_decode_reader :
    decodeBytes [0x0C, 0x00, 0x00, 0x00] = .ok (.brStart, []) ∧ decodeBytes [0x0D, 0x00, 0x00, 0x00] = .ok (.brExtract, []) := by
  decide

/-- V-R7: bits [31:8] are ignored. -/
theorem test_decode_transcoder :
    decodeBytes [0x0E, 0x56, 0x34, 0x12] = .ok (.encode, []) ∧ decodeBytes [0x0F, 0xFF, 0xFF, 0xFF] = .ok (.decode, []) := by decide

/-- The first and last opcode of each reserved row (R102). -/
theorem test_decode_reserved :
    decodeBytes [0x10, 0, 0, 0] = .ok (.reserved10To1F 0x10, []) ∧ decodeBytes [0x1F, 0, 0, 0] = .ok (.reserved10To1F 0x1F, []) ∧
    decodeBytes [0x20, 0, 0, 0] = .ok (.reserved20To3F 0x20, []) ∧ decodeBytes [0x3F, 0, 0, 0] = .ok (.reserved20To3F 0x3F, []) ∧
    decodeBytes [0x40, 0, 0, 0] = .ok (.reserved40To7F 0x40, []) ∧ decodeBytes [0x7F, 0, 0, 0] = .ok (.reserved40To7F 0x7F, []) ∧
    decodeBytes [0x80, 0, 0, 0] = .ok (.reserved80ToFF 0x80, []) ∧ decodeBytes [0xFF, 0, 0, 0] = .ok (.reserved80ToFF 0xFF, []) := by
  decide

theorem test_decode_truncated :
    decodeBytes [] = .error .truncatedWord ∧ decodeBytes [0x0E, 0x00, 0x00] = .error .truncatedWord := by decide

theorem test_decode_table_word :
    decodeTableWord 32 0x1234560E = some .encode ∧ decodeTableWord 8 0x10D = some .brExtract ∧
    decodeTableWord 32 0x2A = some (.reserved20To3F 0x2A) := by decide

theorem test_encode_words :
    encodeBytes .decode = [0x0F, 0x00, 0x00, 0x00] ∧ encodeBytes .bwFlush = [0x08, 0x00, 0x00, 0x00] ∧
    encodeBytes (.reserved80ToFF 0xFE) = [0xFE, 0x00, 0x00, 0x00] := by decide

/-- Every opcode lies in exactly one row of the table (R101, R102). -/
theorem test_one_row_each : ∀ opcode : Byte, (Laws.rowsOf (opcode.setWidth 32)).length = 1 := by decide

/-! ### WellFormed: an ill-formed term for each check -/

theorem test_illformed_10To1F :
    (Instr.reserved10To1F 0x0F).wellFormed = false ∧ (Instr.reserved10To1F 0x20).wellFormed = false := by decide

theorem test_illformed_20To3F :
    (Instr.reserved20To3F 0x1F).wellFormed = false ∧ (Instr.reserved20To3F 0x40).wellFormed = false := by decide

theorem test_illformed_40To7F :
    (Instr.reserved40To7F 0x3F).wellFormed = false ∧ (Instr.reserved40To7F 0x80).wellFormed = false := by decide

theorem test_illformed_80ToFF :
    (Instr.reserved80ToFF 0x7F).wellFormed = false ∧ (Instr.reserved80ToFF 0x0E).wellFormed = false := by decide

/-! ### One step each -/

/-- The command of opcode `op` started by the host in `s`, the block on turn. -/
def started (op : Byte) (s : State) : State := s.presentCommand (op.setWidth 32)

/-- The step from `s` answers a next state, and it has the property. -/
def after (s : State) (p : State → Bool) : Bool :=
  match step s with
  | .next t => p t
  | _ => false

theorem exists_of_after {s : State} {p : State → Bool} (h : after s p = true) : ∃ t, step s = .next t ∧ p t = true := by
  unfold after at h
  split at h
  · exact ⟨_, ‹_›, h⟩
  · cases h

/-- `s` with the turn `t` to take. -/
def turn (t : Turn) (s : State) : State := { s with agenda := [t] }

/-- `s` with the source `bytes` attached. -/
def source (bytes : List Byte) (s : State) : State := { s with src := bytes }

/-- `s` with the sentinel `e` and the encoding table `entries`. -/
def table (entries : List (Symbol × Bitstring)) (e : Symbol) (s : State) : State :=
  { s with enc := encOf entries, eofSym := e, eofValid := true }

/-- `s` with the operand `c` in CODE and CODE_LEN. -/
def operand (c : Bitstring) (s : State) : State := s.putCode c

/-- "aaab" as bytes. -/
def aaab : List Byte := [0x61, 0x61, 0x61, 0x62]

/-- The table of V-S1. -/
def twoCodes : List (Symbol × Bitstring) := [(0x61, [false]), (0x62, [true])]

/-! Registers and bus (V-R). -/

/-- V-R2: bits [31:8] of SYM are ignored. -/
theorem test_write_sym : after (turn (.busWrite 0x14 [0xFF, 0x01, 0, 0]) State.reset) fun t => t.regRead 0x14 == 0xFF := by decide

/-- V-R3. -/
theorem test_write_codeLen :
    after (turn (.busWrite 0x18 [0xFF, 0xFF, 0xFF, 0xFF]) State.reset) fun t => t.regRead 0x18 == 0xFFF := by decide

/-- V-R5: STATUS shows EOF_VALID and no DONE. -/
theorem test_write_eof : after (turn (.busWrite 0x10 [0x62, 0x01, 0, 0]) State.reset) fun t =>
    t.regRead 0x10 == 0x62 && t.regRead 0x04 == 0x80 := by decide +kernel

/-- V-R8: a write while BUSY only sets OVERRUN. -/
theorem test_write_busy : after { started 0x0E State.reset with agenda := [.busWrite 0x14 [0x61, 0, 0, 0]] } fun t =>
    t.regRead 0x14 == 0 && t.regRead 0x04 == 0x201 := by decide +kernel

/-- V-R9. -/
theorem test_write_freq : after (turn (.busWrite 0x24 [7, 0, 0, 0]) { State.reset with sym := 0x61 }) fun t =>
    t.regRead 0x24 == 7 && freqAt t.freq 0x62 == 0 := by decide +kernel

/-- V-R10: CODE[32] and CODE[63] are written, window 0 is not. -/
theorem test_write_codeData :
    after (turn (.busWrite 0x20 [0x01, 0, 0, 0x80]) { State.reset with codeIdx := 1 }) fun t =>
      t.code.getLsbD 32 && t.code.getLsbD 63 && codeWindow t.code 0 == 0 && codeWindow t.code 1 == 0x80000001 := by
  decide +kernel

/-- 20_memory.md R80: byte lane i carries bits [8i+7 : 8i]. -/
theorem test_read_lanes : after (turn (.busRead 0x18 4) { State.reset with codeLen := 0xABC }) fun t =>
    t.seen == [.lanes 0x18 [0xBC, 0x0A, 0, 0]] := by decide +kernel

theorem test_bad_accesses :
    step (turn (.busRead 0x02 4) State.reset) = .refused .windowAccess ∧
    step (turn (.busWrite 0x10 [1, 2]) State.reset) = .refused .windowAccess ∧
    step (turn (.busRead 0x40 4) State.reset) = .refused .outsideWindow := ⟨rfl, rfl, rfl⟩

/-! Control (V-X). -/

/-- V-X1. -/
theorem test_nop : after (started 0x00 { State.reset with err := true, errCode := 1, errDetail := 1, done := true }) fun t =>
    t.statusWord == 0x002 && t.errInfoWord == 0 := by decide +kernel

/-- V-W10, V-X3: CLEAR flushes first, then clears OVERRUN too. -/
theorem test_clear : after (started 0x01 { table twoCodes 0x62 State.reset with
      bwPend := [true, false, true], overrun := true, width := 1, srcPos := 7 }) fun t =>
    t.snk == [0xA0] && t.statusWord == 0x002 && t.width == 0 && t.srcPos == 7 && encAt t.enc 0x61 == none := by decide +kernel

/-- V-X2: 0x10, 0x2A, 0x40 and 0xFF, one for each reserved row. -/
theorem test_reserved : ∀ op ∈ [0x10, 0x2A, 0x40, 0xFF],
    after (started op State.reset) (fun t => t.statusWord == 0x006 && t.errInfoWord == 0x0104 && t.regRead 0 == op.setWidth 32) := by
  decide +kernel

/-! Tree Builder (V-B). -/

/-- V-B1. -/
theorem test_count : after (started 0x02 (source aaab State.reset)) fun t =>
    freqAt t.freq 0x61 == 3 && freqAt t.freq 0x62 == 1 && freqAt t.freq 0x63 == 0 && t.srcPos == 4 && t.statusWord == 0x002 := by
  decide +kernel

/-- FREQ of "abracadabra". -/
def abra : FreqTable :=
  freqSet (freqSet (freqSet (freqSet (freqSet freqZero 0x61 5) 0x62 2) 0x72 2) 0x63 1) 0x64 1

/-- V-B4: the lower of two least frequent symbols. -/
theorem test_selectEof : after (started 0x03 { State.reset with freq := abra }) fun t =>
    t.eofSym == 0x63 && t.statusWord == 0x082 := by decide +kernel

/-- V-B9. -/
theorem test_selectEof_empty : after (started 0x03 { State.reset with eofSym := 0x42 }) fun t =>
    t.errInfoWord == 0x0101 && t.statusWord == 0x006 && t.eofSym == 0x42 := by decide +kernel

/-- V-B4. -/
theorem test_build : after (started 0x04 { State.reset with freq := abra }) fun t =>
    encAt t.enc 0x61 == some [true] && encAt t.enc 0x62 == some [false, false, true] &&
    encAt t.enc 0x63 == some [false, true, true] && encAt t.enc 0x64 == some [false, true, false] &&
    encAt t.enc 0x72 == some [false, false, false] && encAt t.enc 0x65 == none := by decide +kernel

/-- V-B8: a tie, the lower symbol removed first. -/
theorem test_build_tie : after (started 0x04 { State.reset with freq := freqSet (freqSet freqZero 0x10 4) 0x20 4 }) fun t =>
    encAt t.enc 0x10 == some [true] && encAt t.enc 0x20 == some [false] := by decide +kernel

/-- V-B13: "011" is CODE_DATA(0) = 6. -/
theorem test_encLookup : after (started 0x05 { table [(0x63, [false, true, true])] 0x63 State.reset with sym := 0x63 }) fun t =>
    t.codeLen == 3 && codeWindow t.code 0 == 6 && t.statusWord == 0x0AA := by decide +kernel

/-- V-B12. -/
theorem test_encLookup_none : after (started 0x05 { table twoCodes 0x62 State.reset with sym := 0x63, codeLen := 9 }) fun t =>
    t.codeLen == 0 && t.found == false && t.err == false := by decide +kernel

/-- V-B14. -/
theorem test_encSet : after (started 0x06 { State.reset with sym := 0x41, code := 5, codeLen := 3 }) fun t =>
    encAt t.enc 0x41 == some [true, false, true] && t.statusWord == 0x022 := by decide +kernel

/-- V-B16. -/
theorem test_encSet_long : after (started 0x06 { State.reset with codeLen := 2040 }) fun t =>
    t.errInfoWord == 0x0304 && t.encValid == false := by decide +kernel

/-! Bit Writer (V-W). -/

/-- V-W3: a full word is written out, the ninth bit stays. -/
theorem test_bwInsert :
    after (started 0x07 { State.resetWith ⟨8, [], 0⟩ with code := 0x1CD, codeLen := 9 }) fun t =>
      t.snk == [0xB3] && t.bwPend == [true] && t.bwStatWord == 1 := by decide +kernel

/-- V-W6. -/
theorem test_bwInsert_long : after (started 0x07 { State.reset with codeLen := 2049 }) fun t =>
    t.errInfoWord == 0x0304 && t.bwPend == [] && t.snk == [] := by decide +kernel

/-- V-W2. -/
theorem test_bwFlush : after (started 0x08 { State.reset with bwPend := [true, false, true] }) fun t =>
    t.snk == [0xA0] && t.bwStatWord == 0 && t.statusWord == 0x002 := by decide +kernel

/-- V-W8. -/
theorem test_bwFlush_empty : after (started 0x08 State.reset) fun t => t.snk == [] := by decide +kernel

/-! Table Codec (V-C). -/

/-- V-C2. -/
theorem test_slots :
    slotWrite [false] 1 = [0x40] ∧ slotWrite [true] 2 = [0x00, 0xC0] ∧
    slotWrite (List.replicate 8 true) 2 = [0x80, 0xFF] ∧ slotWrite [false, true, true] 1 = [0x70] ∧
    slotRead [0x41] = some [false, true, false, false, false, false, false] ∧
    slotRead [0x80, 0x01] = some [false, false, false, false, false, false, false, true] ∧
    slotRead [0x00] = none ∧ slotRead [0x80] = none := by decide +kernel

/-- V-C3a. -/
theorem test_writeTable : after (started 0x09 (table twoCodes 0x62 State.reset)) fun t =>
    t.snk == [0x01, 0x61, 0x40, 0x61, 0xC0, 0x62] && t.width == 1 := by decide +kernel

/-- V-C3b: the sentinel as the sole entry. -/
theorem test_writeTable_sole : after (started 0x09 (table [(0x61, [true])] 0x61 State.reset)) fun t =>
    t.snk == [0x01, 0x61, 0xC0, 0x61, 0xC0, 0x61] := by decide +kernel

/-- V-C4b. -/
theorem test_readTable : after (started 0x0A (source [0x01, 0x61, 0x40, 0x61, 0xC0, 0x62, 0x1C, 0xAA] State.reset)) fun t =>
    t.dec == [([false], 0x61), ([true], 0x62)] && t.eofSym == 0x62 && t.width == 1 && t.statusWord == 0x0C2 && t.srcPos == 6 := by
  decide +kernel

/-- V-C4h. -/
theorem test_readTable_dup :
    after (started 0x0A (source [0x01, 0x61, 0x40, 0x62, 0xC0, 0x62, 0x61, 0xC0, 0x62] State.reset)) fun t =>
      t.errInfoWord == 0x0502 && t.srcPos == 6 && t.dec == [] && t.width == 0 := by decide +kernel

/-- V-C5. -/
theorem test_decLookup : after (started 0x0B { operand [true] State.reset with
      dec := [([false], 0x61), ([true], 0x62)], decValid := true }) fun t => t.sym == 0x62 && t.found := by decide +kernel

/-- V-C5: "10" is no key. -/
theorem test_decLookup_none : after (started 0x0B { operand [true, false] State.reset with
      dec := [([false], 0x61), ([true], 0x62)], decValid := true, sym := 0x33 }) fun t => t.sym == 0x33 && t.found == false := by
  decide +kernel

/-! Bit Reader (V-D). -/

/-- After READ_TABLE and BR_START of V-D1, and `k` payload bits taken from 0xB4. -/
def readerAtB4 (k : Nat) : State :=
  { source [0x01, 0x61, 0x40, 0x62, 0xA0, 0x61, 0xE0, 0x63, 0xB4] State.reset with
    dec := [([false], 0x61), ([true, false], 0x62), ([true, true], 0x63)], decValid := true, brValid := true, brMaxlen := 2,
    srcPos := if k = 0 then 8 else 9, brByte := if k = 0 then 0 else 0xB4, brNbits := if k = 0 then 0 else 8 - k }

/-- V-D1: BR_STAT after BR_START. -/
theorem test_brStart : after (started 0x0C { readerAtB4 0 with brValid := false, brMaxlen := 0 }) fun t =>
    t.brStatWord == 0x00020000 && t.brValid := by decide +kernel

/-- V-D3. -/
theorem test_brStart_notReady : after (started 0x0C State.reset) fun t => t.errInfoWord == 0x0204 && t.brValid == false := by
  decide +kernel

/-- V-D1 #2: the code "11" after the code "10". -/
theorem test_brExtract : after (started 0x0D (readerAtB4 2)) fun t =>
    t.codeLen == 2 && codeWindow t.code 0 == 3 && t.sym == 0x63 && t.found && t.brStatWord == 0x00020004 := by decide +kernel

/-- V-D1 #6: the source ends. -/
theorem test_brExtract_end : after (started 0x0D { readerAtB4 8 with sym := 0x61 }) fun t =>
    t.codeLen == 0 && t.sym == 0x61 && t.found == false && t.brStatWord == 0x00020020 := by decide +kernel

/-! Transcoder (V-T). -/

/-- V-T1. -/
theorem test_encode : after (started 0x0E (source aaab State.reset)) fun t =>
    t.snk == [0x01, 0x61, 0x40, 0x61, 0xC0, 0x62, 0x1C] && t.statusWord == 0x0A2 && t.srcPos == 4 := by decide +kernel

/-- V-T9: NOT_READY comes first. -/
theorem test_encode_notReady : after (started 0x0E { State.reset with bwPend := [true] }) fun t =>
    t.errInfoWord == 0x0204 && t.snk == [] := by decide +kernel

/-- V-T1: the escaped sentinel, the terminator and the peek. No ENCODE ran before, so ENC_VALID (0x020) is 0. -/
theorem test_decode : after (started 0x0F (source [0x01, 0x61, 0x40, 0x61, 0xC0, 0x62, 0x1C] State.reset)) fun t =>
    t.snk == aaab && t.statusWord == 0x0D2 && t.srcPos == 7 && t.brStatWord == 0x00010001 := by decide +kernel

/-- V-T8 (a): partial output is kept. -/
theorem test_decode_corrupt : after (started 0x0F (source [0x01, 0x61, 0x40, 0x61, 0xC0, 0x62, 0x3C] State.reset)) fun t =>
    t.errInfoWord == 0x0203 && t.statusWord == 0x0C6 && t.brStatWord == 0x00010020 &&
    t.snk == [0x61, 0x61, 0x62, 0x62, 0x61, 0x61] := by decide +kernel

/-- A presented command word is what the very next step runs. -/
theorem test_withFetchWord :
    step (State.reset.withFetchWord 32 0x1234560E) = exec .encode (State.reset.startCommand 0x1234560E) ∧
    step (State.reset.withFetchWord 8 0x0D) = exec .brExtract (State.reset.startCommand 0x0D) := ⟨rfl, rfl⟩

/-! ### Witnesses: concrete states and operands that meet the hypotheses of each obligation together

An obligation without hypotheses needs none: ResetValues, StatusBits, OpcodeMapWords, EveryCommandCompletesInItsFrame, ErrorNumbers,
ClearEffect, ReservedOpcodesRaise, BwFlushWritesPending. -/

/-- A busy state with a started ENCODE. -/
def busyState : State := started 0x0E State.reset

theorem witness_PlatformResetEffect : ({ busyState with agenda := [.platformReset, .block] } : State).agenda =
    .platformReset :: [.block] := rfl

theorem witness_StepRunsDecodedCommand :
    busyState.busy = true ∧ decodeBytes (wordLanes (busyState.pendingOp.setWidth 32)) = .ok (.encode, []) ∧
    busyState.agenda = [] ∧ ({ busyState with agenda := [.block] } : State).agenda = .block :: [] := by decide +kernel

theorem witness_IdleBlockKeepsState : State.reset.busy = false ∧ State.reset.agenda = [] ∧
    (turn .block State.reset).busy = false ∧ (turn .block State.reset).agenda = .block :: [] := ⟨rfl, rfl, rfl, rfl⟩

theorem witness_CommandStart : (turn (.busWrite 0 (wordLanes 0x1234560E)) State.reset).busy = false ∧
    (turn (.busWrite 0 (wordLanes 0x1234560E)) State.reset).agenda =
      .busWrite State.reset.params.base (wordLanes 0x1234560E) :: [] := ⟨rfl, rfl⟩

theorem witness_RegisterWrites : ∀ off ∈ [0x10, 0x14, 0x18, 0x1C, 0x24],
    (turn (.busWrite off (wordLanes 0xFFFFFFFF)) State.reset).busy = false ∧
    (turn (.busWrite off (wordLanes 0xFFFFFFFF)) State.reset).agenda =
      .busWrite (State.reset.params.base + off) (wordLanes 0xFFFFFFFF) :: [] := by decide +kernel

theorem witness_CodeDataWindow :
    (turn (.busWrite 0x20 (wordLanes 5)) { State.reset with codeIdx := 63 }).busy = false ∧ 31 < 32 ∧ 2047 < 2048 ∧
    (turn (.busWrite 0x20 (wordLanes 5)) { State.reset with codeIdx := 63 }).agenda =
      .busWrite (State.reset.params.base + 0x20) (wordLanes 5) :: [] := ⟨rfl, by omega, by omega, rfl⟩

theorem witness_ReadOnlyWritesIgnored : ∀ off ∈ [0x04, 0x08, 0x0C, 0x28, 0x2C, 0x30, 0x34, 0x38, 0x3C],
    (turn (.busWrite off (wordLanes 0xFFFFFFFF)) State.reset).busy = false ∧
    (turn (.busWrite off (wordLanes 0xFFFFFFFF)) State.reset).agenda =
      .busWrite (State.reset.params.base + off) (wordLanes 0xFFFFFFFF) :: [] := by decide +kernel

/-- A state with a table each way, a running reader, pending bits and a latched error. -/
def midState : State :=
  { table twoCodes 0x62 (readerAtB4 2) with
    bwPend := List.replicate 63 true, width := 1, done := true, err := true, errCode := 4, errDetail := 3 }

theorem encAt_twoCodes (b : Symbol) (c : Bitstring) :
    encAt (encOf twoCodes) b = some c ↔ (b = 0x61 ∧ c = [false]) ∨ (b = 0x62 ∧ c = [true]) := by
  rw [encAt_encOf (by decide)]
  simp [twoCodes]

theorem twoCodes_len : ∀ b c, encAt (encOf twoCodes) b = some c → 1 ≤ c.length ∧ c.length ≤ 2039 := by
  intro b c h
  rcases (encAt_twoCodes b c).1 h with ⟨-, rfl⟩ | ⟨-, rfl⟩ <;> simp

theorem twoCodes_prefixFree : EncPrefixFree (encOf twoCodes) := by
  intro b c x y hbc hx hy
  rcases (encAt_twoCodes b x).1 hx with ⟨rfl, rfl⟩ | ⟨rfl, rfl⟩ <;>
    rcases (encAt_twoCodes c y).1 hy with ⟨rfl, rfl⟩ | ⟨rfl, rfl⟩ <;> simp at hbc ⊢

theorem twoCodes_distinct : EncDistinct (encOf twoCodes) := by
  intro b c x hx hy
  rcases (encAt_twoCodes b x).1 hx with ⟨rfl, rfl⟩ | ⟨rfl, rfl⟩ <;>
    rcases (encAt_twoCodes c _).1 hy with ⟨rfl, h⟩ | ⟨rfl, h⟩ <;> simp_all

theorem witness_RegisterReadValues : midState.Inv where
  params_legal := rfl
  srcPos_le := by decide
  bwPend_lt := by decide
  enc_len := twoCodes_len
  dec_sorted := by decide
  dec_len := by decide
  dec_inj := by decide
  decValid_iff := by decide
  reader_over_dec := by decide
  brMaxlen_le := by decide
  brNbits_le := by decide
  brFail_valid := by decide
  busy_clean := by decide
  no_err_zero := by decide
  err_listed := fun _ => ⟨.encSet, .badOperand, by decide, rfl, rfl⟩

theorem witness_IdleBusRead : (turn (.busRead 0x3C 4) State.reset).busy = false ∧ 15 < 16 ∧
    (turn (.busRead 0x3C 4) State.reset).agenda = .busRead (State.reset.params.base + 4 * 15) 4 :: [] :=
  ⟨rfl, by omega, rfl⟩

theorem witness_BusyAccess : ∀ k ∈ [0, 1, 15], busyState.busy = true ∧ k < 16 ∧
    ({ busyState with agenda := [.busWrite (4 * k) (wordLanes 7)] } : State).agenda =
      .busWrite (busyState.params.base + 4 * k) (wordLanes 7) :: [] ∧
    ({ busyState with agenda := [.busRead (4 * k) 4] } : State).agenda =
      .busRead (busyState.params.base + 4 * k) 4 :: [] := by decide +kernel

theorem witness_MisshapenAccessRefused :
    63 < 64 ∧ (4 ≠ 4 ∨ 63 % 4 ≠ 0) ∧ [0, 0, 0, 0].length = 4 ∧ 0 < 64 ∧ (2 ≠ 4 ∨ 0 % 4 ≠ 0) ∧ [0, 0].length = 2 ∧
    (turn (.busRead 63 4) State.reset).agenda = .busRead (State.reset.params.base + 63) 4 :: [] ∧
    (turn (.busWrite 0 [0, 0]) State.reset).agenda = .busWrite (State.reset.params.base + 0) [0, 0] :: [] := by
  decide +kernel

theorem witness_StreamMoves :
    (turn (.attach aaab) State.reset).agenda = .attach aaab :: [] ∧ (turn .lookSink State.reset).agenda = .lookSink :: [] ∧
    (turn .drain busyState).agenda = .drain :: [] := ⟨rfl, rfl, rfl⟩

theorem witness_DecodeOfEncode : ∀ i ∈ [Instr.nop, .decode, .reserved10To1F 0x10, .reserved10To1F 0x1F, .reserved20To3F 0x3F,
    .reserved40To7F 0x40, .reserved80ToFF 0xFF], i.wellFormed = true := by decide

theorem witness_EveryWordIsOneCommand : ([0x0E, 0x00, 0x00] : List Byte).length < 4 := by decide

theorem witness_ResetMeetsInvariant :
    Params.legal ⟨8, [0x48, 0x46], 0⟩ = true ∧ Params.legal ⟨128, [], 64⟩ = true := by decide

/-- `midState` with the block on turn and a started NOP. -/
def midBusy : State := { started 0x00 midState with pendingOp := 0x00 }

theorem witness_StepKeepsInvariant : midState.Inv ∧ step midState = .next midState ∧ ∃ t, step midBusy = .next t :=
  ⟨witness_RegisterReadValues, rfl, _, rfl⟩

theorem witness_SinkOnlyGrows : ∃ t, exec .bwFlush midState = .next t := ⟨_, rfl⟩

theorem witness_ParametersNeverChange : step State.reset = .next State.reset := rfl

theorem witness_OverrunClearedOnlyByClearOrReset :
    (∃ t, step { midState with agenda := [.platformReset], overrun := true } = .next t ∧ t.overrun = false) ∧
    ∃ t, step { started 0x01 midState with overrun := true } = .next t ∧ t.overrun = false := ⟨⟨_, rfl, rfl⟩, _, rfl, rfl⟩

/-- A started DECODE of V-T1's stream. -/
def decodeState : State := started 0x0F (source [0x01, 0x61, 0x40, 0x61, 0xC0, 0x62, 0x1C] State.reset)

theorem witness_ReaderStartedOnlyByStart :
    (∃ t, step (started 0x0C { readerAtB4 0 with brValid := false }) = .next t ∧ t.brValid = true) ∧
    decodeState.brValid = false ∧ ∃ t, step decodeState = .next t ∧ t.brValid = true :=
  ⟨⟨_, rfl, rfl⟩, rfl, exists_of_after (p := fun t => t.brValid) (by decide +kernel)⟩

theorem witness_ErrorsAreListed : ∃ t, exec .brStart State.reset = .next t := ⟨_, rfl⟩

theorem witness_NopEffect :
    ({ State.reset with agenda := [.busWrite 0 [0, 0, 0, 0], .block] } : State).busy = false ∧
    ({ State.reset with agenda := [.busWrite 0 [0, 0, 0, 0], .block] } : State).agenda =
      .busWrite State.reset.params.base [0, 0, 0, 0] :: .block :: [] := ⟨rfl, rfl⟩

theorem witness_CountCounts : (source [] State.reset).src.length < 2 ^ 32 ∧
    (source (List.replicate (2 ^ 32 - 1) 0x61) State.reset).src.length < 2 ^ 32 := by
  refine ⟨by decide, ?_⟩
  show (List.replicate (2 ^ 32 - 1) (0x61 : Byte)).length < 2 ^ 32
  rw [List.length_replicate]
  omega

theorem witness_CountOverflows : 2 ^ 32 ≤ (source (List.replicate (2 ^ 32) 0x61) State.reset).src.length := by
  show 2 ^ 32 ≤ (List.replicate (2 ^ 32) (0x61 : Byte)).length
  rw [List.length_replicate]

/-- FREQ with the count `n` of one symbol. -/
def oneCount (b : Symbol) (n : Count) : State := { State.reset with freq := freqSet freqZero b n }

theorem witness_SelectEofChooses :
    (∃ b, freqAt (oneCount 0xFF 0xFFFFFFFF).freq b ≠ 0) ∧ ∀ b, freqAt State.reset.freq b = 0 :=
  ⟨⟨0xFF, by decide⟩, freqAt_freqZero⟩

theorem witness_BuildDegenerate :
    (freqAt (oneCount 0xFF 1).freq 0xFF ≠ 0 ∧ ∀ c, c ≠ 0xFF → freqAt (oneCount 0xFF 1).freq c = 0) ∧
    ∀ b, freqAt State.reset.freq b = 0 := by
  refine ⟨⟨by decide, fun c hc => ?_⟩, freqAt_freqZero⟩
  show freqAt (freqSet freqZero 0xFF 1) c = 0
  rw [freqAt_freqSet, if_neg hc, freqAt_freqZero]

/-- The counts of "abracadabra": 0x63 and 0x64 leave the queue first, and 0x61 is more frequent than both. -/
theorem witness_BuildMakesCompletePrefixCode :
    let s : State := { State.reset with freq := abra }
    (∃ b, freqAt s.freq b ≠ 0) ∧ (0x63 : Symbol) ≠ 0x64 ∧ freqAt s.freq 0x63 ≠ 0 ∧ freqAt s.freq 0x64 ≠ 0 ∧
    (freqAt s.freq 0x63 = freqAt s.freq 0x64 ∧ (0x63 : Symbol) < 0x64) ∧
    (freqAt s.freq 0x61 ≠ 0 ∧ freqAt s.freq 0x63 < freqAt s.freq 0x61) ∧
    (∀ d, freqAt s.freq d ≠ 0 →
      freqAt s.freq 0x63 < freqAt s.freq d ∨ (freqAt s.freq 0x63 = freqAt s.freq d ∧ 0x63 ≤ d)) ∧
    (∀ d, freqAt s.freq d ≠ 0 → d ≠ 0x63 →
      freqAt s.freq 0x64 < freqAt s.freq d ∨ (freqAt s.freq 0x64 = freqAt s.freq d ∧ 0x64 ≤ d)) ∧
    ∃ t x y z, exec .build s = .next t ∧ encAt t.enc 0x63 = some x ∧ encAt t.enc 0x64 = some y ∧
      encAt t.enc 0x61 = some z := by
  refine ⟨⟨0x61, by decide⟩, by decide, by decide, by decide, by decide, by decide, by decide +kernel, by decide +kernel, ?_⟩
  obtain ⟨enc, he, hs, -⟩ := buildBody_spec (s := { State.reset with freq := abra }) ⟨0x61, by decide⟩
  obtain ⟨x, hx⟩ := Option.ne_none_iff_exists'.1 ((hs 0x63).2 (by decide))
  obtain ⟨y, hy⟩ := Option.ne_none_iff_exists'.1 ((hs 0x64).2 (by decide))
  obtain ⟨z, hz⟩ := Option.ne_none_iff_exists'.1 ((hs 0x61).2 (by decide))
  refine ⟨_, x, y, z, congrArg finish he, hx, hy, hz⟩

theorem witness_SentinelCodeEndsInOne :
    (∃ b, freqAt ({ State.reset with freq := abra } : State).freq b ≠ 0) ∧
    ∃ t u, exec .selectEof { State.reset with freq := abra } = .next t ∧ exec .build t = .next u := by
  refine ⟨⟨0x61, by decide⟩, ?_⟩
  obtain ⟨t, ht, -⟩ := finish_next (selectEofBody { State.reset with freq := abra })
  obtain ⟨u, hu, -⟩ := finish_next (buildBody t)
  exact ⟨t, u, ht, hu⟩

/-- A table of one code of 2039 zeros, for the symbol of SYM. -/
def longCode : State := { State.reset with enc := encPut encEmpty 0 (some (List.replicate 2039 false)) }

theorem witness_EncLookupResult :
    (encAt longCode.enc longCode.sym = some (List.replicate 2039 false) ∧ (List.replicate 2039 false).length ≤ 2039) ∧
    encAt State.reset.enc State.reset.sym = none := by
  refine ⟨⟨?_, by rw [List.length_replicate]⟩, encAt_encEmpty _⟩
  show encAt (encPut encEmpty 0 _) 0 = _
  rw [encAt_encPut, if_pos rfl]

theorem witness_EncSetEffect :
    ({ State.reset with codeLen := 2039 } : State).codeLen.toNat ≤ 2039 ∧ State.reset.codeLen = 0 ∧
    ({ State.reset with codeLen := 2039 } : State).codeLen ≠ 0 ∧
    2039 < ({ State.reset with codeLen := 2040 } : State).codeLen.toNat := by decide

theorem witness_BwInsertKeepsEveryBit :
    midState.params.legal = true ∧ midState.bwPend.length < midState.params.wordBits ∧
    ({ midState with codeLen := 2048 } : State).codeLen.toNat ≤ 2048 ∧
    2048 < ({ midState with codeLen := 2049 } : State).codeLen.toNat := by decide

theorem witness_FlushedBytesIndependentOfWordBits :
    let s : State := { State.resetWith ⟨8, [], 0⟩ with bwPend := List.replicate 7 true }
    let u : State := { State.resetWith ⟨128, [], 0⟩ with bwPend := List.replicate 7 true }
    s.params.legal = true ∧ u.params.legal = true ∧ s.bwPend = u.bwPend ∧ s.bwPend.length < s.params.wordBits ∧
      u.bwPend.length < u.params.wordBits ∧ s.snk = u.snk := by decide

theorem witness_SlotRoundTrip :
    (1 ≤ [true].length ∧ [true].length ≤ 8 * 1 - 1) ∧
    (1 ≤ (List.replicate 2039 true).length ∧ (List.replicate 2039 true).length ≤ 8 * 255 - 1) := by
  rw [List.length_replicate]; decide

theorem witness_SlotBitPositions :
    1 ≤ [true, false].length ∧ [true, false].length ≤ 8 * 1 - 1 ∧ 0 < 8 * 1 ∧ 7 < 8 * 1 := by decide

/-- The state of V-C3a. -/
def tableState : State := table twoCodes 0x62 State.reset

theorem witness_WriteTablePreamble :
    tableState.eofValid = true ∧ encAt tableState.enc tableState.eofSym = some ([] ++ [true]) ∧ tableState.bwPend = [] ∧
    ∀ b c, encAt tableState.enc b = some c → 1 ≤ c.length ∧ c.length ≤ 2039 :=
  ⟨rfl, (encAt_twoCodes _ _).2 (.inr ⟨rfl, rfl⟩), rfl, twoCodes_len⟩

theorem witness_WriteTableNotReady :
    State.reset.eofValid = false ∧ encAt ({ State.reset with eofValid := true } : State).enc 0 = none ∧
    ({ tableState with bwPend := [true] } : State).bwPend ≠ [] := ⟨rfl, encAt_encEmpty _, by decide⟩

/-- The first entry, no further entry, of V-C4a. -/
def firstA : Symbol × Bitstring × List Byte := (0x61, [false], [0x40])

theorem firstA_slot : ∀ p ∈ [firstA], SlotOf (1 : Byte).toNat p.2.1 p.2.2 := by
  unfold SlotOf; decide +kernel

theorem eofSlot_slot : SlotOf (1 : Byte).toNat [true] [0xC0] := by unfold SlotOf; decide +kernel

theorem witness_ReadTableAcceptsPreambles :
    (1 : Byte) ≠ 0 ∧
    (source [0x01, 0x61, 0x40, 0x61, 0xC0, 0x62, 0x1C] State.reset).unread =
      preambleBytes 1 firstA [] [0xC0] 0x62 ++ [0x1C] ∧
    ((firstA :: []).map Prod.fst).Nodup ∧ (∀ p ∈ [firstA], SlotOf (1 : Byte).toNat p.2.1 p.2.2) ∧
    SlotOf (1 : Byte).toNat [true] [0xC0] ∧ (∀ p ∈ [firstA], (p.1 = 0x62 ↔ p.2.1 = [true])) ∧
    ((firstA :: []).map fun p => p.2.1).Nodup :=
  ⟨by decide, by decide, by decide, firstA_slot, eofSlot_slot, by decide, by decide⟩

theorem witness_ReadTableErrorClears :
    State.reset.err = false ∧ ∃ t, exec .readTable State.reset = .next t ∧ t.err = true := ⟨rfl, _, rfl, rfl⟩

/-- A second entry, of the symbol 0x62. -/
def entryB (c : Bitstring) (slot : Byte) : Symbol × Bitstring × List Byte := (0x62, c, [slot])

/-- V-C4d to V-C4j: a source for each clause. -/
theorem witness_ReadTableErrors :
    (source [0x00, 0x61] State.reset).unread = 0 :: [0x61] ∧
    ((1 : Byte) ≠ 0 ∧ ((firstA :: [entryB [true, true] 0xE0]).map Prod.fst).Nodup ∧
      (∀ p ∈ [firstA, entryB [true, true] 0xE0], SlotOf (1 : Byte).toNat p.2.1 p.2.2) ∧
      SlotOf (1 : Byte).toNat [true] [0xC0]) ∧
    ([0x61, 0xC0, 0x62] : List Byte) ≠ [] ∧
    (source [0x01, 0x61, 0x40] State.reset).unread ++ [0x61, 0xC0, 0x62] = preambleBytes 1 firstA [] [0xC0] 0x62 ∧
    (([0x80] : List Byte).length = (1 : Byte).toNat ∧ ∀ p < 8 * (1 : Byte).toNat - 1, bitAt [0x80] p = false) ∧
    (source [0x01, 0x61, 0x80, 0x61] State.reset).unread = 1 :: 0x61 :: [0x80] ++ [0x61] ∧
    ((0x62 : Byte) ∉ (firstA :: []).map Prod.fst ∧ (source [0x01, 0x61, 0x40, 0x62, 0x80, 0x33] State.reset).unread =
      ([1] ++ [firstA].flatMap fun p => p.1 :: p.2.2) ++ 0x62 :: [0x80] ++ [0x33]) ∧
    (source [0x01, 0x61, 0x40, 0x61, 0x80, 0x62] State.reset).unread =
      ([1] ++ [firstA].flatMap fun p => p.1 :: p.2.2) ++ firstA.1 :: [0x80] ++ [0x62] ∧
    ((0x62 : Byte) ∈ [entryB [true, true] 0xE0].map Prod.fst ∧
      (source [0x01, 0x61, 0x40, 0x62, 0xE0, 0x62, 0x33] State.reset).unread =
        ([1] ++ [firstA, entryB [true, true] 0xE0].flatMap fun p => p.1 :: p.2.2) ++ 0x62 :: [0x33]) ∧
    ((source [0x01, 0x61, 0x40, 0x62, 0xE0, 0x61, 0xC0, 0x62] State.reset).unread =
        preambleBytes 1 firstA [entryB [true, true] 0xE0] [0xC0] 0x62 ++ [] ∧
      ∃ p ∈ [firstA, entryB [true, true] 0xE0], p.1 = 0x62 ∧ p.2.1 ≠ [true]) ∧
    ((source [0x01, 0x61, 0x40, 0x62, 0x40, 0x61, 0xC0, 0x63] State.reset).unread =
        preambleBytes 1 firstA [entryB [false] 0x40] [0xC0] 0x63 ++ [] ∧
      (∀ p ∈ [firstA, entryB [false] 0x40], p.1 = 0x63 → p.2.1 = [true]) ∧
      ∃ p ∈ [firstA, entryB [false] 0x40], ∃ q ∈ [firstA, entryB [false] 0x40], p.1 ≠ q.1 ∧ p.2.1 = q.2.1) ∧
    ∃ p ∈ [firstA, entryB [true] 0xC0], p.1 ≠ 0x63 ∧ p.2.1 = [true] := by
  unfold SlotOf; decide +kernel

theorem tableState_writes : ∃ t, exec .writeTable tableState = .next t := by
  obtain ⟨t, ht, -⟩ := finish_next (writeTableBody tableState)
  exact ⟨t, ht⟩

theorem witness_TableRoundTrip :
    tableState.eofValid = true ∧ encAt tableState.enc tableState.eofSym ≠ none ∧ tableState.bwPend = [] ∧
    EncDistinct tableState.enc ∧ (∀ b c, encAt tableState.enc b = some c → 1 ≤ c.length ∧ c.length ≤ 2039) ∧
    (∃ t, exec .writeTable tableState = .next t) ∧
    (source [0x01, 0x61, 0x40, 0x61, 0xC0, 0x62] State.reset).unread = [0x01, 0x61, 0x40, 0x61, 0xC0, 0x62] :=
  ⟨rfl, by decide +kernel, rfl, twoCodes_distinct, twoCodes_len, tableState_writes, rfl⟩

theorem witness_DecLookupResult :
    let s : State := { operand [false] (readerAtB4 0) with found := false }
    (s.codeLen.toNat ≤ 2048 ∧ [false].length = s.codeLen.toNat ∧
      (∀ i < [false].length, [false].getD i false = s.code.getLsbD i) ∧ decAt s.dec [false] = some 0x61) ∧
    decAt State.reset.dec (List.replicate 2048 false) = none ∧ (2048 : BitVec 12).toNat ≤ 2048 ∧
    2048 < ({ s with codeLen := 2049 } : State).codeLen.toNat := by decide +kernel

theorem witness_BrStartEffect : (readerAtB4 0).decValid = true ∧ (readerAtB4 0).dec ≠ [] ∧
    decAt (readerAtB4 0).dec [true, false] = some 0x62 ∧ State.reset.decValid = false := by decide

theorem witness_ExtractTakesShortestKey :
    (readerAtB4 0).brValid = true ∧ (readerAtB4 0).brNbits ≤ 8 ∧ (readerAtB4 0).brMaxlen ≤ 2039 ∧
    (readerAtB4 0).bitsAhead = [true, false] ++ [true, true, false, true, false, false] ∧ [true, false] ≠ [] ∧
    [true, false].length ≤ (readerAtB4 0).brMaxlen + 1 ∧ decAt (readerAtB4 0).dec [true, false] = some 0x62 ∧
    ∀ y, y ≠ [] → y <+: [true, false] → y ≠ [true, false] → decAt (readerAtB4 0).dec y = none := by
  refine ⟨by decide, by decide, by decide, by decide +kernel, by decide, by decide, by decide, fun y hy hp hne => ?_⟩
  have : y ∈ [true, false].inits := (List.mem_inits _ _).2 hp
  simp at this
  rcases this with rfl | rfl | rfl
  · exact absurd rfl hy
  · decide
  · exact absurd rfl hne

/-- V-D2 after its first extraction: DEC {"1": 61}, seven zero bits ahead. -/
def oneKey : State :=
  { State.reset with
    dec := [([true], 0x61)], decValid := true, brValid := true, brMaxlen := 1, brByte := 0x80, brNbits := 7 }

theorem noKey_zeros (n : Nat) : ∀ y, y ≠ [] → y <+: List.replicate n false → decAt oneKey.dec y = none := by
  intro y hy hp
  have hmem : true ∉ y := fun h => by
    have := hp.subset h
    simp at this
  show decAt [([true], 0x61)] y = none
  rw [decAt_cons, if_neg, decAt_nil]
  rintro rfl
  exact hmem (by simp)

theorem witness_ExtractFails :
    (oneKey.brValid = true ∧ oneKey.brNbits ≤ 8 ∧ oneKey.bitsAhead = List.replicate 2 false ++ List.replicate 5 false ∧
      (List.replicate 2 false).length = oneKey.brMaxlen + 1 ∧
      ∀ y, y ≠ [] → y <+: List.replicate 2 false → decAt oneKey.dec y = none) ∧
    (({ oneKey with brNbits := 1 } : State).bitsAhead = List.replicate 1 false ++ [] ∧
      (List.replicate 1 false).length ≤ oneKey.brMaxlen ∧
      ∀ y, y ≠ [] → y <+: List.replicate 1 false → decAt oneKey.dec y = none) ∧
    State.reset.brValid = false :=
  ⟨⟨rfl, by decide, by decide +kernel, by decide, noKey_zeros 2⟩, ⟨by decide +kernel, by decide, noKey_zeros 1⟩, rfl⟩

theorem witness_ExtractConsumesBoundedBits : (readerAtB4 2).brNbits ≤ 8 ∧ (readerAtB4 2).srcPos ≤ (readerAtB4 2).src.length ∧
    ∃ t, exec .brExtract (readerAtB4 2) = .next t := by
  refine ⟨by decide, by decide, ?_⟩
  obtain ⟨t, ht, -⟩ := finish_next (brExtractBody (readerAtB4 2))
  exact ⟨t, ht⟩

theorem witness_EncodeWritesStream :
    (source aaab State.reset).params.legal = true ∧ (source aaab State.reset).bwPend = [] ∧
    (source aaab State.reset).src ≠ [] ∧ (source aaab State.reset).src.length < 2 ^ 32 := by decide

theorem witness_EncodeErrors :
    ({ State.reset with bwPend := [true] } : State).bwPend ≠ [] ∧ State.reset.bwPend = [] ∧ State.reset.src = [] ∧
    2 ^ 32 ≤ (source (List.replicate (2 ^ 32) 0x61) State.reset).src.length :=
  ⟨by decide, rfl, rfl, witness_CountOverflows⟩

theorem witness_DecodeHeaderErrorWritesNothing :
    State.reset.err = false ∧ ∃ t, exec .decode State.reset = .next t ∧ t.err = true ∧ t.errCode = 2 :=
  ⟨rfl, _, rfl, rfl, rfl⟩

/-- The parameters of V-T7. -/
def magicState : State := State.resetWith ⟨64, [0x48, 0x46], 0⟩

theorem witness_DecodeChecksMagic :
    magicState.params.magic = [0x48] ++ 0x46 :: [] ∧ (0x47 : Byte) ≠ 0x46 ∧
    (source [0x48, 0x47, 0x01] magicState).unread = [0x48] ++ 0x47 :: [0x01] ∧
    (source [0x48] magicState).unread = [0x48] := by decide

theorem tableState_stream :
    ∃ w1, exec .writeTable tableState = .next w1 ∧ w1.snk = [0x01, 0x61, 0x40, 0x61, 0xC0, 0x62] := by
  obtain ⟨t, ht, hp⟩ := exists_of_after (s := started 0x09 tableState)
    (p := fun t => t.snk == [0x01, 0x61, 0x40, 0x61, 0xC0, 0x62]) (by decide +kernel)
  obtain ⟨w1, hw, -⟩ := finish_next (writeTableBody tableState)
  have hb : ∀ u, writeTableBody tableState = u → u.state.snk = w1.snk := by
    rintro u rfl
    rcases finish_cases hw with ⟨v, hv, rfl⟩ | ⟨e, v, hv, rfl⟩ <;> rw [hv] <;> rfl
  refine ⟨w1, hw, ?_⟩
  rw [← hb _ rfl]
  decide +kernel

/-- The table of one code, "0", so that a 1 matches nothing. -/
def zeroState : State := table [(0x61, [false])] 0x61 State.reset

theorem encAt_zero (b : Symbol) (c : Bitstring) : encAt zeroState.enc b = some c ↔ b = 0x61 ∧ c = [false] := by
  show encAt (encOf [(0x61, [false])]) b = some c ↔ _
  rw [encAt_encOf (by decide)]
  simp

/-- V-T1 and V-T8 b, where the peek is a code; seven `a` and the terminator in one byte, where nothing is left to peek at; and the one
code "0" with 1s behind the terminator, where the peek matches nothing. -/
theorem witness_DecodeRecoversContent :
    (tableState.snk = [] ∧ tableState.bwPend = [] ∧ tableState.eofValid = true ∧
      encAt tableState.enc tableState.eofSym = some [true] ∧ EncPrefixFree tableState.enc ∧
      (∀ b c, encAt tableState.enc b = some c → 1 ≤ c.length ∧ c.length ≤ 2039) ∧
      (∀ b ∈ aaab, encAt tableState.enc b ≠ none) ∧ encAt tableState.enc 0x61 = some [false] ∧
      ∃ w1, exec .writeTable tableState = .next w1 ∧
        ∀ payload, (source ([0x01, 0x61, 0x40, 0x61, 0xC0, 0x62] ++ payload) State.reset).unread =
          State.reset.params.magic ++ w1.snk ++ payload) ∧
    (bitsOfBytes [0x1C] = payloadBits tableState.enc tableState.eofSym aaab ++ [false, false] ∧
      [true] = [] ++ [true] ∧ [false, false] = List.replicate 2 false) ∧
    (bitsOfBytes [0x9C] = payloadBits tableState.enc tableState.eofSym [] ++ [false, false, true, true, true, false, false] ∧
      ¬ [true] <+: [false, false, true, true, true, false, false] ∧
      [false] <+: [false, false, true, true, true, false, false]) ∧
    (bitsOfBytes [0x01] = payloadBits tableState.enc tableState.eofSym (List.replicate 7 0x61) ++ [] ∧
      ¬ [true] <+: ([] : Bitstring) ∧ ¬ [false] <+: ([] : Bitstring)) ∧
    (encAt zeroState.enc zeroState.eofSym = some [false] ∧
      bitsOfBytes [0x7F] = payloadBits zeroState.enc zeroState.eofSym [] ++ List.replicate 7 true ∧
      (∀ b c, encAt zeroState.enc b = some c → ¬ c <+: List.replicate 7 true ∧ c.length < 7)) := by
  refine ⟨⟨rfl, rfl, rfl, witness_WriteTablePreamble.2.1, twoCodes_prefixFree, twoCodes_len, by decide +kernel,
    by decide +kernel, ?_⟩, ⟨by decide +kernel, rfl, rfl⟩, ⟨by decide +kernel, by decide, by decide⟩,
    ⟨by decide +kernel, by decide, by decide⟩, (encAt_zero _ _).2 ⟨rfl, rfl⟩, by decide +kernel, fun b c h => ?_⟩
  · obtain ⟨w1, h1, h2⟩ := tableState_stream
    exact ⟨w1, h1, fun payload => by rw [h2]; rfl⟩
  · rw [((encAt_zero b c).1 h).2]; decide

theorem witness_DecodeReportsCorruptStream :
    zeroState.snk = [] ∧ zeroState.bwPend = [] ∧ zeroState.eofValid = true ∧
    encAt zeroState.enc zeroState.eofSym = some [false] ∧ EncPrefixFree zeroState.enc ∧
    (∀ b c, encAt zeroState.enc b = some c → 1 ≤ c.length ∧ c.length ≤ 2039) ∧
    (∀ b ∈ [(0x61 : Byte)], encAt zeroState.enc b ≠ none) ∧ (∃ w1, exec .writeTable zeroState = .next w1 ∧
      (source (w1.snk ++ [0x3F]) State.reset).unread = State.reset.params.magic ++ w1.snk ++ [0x3F]) ∧
    payloadBits zeroState.enc zeroState.eofSym [0x61] = [false, false] ++ [false] ∧
    (∀ b c, encAt zeroState.enc b = some c → ¬ c <+: List.replicate 6 true) ∧
    bitsOfBytes [0x3F] = [false, false] ++ List.replicate 6 true ∧
    (∀ b c, encAt zeroState.enc b = some c → c.length < (List.replicate 6 true).length) ∧
    payloadBits zeroState.enc zeroState.eofSym [] = [] ++ [false] ∧ bitsOfBytes [] = [] ++ [] ∧
    (∀ b c, encAt zeroState.enc b = some c → ¬ c <+: ([] : Bitstring)) ∧
    ∃ b c, encAt zeroState.enc b = some c ∧ ([] : Bitstring).length ≤ c.length := by
  obtain ⟨w1, hw, -⟩ := finish_next (writeTableBody zeroState)
  refine ⟨rfl, rfl, rfl, (encAt_zero _ _).2 ⟨rfl, rfl⟩, ?_, ?_, by decide +kernel, ⟨w1, hw, rfl⟩, by decide +kernel, ?_,
    by decide +kernel, ?_, by decide +kernel, rfl, ?_, ⟨0x61, [false], (encAt_zero _ _).2 ⟨rfl, rfl⟩, by simp⟩⟩
  · intro b c x y hbc hx hy
    exact absurd (((encAt_zero b x).1 hx).1.trans ((encAt_zero c y).1 hy).1.symm) hbc
  · intro b c h
    rw [((encAt_zero b c).1 h).2]; simp
  · intro b c h
    rw [((encAt_zero b c).1 h).2]; decide
  · intro b c h
    rw [((encAt_zero b c).1 h).2]; decide
  · intro b c h
    rw [((encAt_zero b c).1 h).2]; simp

theorem witness_EncodeDecodeRoundTrip :
    (source [0x61] State.reset).params.legal = true ∧ (source [0x61] State.reset).bwPend = [] ∧
    1 ≤ (source [0x61] State.reset).src.length ∧ (source [0x61] State.reset).src.length ≤ 2 ^ 32 - 1 ∧
    (source (List.replicate (2 ^ 32 - 1) 0x61) State.reset).src.length ≤ 2 ^ 32 - 1 := by
  refine ⟨rfl, rfl, by decide, by decide, ?_⟩
  show (List.replicate (2 ^ 32 - 1) (0x61 : Byte)).length ≤ 2 ^ 32 - 1
  rw [List.length_replicate]

end Sys2Proof.Tests
end

section
/-! The Bit Writer's output does not depend on WORD_BITS (41_bit_writer.md R172, 00_scope.md R10). -/

namespace Sys2Proof.Machine

/-- A legal WORD_BITS is a whole number of bytes (R10). -/
theorem Params.wordBits_mod_eight {p : Params} (h : p.legal = true) : p.wordBits % 8 = 0 := by
  obtain ⟨⟨h8, -⟩, -⟩ : (p.wordBits % 8 = 0 ∧ 8 ≤ p.wordBits) ∧ p.wordBits ≤ 128 := by
    simpa only [Params.legal, Bool.and_eq_true, beq_iff_eq, decide_eq_true_eq] using h
  exact h8

/-- The sink after insertions and a flush, written without WORD_BITS: the pending and the inserted bits, packed and padded once
(R170 to R173). -/
theorem writerFlush_foldl_writerInsert_snk {s : State} (hl : s.params.legal = true)
    (hp : s.bwPend.length < s.params.wordBits) (codes : List Bitstring) :
    (codes.foldl State.writerInsert s).writerFlush.snk = s.snk ++ emitBits (s.bwPend ++ codes.flatten) := by
  rw [foldl_writerInsert, State.writerFlush_snk, State.writerInsert_snk, State.writerInsert_bwPend, List.append_assoc,
    writerLoop_flush (Params.wordBits_mod_eight hl) hp]

/-- Settles O40: both sinks are the same old sink followed by the packing of the same bits. -/
theorem flushedBytesIndependentOfWordBits : Obligations.FlushedBytesIndependentOfWordBits := by
  intro s u codes hs hu hpend hps hpu hsnk
  rw [writerFlush_foldl_writerInsert_snk hs hps, writerFlush_foldl_writerInsert_snk hu hpu, hpend, hsnk]

end Sys2Proof.Machine
end

section
/-! The rule of each command apart from its completion step: what it writes and what it can raise (10_state.md R38,
30_encoding.md R101, 60_exceptions.md R273). -/

namespace Sys2Proof.Machine

/-- The rule of a command, before its completion step (10_state.md R38). `exec_eq_finish_rule` ties it to exec. -/
def ruleOf : Instr → State → Body
  | .nop => .ok
  | .clear => clearBody
  | .count => countBody
  | .selectEof => selectEofBody
  | .build => buildBody
  | .encLookup => encLookupBody
  | .encSet => encSetBody
  | .bwInsert => bwInsertBody
  | .bwFlush => bwFlushBody
  | .writeTable => writeTableBody
  | .readTable => readTableBody
  | .decLookup => decLookupBody
  | .brStart => brStartBody
  | .brExtract => brExtractBody
  | .encode => encodeBody
  | .decode => decodeBody
  | .reserved10To1F _ | .reserved20To3F _ | .reserved40To7F _ | .reserved80ToFF _ => reservedBody

theorem exec_eq_finish_rule (i : Instr) (s : State) : exec i s = finish (ruleOf i s) := by cases i <;> rfl

/-! ### What a rule writes -/

/-- `writtenBy` before completion: a rule itself leaves BUSY, DONE and the error latch as they were. -/
def ruleWrites (i : Instr) (s t : State) : State :=
  { writtenBy i s t with busy := s.busy, done := s.done, err := s.err, errCode := s.errCode, errDetail := s.errDetail }

/-- ENCODE's rule writes what 44_transcoder.md R240 names. -/
theorem encodeBody_writes (s : State) : (encodeBody s).state = ruleWrites .encode s (encodeBody s).state := by
  obtain ⟨out, h⟩ := encodeBody_frame s
  generalize (encodeBody s).state = t at h ⊢
  have hsnk : t.snk = s.snk ++ out := by rw [h]
  rw [← hsnk] at h
  exact h

/-- DECODE's rule writes what 44_transcoder.md R242 names. -/
theorem decodeBody_writes (s : State) : (decodeBody s).state = ruleWrites .decode s (decodeBody s).state := by
  obtain ⟨t, out, rfl, h⟩ := decodeBody_frame s
  generalize (decodeBody s).state = t at h ⊢
  have hsnk : t.snk = s.snk ++ out := by rw [h]
  rw [← hsnk] at h
  exact h

/-- BR_EXTRACT's rule writes its result and moves the reader (43_bit_reader.md R222). -/
theorem brExtractBody_writes (s : State) :
    (brExtractBody s).state = ruleWrites .brExtract s (brExtractBody s).state := by
  have h := extract_frame s
  unfold brExtractBody
  rcases he : s.extract with ⟨_ | ⟨c, b⟩, t⟩ <;> rw [he] at h <;> dsimp only at h ⊢ <;> rw [h] <;> rfl

/-- Every rule writes only what `writtenBy` names (10_state.md R38, 30_encoding.md R101). -/
theorem rule_writes (i : Instr) (s : State) : (ruleOf i s).state = ruleWrites i s (ruleOf i s).state := by
  cases i with
  | count => simp only [ruleOf, countBody]; split <;> rfl
  | selectEof => simp only [ruleOf, selectEofBody]; split <;> rfl
  | build => simp only [ruleOf, buildBody]; split <;> rfl
  | encLookup => simp only [ruleOf, encLookupBody]; split <;> rfl
  | encSet => simp only [ruleOf, encSetBody]; split_ifs <;> rfl
  | bwInsert => simp only [ruleOf, bwInsertBody]; split_ifs <;> rfl
  | writeTable => simp only [ruleOf, writeTableBody]; split_ifs <;> rfl
  | readTable => rcases readTableBody_cases s with ⟨p, mid, -, h⟩ | ⟨e, mid, -, h⟩ <;> rw [ruleOf, h] <;> rfl
  | decLookup => simp only [ruleOf, decLookupBody]; split_ifs <;> [rfl; (split <;> rfl)]
  | brStart => simp only [ruleOf, brStartBody]; split_ifs <;> rfl
  | brExtract => exact brExtractBody_writes s
  | encode => exact encodeBody_writes s
  | decode => exact decodeBody_writes s
  | nop | clear | bwFlush | reserved10To1F | reserved20To3F | reserved40To7F | reserved80ToFF => rfl

/-- No rule moves the error latch: the completion step does (60_exceptions.md R272). -/
theorem rule_keeps_latch (i : Instr) (s : State) :
    (ruleOf i s).state.err = s.err ∧ (ruleOf i s).state.errCode = s.errCode ∧
      (ruleOf i s).state.errDetail = s.errDetail := by
  rw [rule_writes]; exact ⟨rfl, rfl, rfl⟩

/-- What a rule leaves is also within `writtenBy`, which takes the control state from the new state. -/
theorem rule_writtenBy (i : Instr) (s : State) : (ruleOf i s).state = writtenBy i s (ruleOf i s).state := by
  have h := rule_writes i s
  generalize (ruleOf i s).state = t at h ⊢
  calc t = ruleWrites i s t := h
    _ = { writtenBy i s t with
          busy := t.busy, done := t.done, err := t.err, errCode := t.errCode, errDetail := t.errDetail } := by
        rw [h]; rfl
    _ = writtenBy i s t := by cases i <;> rfl

theorem writtenBy_complete (i : Instr) (s t : State) : writtenBy i s t.complete = (writtenBy i s t).complete := by
  cases i <;> rfl

theorem writtenBy_takeError (i : Instr) (s t : State) (e : CmdError) :
    writtenBy i s (t.takeError e) = (writtenBy i s t).takeError e := by cases i <;> rfl

/-- The frame of a command, completion included (10_state.md R38, 30_encoding.md R101). -/
theorem exec_writtenBy {i : Instr} {s t : State} (h : exec i s = .next t) : t = writtenBy i s t := by
  rw [exec_eq_finish_rule] at h
  have hw := rule_writtenBy i s
  rcases finish_cases h with ⟨u, hu, rfl⟩ | ⟨e, u, hu, rfl⟩ <;> rw [hu] at hw
  · rw [writtenBy_complete]; exact congrArg State.complete hw
  · rw [writtenBy_takeError]; exact congrArg (State.takeError e) hw

/-- Settles O20: every rule ends in the completion step, inside the frame of its command. -/
theorem everyCommandCompletesInItsFrame : Obligations.EveryCommandCompletesInItsFrame := by
  intro i s
  obtain ⟨t, ht, hbusy, hdone⟩ := finish_next (ruleOf i s)
  rw [← exec_eq_finish_rule] at ht
  exact ⟨t, ht, hbusy, hdone, exec_writtenBy ht⟩

end Sys2Proof.Machine
end

section
/-! What each command's rule can raise (60_exceptions.md R273). -/

namespace Sys2Proof.Machine

theorem countBody_raises {s t : State} {e : CmdError} (h : countBody s = .raised e t) : e = .countOverflow := by
  simp only [countBody] at h
  split_ifs at h
  injection h with he
  exact he.symm

theorem selectEofBody_raises {s t : State} {e : CmdError} (h : selectEofBody s = .raised e t) : e = .emptyFreq := by
  rcases selectEofBody_cases s with ⟨-, h'⟩ | ⟨_, -, -, h', -⟩ <;> rw [h'] at h <;> cases h
  rfl

theorem buildBody_raises {s t : State} {e : CmdError} (h : buildBody s = .raised e t) : e = .emptyFreq := by
  rcases buildBody_cases s with ⟨-, h'⟩ | ⟨_, -, h'⟩ | ⟨_, _, _, -, h'⟩ <;> rw [h'] at h <;> cases h
  rfl

theorem writeTableBody_raises {s t : State} {e : CmdError} (h : writeTableBody s = .raised e t) : e = .notReady := by
  simp only [writeTableBody] at h
  split_ifs at h
  cases h; rfl

/-- ENCODE raises what its parts raise: COUNT, SELECT_EOF, BUILD, WRITE_TABLE (44_transcoder.md R240). -/
theorem encodeBody_raises {s t : State} {e : CmdError} (h : encodeBody s = .raised e t) : e ∈ mayRaise .encode := by
  simp only [encodeBody] at h
  split_ifs at h
  · cases h; decide
  rcases Body.andThen_eq_raised h with h | ⟨_, -, h⟩
  · rcases Body.andThen_eq_raised h with h | ⟨_, -, h⟩
    · rcases Body.andThen_eq_raised h with h | ⟨_, -, h⟩
      · rw [countBody_raises h]; decide
      · rw [selectEofBody_raises h]; decide
    · rw [buildBody_raises h]; decide
  · rcases Body.andThen_eq_raised h with h | ⟨_, -, h⟩
    · rw [writeTableBody_raises h]; decide
    · cases h

theorem readTableBody_raises {s t : State} {e : CmdError} (h : readTableBody s = .raised e t) :
    e ∈ mayRaise .readTable := by
  rcases readTableBody_cases s with ⟨_, _, -, h'⟩ | ⟨_, _, hp, h'⟩ <;> rw [h'] at h <;> cases h
  exact (parsePreamble_raised hp).1

/-- DECODE raises a header error, or CORRUPT_STREAM with the reader's reason (44_transcoder.md R242, R243). -/
theorem decodeBody_raises {s t : State} {e : CmdError} (h : decodeBody s = .raised e t) : e ∈ mayRaise .decode := by
  rcases decodeBody_cases s with ⟨e', mid, h', he, -⟩ | ⟨p, mid, rest, -, hp, h'⟩ <;> rw [h'] at h
  · cases h
    exact List.mem_append_left [CmdError.corruptStream .noMatch, .corruptStream .sourceEnd] he
  · obtain ⟨-, -, -, -, -, -, hmid⟩ := parsePreamble_ok hp
    rcases decodeLoop_ends (s := s.decodeStart p mid) rfl (Nat.zero_le 8) rfl hmid le_rfl with
      ⟨_, hok, -⟩ | ⟨r, _, hr, hreason, -⟩
    · rw [hok] at h; cases h
    · rw [hr] at h
      cases h
      rcases hreason with rfl | rfl <;> decide

/-- What a rule raises is in its row of the table (60_exceptions.md R273). -/
theorem rule_raises {i : Instr} {s t : State} {e : CmdError} (h : ruleOf i s = .raised e t) : e ∈ mayRaise i := by
  cases i with
  | count => exact List.mem_singleton.2 (countBody_raises h)
  | selectEof => exact List.mem_singleton.2 (selectEofBody_raises h)
  | build => exact List.mem_singleton.2 (buildBody_raises h)
  | writeTable => exact List.mem_singleton.2 (writeTableBody_raises h)
  | readTable => exact readTableBody_raises h
  | encode => exact encodeBody_raises h
  | decode => exact decodeBody_raises h
  | encSet => simp only [ruleOf, encSetBody] at h; split_ifs at h; cases h; decide
  | bwInsert => simp only [ruleOf, bwInsertBody] at h; split_ifs at h; cases h; decide
  | decLookup =>
    simp only [ruleOf, decLookupBody] at h
    split_ifs at h
    · cases h; decide
    · split at h <;> cases h
  | brStart => simp only [ruleOf, brStartBody] at h; split_ifs at h; cases h; decide
  | reserved10To1F | reserved20To3F | reserved40To7F | reserved80ToFF => cases h; exact List.mem_singleton.2 rfl
  | encLookup => simp only [ruleOf, encLookupBody] at h; split at h <;> cases h
  | brExtract => simp only [ruleOf, brExtractBody] at h; split at h <;> cases h
  | nop | clear | bwFlush => cases h

/-- A command leaves the error latch alone, or latches an error of its row (60_exceptions.md R272, R273). -/
theorem exec_latch {i : Instr} {s t : State} (h : exec i s = .next t) :
    (∃ u, ruleOf i s = .ok u ∧ t = u.complete ∧ u.err = s.err ∧ u.errCode = s.errCode ∧ u.errDetail = s.errDetail) ∨
    (∃ e u, ruleOf i s = .raised e u ∧ t = u.takeError e ∧ e ∈ mayRaise i) := by
  rw [exec_eq_finish_rule] at h
  have hl := rule_keeps_latch i s
  rcases finish_cases h with ⟨u, hu, ht⟩ | ⟨e, u, hu, ht⟩
  · rw [hu] at hl; exact .inl ⟨u, hu, ht, hl⟩
  · exact .inr ⟨e, u, hu, ht, rule_raises hu⟩

end Sys2Proof.Machine
end

section
/-! The invariant, split: what it says of the tables, the streams, the writer and the reader is kept by every rule; what it says of
the control state is settled by the completion step (10_state.md R37, R38). -/

namespace Sys2Proof.Machine

/-- The part of `State.Inv` that does not speak of BUSY, DONE, FOUND, CMD_LAST, PENDING_OP and the error latch. -/
structure State.DataInv (s : State) : Prop where
  params_legal : s.params.legal = true
  srcPos_le : s.srcPos ≤ s.src.length
  bwPend_lt : s.bwPend.length < s.params.wordBits
  enc_len : ∀ b c, encAt s.enc b = some c → 1 ≤ c.length ∧ c.length ≤ 2039
  dec_sorted : decSorted s.dec = true
  dec_len : ∀ p ∈ s.dec, 1 ≤ p.1.length ∧ p.1.length ≤ 2039
  dec_inj : ∀ p ∈ s.dec, ∀ q ∈ s.dec, p.2 = q.2 → p.1 = q.1
  decValid_iff : s.decValid = true ↔ s.dec ≠ []
  reader_over_dec : s.brValid = true → s.decValid = true ∧ s.brMaxlen = maxKeyLen s.dec
  brMaxlen_le : s.brMaxlen ≤ 2039
  brNbits_le : s.brNbits ≤ 8
  brFail_valid : s.brValid = true → s.brFail = .none

theorem State.Inv.data {s : State} (h : s.Inv) : s.DataInv := { h with }

namespace State.DataInv

/-! ### Completion -/

/-- A completed command that raised nothing, its latch as it was at a state that met the invariant. -/
theorem complete {s t : State} (h : t.DataInv) (hs : s.Inv)
    (hl : t.err = s.err ∧ t.errCode = s.errCode ∧ t.errDetail = s.errDetail) : t.complete.Inv := by
  obtain ⟨he, hc, hd⟩ := hl
  exact { h with
    busy_clean := nofun
    no_err_zero := by simpa [he, hc, hd] using hs.no_err_zero
    err_listed := by simpa [he, hc, hd] using hs.err_listed }

/-- A completed command that raised an error of its row. -/
theorem takeError {t : State} (h : t.DataInv) {i : Instr} {e : CmdError} (he : e ∈ mayRaise i) : (t.takeError e).Inv :=
  { h with
    busy_clean := nofun
    no_err_zero := nofun
    err_listed := fun _ => ⟨i, e, he, rfl, rfl⟩ }

/-! ### The updates the rules make -/

variable {s : State} (h : s.DataInv)
include h

theorem moveSrcPos {pos : Nat} (hp : pos ≤ s.src.length) : ({ s with srcPos := pos } : State).DataInv :=
  { h with srcPos_le := hp }

theorem writerEmpty {snk : List Byte} : ({ s with bwPend := [], snk := snk } : State).DataInv :=
  { h with bwPend_lt := Nat.zero_lt_of_lt h.bwPend_lt }

/-- The bits left pending are fewer than WORD_BITS (41_bit_writer.md R171). -/
theorem writerInsert (c : Bitstring) : (s.writerInsert c).DataInv := by
  obtain ⟨-, -, -, -, -, hlt⟩ := writerLoop_spec (Params.wordBits_mod_eight h.params_legal) h.bwPend_lt c
  exact { h with bwPend_lt := hlt }

theorem setEnc {enc : EncTable} (he : ∀ b c, encAt enc b = some c → 1 ≤ c.length ∧ c.length ≤ 2039) :
    ({ s with enc := enc } : State).DataInv :=
  { h with enc_len := he }

theorem readerReset : s.readerReset.DataInv :=
  { h with
    reader_over_dec := nofun
    brMaxlen_le := Nat.zero_le _
    brNbits_le := Nat.zero_le _
    brFail_valid := nofun }

/-- Without a valid reader the parsed table can go. -/
theorem clearParsed (hv : s.brValid = false) : s.clearParsed.DataInv :=
  { h with
    dec_sorted := rfl
    dec_len := nofun
    dec_inj := nofun
    decValid_iff := by simp
    reader_over_dec := by simp [hv] }

/-- The tables of CLEAR, without a valid reader (45_control.md R261). -/
theorem clearTables (hv : s.brValid = false) : s.clearTables.DataInv :=
  { h.clearParsed hv with enc_len := by simp }

/-- The reader started over a valid table (43_bit_reader.md R220). -/
theorem startReader (hv : s.decValid = true) : ({ s with
    brByte := 0, brNbits := 0, brFail := .none, brMaxlen := maxKeyLen s.dec, brValid := true } : State).DataInv :=
  { h with
    reader_over_dec := fun _ => ⟨hv, rfl⟩
    brMaxlen_le := maxKeyLen_le fun p hp => (h.dec_len p hp).2
    brNbits_le := Nat.zero_le _
    brFail_valid := fun _ => rfl }

end State.DataInv

/-! ### The table READ_TABLE commits -/

/-- DEC of a valid preamble is its entries and the sentinel's, turned round (42_table_codec.md R188). -/
theorem mem_decTable {p : Preamble} (hv : validate p.entries p.eof p.eofCode = none) {q : Bitstring × Symbol} :
    q ∈ p.decTable ↔ (q.2, q.1) ∈ p.entries ++ [(p.eof, p.eofCode)] := by
  obtain ⟨hsorted, hlookup⟩ := decTable_spec hv
  rw [← hlookup]
  exact ⟨decAt_of_mem hsorted, decAt_some_mem⟩

/-- A valid preamble gives no symbol two codes (42_table_codec.md R189). -/
theorem entries_code_unique {p : Preamble} (hv : validate p.entries p.eof p.eofCode = none)
    (hn : (p.entries.map Prod.fst).Nodup) {b : Symbol} {c d : Bitstring}
    (hc : (b, c) ∈ p.entries ++ [(p.eof, p.eofCode)]) (hd : (b, d) ∈ p.entries ++ [(p.eof, p.eofCode)]) : c = d := by
  obtain ⟨heof, -⟩ := validate_eq_none.1 hv
  simp only [List.mem_append, List.mem_singleton, Prod.mk.injEq] at hc hd
  rcases hc with hc | ⟨rfl, rfl⟩ <;> rcases hd with hd | ⟨hb, rfl⟩
  · exact congrArg Prod.snd (List.inj_on_of_nodup_map hn hc hd rfl)
  · exact heof _ hc hb
  · exact (heof _ hd rfl).symm
  · rfl

namespace State.DataInv

variable {s : State} (h : s.DataInv)
include h

/-- The table of a parsed preamble: one-to-one, keys of 1 to 2039 bits, not empty; the reader is not running
(42_table_codec.md R188, R189). -/
theorem loadTable {pos mid : Nat} {p : Preamble} (hp : parsePreamble s.src pos = .ok p mid) :
    ({ s.readerReset with
      dec := p.decTable, decValid := true, eofSym := p.eof, eofValid := true, width := p.width,
      srcPos := mid } : State).DataInv := by
  obtain ⟨-, hne, hnodup, hlen, hv, -, hmid⟩ := parsePreamble_ok hp
  obtain ⟨q, hq⟩ := List.exists_mem_of_ne_nil _ hne
  have hq : (q.2, q.1) ∈ p.decTable := (mem_decTable hv).2 (List.mem_append_left _ hq)
  exact { h.readerReset with
    srcPos_le := hmid
    dec_sorted := (decTable_spec hv).1
    dec_len := fun r hr => hlen _ ((mem_decTable hv).1 hr)
    dec_inj := fun r hr t ht hrt => entries_code_unique hv hnodup ((mem_decTable hv).1 hr)
      (hrt ▸ (mem_decTable hv).1 ht)
    decValid_iff := iff_of_true rfl (List.ne_nil_of_mem hq)
    reader_over_dec := nofun }

/-! ### The rules, one by one -/

theorem countBody : (countBody s).state.DataInv := by
  rcases Nat.lt_or_ge s.src.length (2 ^ 32) with hlt | hge
  · obtain ⟨freq, hc, -⟩ := countBody_ok hlt
    rw [hc]
    exact { h.readerReset with srcPos_le := le_rfl }
  · obtain ⟨freq, hc, -⟩ := countBody_overflow hge
    rw [hc]
    exact { h.readerReset with srcPos_le := hge }

theorem selectEofBody : (selectEofBody s).state.DataInv := by
  rcases selectEofBody_cases s with ⟨-, hb⟩ | ⟨e, -, -, hb, -⟩ <;> rw [hb] <;> exact { h with }

theorem buildBody : (buildBody s).state.DataInv := by
  by_cases hf : ∃ b, freqAt s.freq b ≠ 0
  · obtain ⟨enc, hb, -, -, hlen⟩ := buildBody_spec hf
    rw [hb]
    exact h.setEnc fun b c hc => by
      obtain ⟨h1, -, h255⟩ := hlen b c hc
      exact ⟨h1, h255.trans (by norm_num)⟩
  · push Not at hf
    rw [Machine.buildBody, (observed_eq_nil _).2 hf]
    exact h

theorem encLookupBody : (encLookupBody s).state.DataInv := by
  unfold Machine.encLookupBody
  split <;> exact { h with }

/-- ENC_SET stores an operand of 1 to 2039 bits, or none (40_tree_builder.md R149). -/
theorem encSetBody : (encSetBody s).state.DataInv := by
  have hl : s.operand.length = s.codeLen.toNat := by simp [State.operand]
  unfold Machine.encSetBody
  split_ifs with hlong hzero
  · exact h
  · refine h.setEnc fun b c hc => ?_
    rw [encAt_encPut] at hc
    split_ifs at hc
    exact h.enc_len b c hc
  · refine h.setEnc fun b c hc => ?_
    rw [encAt_encPut] at hc
    split_ifs at hc
    · cases hc; omega
    · exact h.enc_len b c hc

theorem bwInsertBody : (bwInsertBody s).state.DataInv := by
  unfold Machine.bwInsertBody
  split_ifs
  · exact h
  · exact h.writerInsert s.operand

theorem clearBody : (clearBody s).state.DataInv := h.writerEmpty.readerReset.clearTables rfl

theorem writeTableBody : (writeTableBody s).state.DataInv := by
  unfold Machine.writeTableBody
  split_ifs <;> exact { h with }

theorem readTableBody : (readTableBody s).state.DataInv := by
  rcases readTableBody_cases s with ⟨p, mid, hp, hb⟩ | ⟨e, mid, hp, hb⟩ <;> rw [hb]
  · exact h.loadTable hp
  · obtain ⟨-, -, hmid⟩ := parsePreamble_raised hp
    exact (h.readerReset.clearParsed rfl).moveSrcPos (hmid h.srcPos_le)

theorem decLookupBody : (decLookupBody s).state.DataInv := by
  unfold Machine.decLookupBody
  split_ifs
  · exact h
  · split <;> exact { h with }

theorem brStartBody : (brStartBody s).state.DataInv := by
  cases hv : s.decValid with
  | false => simpa [Machine.brStartBody, hv] using h
  | true => rw [brStartBody_ok hv]; exact h.startReader hv

/-- An extraction leaves the reader in range, and valid only if it has not failed (43_bit_reader.md R221). -/
theorem extract : s.extract.2.DataInv := by
  cases hv : s.brValid with
  | false => rw [extract_invalid hv]; exact h
  | true =>
    obtain ⟨x, r, -, hn, -, hpos, hcase⟩ := extract_cases hv h.brNbits_le
    have hr : (s.readerAt r).DataInv := { h with srcPos_le := hpos h.srcPos_le, brNbits_le := hn }
    have hfail : ∀ reason, ({ s.readerAt r with brValid := false, brFail := reason } : State).DataInv := fun reason =>
      { hr with reader_over_dec := nofun, brFail_valid := nofun }
    rcases hcase with ⟨b, he, -⟩ | ⟨he, -⟩ | ⟨he, -⟩ <;> rw [he]
    · exact hr
    · exact hfail _
    · exact hfail _

theorem brExtractBody : (brExtractBody s).state.DataInv := by
  have he := h.extract
  unfold Machine.brExtractBody
  rcases hx : s.extract with ⟨_ | ⟨c, b⟩, t⟩ <;> rw [hx] at he <;> exact { he with }

/-- Insertions and a flush keep everything but leave nothing pending (44_transcoder.md R241). -/
theorem encodePayload : s.encodePayload.DataInv := by
  have hend : s.srcPos + s.unread.length ≤ s.src.length := by
    have := h.srcPos_le
    simp only [State.unread, List.length_drop]; omega
  simp only [State.encodePayload, foldl_writerInsert]
  exact ((h.moveSrcPos hend).writerInsert _).writerEmpty

omit h in
theorem andThen {b : Body} {k : State → Body} (hb : b.state.DataInv)
    (hk : ∀ t : State, t.DataInv → (k t).state.DataInv) : (b.andThen k).state.DataInv := by
  cases b with
  | ok t => exact hk t hb
  | raised e t => exact hb

theorem encodeBody : (encodeBody s).state.DataInv := by
  unfold Machine.encodeBody
  split_ifs
  · exact h
  · refine andThen (andThen (andThen h.countBody fun _ => selectEofBody) fun _ => buildBody) fun t ht => ?_
    refine andThen (writeTableBody { ht with }) fun u hu => ?_
    exact (hu.moveSrcPos (Nat.zero_le _)).encodePayload

omit h in
theorem decodeLoop (n : Nat) {s : State} (h : s.DataInv) : (decodeLoop n s).state.DataInv := by
  induction n generalizing s with
  | zero => exact h.extract
  | succ n ih =>
    have ht := h.extract
    unfold Machine.decodeLoop
    rcases hs : s.extract with ⟨_ | ⟨c, b⟩, t⟩ <;> rw [hs] at ht
    · exact ht
    dsimp only at ht ⊢
    split_ifs
    · exact ih { ht with }
    have hu := ht.extract
    rcases hx : t.extract with ⟨_ | ⟨c2, b2⟩, u⟩ <;> rw [hx] at hu
    · exact hu
    dsimp only at hu ⊢
    split_ifs
    · exact hu
    · exact ih { hu with }

theorem decodeBody : (decodeBody s).state.DataInv := by
  rcases decodeBody_cases s with ⟨e, mid, hb, -, hmid⟩ | ⟨p, mid, rest, -, hp, hb⟩ <;> rw [hb]
  · exact (h.readerReset.clearParsed rfl).moveSrcPos (hmid h.srcPos_le)
  · exact decodeLoop _ ((h.loadTable hp).startReader rfl)

/-- Every rule keeps the data part of the invariant. -/
theorem rule (i : Instr) : (ruleOf i s).state.DataInv := by
  cases i with
  | clear => exact h.clearBody
  | count => exact h.countBody
  | selectEof => exact h.selectEofBody
  | build => exact h.buildBody
  | encLookup => exact h.encLookupBody
  | encSet => exact h.encSetBody
  | bwInsert => exact h.bwInsertBody
  | bwFlush => exact h.writerEmpty
  | writeTable => exact h.writeTableBody
  | readTable => exact h.readTableBody
  | decLookup => exact h.decLookupBody
  | brStart => exact h.brStartBody
  | brExtract => exact h.brExtractBody
  | encode => exact h.encodeBody
  | decode => exact h.decodeBody
  | nop | reserved10To1F | reserved20To3F | reserved40To7F | reserved80ToFF => exact h

end State.DataInv

/-! ### Steps -/

/-- A command keeps the invariant: its rule keeps the data part, its completion settles the control part. -/
theorem State.Inv.exec {i : Instr} {s t : State} (h : s.Inv) (hx : exec i s = .next t) : t.Inv := by
  have hd := h.data.rule i
  rcases exec_latch hx with ⟨u, hu, rfl, hl⟩ | ⟨e, u, hu, rfl, he⟩ <;> rw [hu] at hd
  · exact hd.complete h hl
  · exact hd.takeError he

theorem State.Inv.setAgenda {s : State} (h : s.Inv) (rest : List Turn) : ({ s with agenda := rest } : State).Inv := { h with }

/-- A command start clears the latch and nothing the data part speaks of (10_state.md R37). -/
theorem State.Inv.startCommand {s : State} (h : s.Inv) (v : Word) : (s.startCommand v).Inv :=
  { h.data with
    busy_clean := fun _ => ⟨rfl, rfl, rfl, rfl⟩
    no_err_zero := fun _ => ⟨rfl, rfl⟩
    err_listed := nofun }

/-- An idle register write keeps the invariant (10_state.md R41 to R50). -/
theorem State.Inv.regWrite {s : State} (h : s.Inv) (off : Nat) (v : Word) : (s.regWrite off v).Inv := by
  unfold State.regWrite
  split
  · exact h.startCommand v
  all_goals exact { h with }

/-- A legal WORD_BITS is 8 to 128 (00_scope.md R10). -/
theorem Params.wordBits_range {p : Params} (h : p.legal = true) : 8 ≤ p.wordBits ∧ p.wordBits ≤ 128 := by
  obtain ⟨⟨-, h8⟩, h128⟩ : (p.wordBits % 8 = 0 ∧ 8 ≤ p.wordBits) ∧ p.wordBits ≤ 128 := by
    simpa only [Params.legal, Bool.and_eq_true, beq_iff_eq, decide_eq_true_eq] using h
  exact ⟨h8, h128⟩

/-- Settles O18: every field is at a value the invariant allows, BUSY and ERR being 0. -/
theorem resetMeetsInvariant : Obligations.ResetMeetsInvariant := by
  intro p hp
  obtain ⟨h8, -⟩ := Params.wordBits_range hp
  exact {
    params_legal := hp
    srcPos_le := le_rfl
    bwPend_lt := Nat.zero_lt_of_lt h8
    enc_len := fun b c hc => by cases (encAt_encEmpty b).symm.trans hc
    dec_sorted := decSorted_reset p
    dec_len := nofun
    dec_inj := nofun
    decValid_iff := iff_of_false nofun (· rfl)
    reader_over_dec := nofun
    brMaxlen_le := Nat.zero_le _
    brNbits_le := Nat.zero_le _
    brFail_valid := nofun
    busy_clean := nofun
    no_err_zero := fun _ => ⟨rfl, rfl⟩
    err_listed := nofun }

/-- A platform reset gives the reset state, with the source where it was (70_reset_and_hazards.md R300, R303). -/
theorem State.Inv.platformReset {s : State} (h : s.Inv) : s.platformReset.Inv :=
  { resetMeetsInvariant s.params h.params_legal with srcPos_le := h.srcPos_le }

/-- Settles O19, turn by turn: a bus write, a bus read, the three stream moves, a reset, the block idle or at a command. -/
theorem stepKeepsInvariant : Obligations.StepKeepsInvariant := by
  intro s t h hstep
  rcases step_cases hstep with ⟨_, lanes, off, rest, -, -, rfl⟩ | ⟨_, _, _, rest, -, -, _, _, rfl⟩ |
    ⟨bytes, rest, -, -, rfl⟩ | ⟨rest, -, -, rfl⟩ | ⟨rest, -, -, rfl⟩ | ⟨rest, -, rfl⟩ |
    ⟨-, rest, -, ⟨-, rfl⟩ | ⟨-, hx⟩⟩
  · split_ifs
    · exact { h with }
    · exact (h.setAgenda rest).regWrite off _
  · exact { h with }
  · exact { h with srcPos_le := Nat.zero_le _ }
  · exact { h with }
  · exact { h with }
  · exact (h.setAgenda rest).platformReset
  · exact h.setAgenda rest
  · exact (h.setAgenda rest).exec hx

end Sys2Proof.Machine
end

section
/-! Reset, the block's turn, and the register window (10_state.md R37 to R59). -/

namespace Sys2Proof.Machine

/-! ### Reset -/

/-- Settles O1: the tables are read at each symbol, every other piece of state is its literal value. -/
theorem resetValues : Obligations.ResetValues := by
  have hfreq : ∀ b, freqAt (Vector.replicate 256 0) b = 0 := freqAt_freqZero
  have henc : ∀ b, encAt (Vector.replicate 256 none) b = none := encAt_encEmpty
  have hvalid : ∀ s : State, s.enc = encEmpty → s.encValid = false := fun s hs =>
    Bool.eq_false_iff.2 fun h => by
      obtain ⟨b, hb⟩ := (encValid_iff s).1 h
      exact hb (by rw [hs, encAt_encEmpty])
  refine ⟨fun p => ?_, fun s => ⟨?_, rfl, rfl, rfl⟩⟩ <;>
    exact ⟨hfreq, henc, hvalid _ rfl, rfl, rfl, rfl, fun _ => BitVec.getLsbD_zero, rfl, rfl, rfl, rfl, rfl, rfl, rfl,
      rfl, rfl, rfl, rfl, rfl, rfl, rfl, rfl, rfl, rfl, rfl, rfl, rfl⟩

/-! ### The block's turn -/

theorem step_emptyAgenda {s : State} (h : s.agenda = []) : step s = blockTurn s := by
  simp only [step, State.takeTurn, h, takeStep]

theorem step_block {s : State} {rest : List Turn} (h : s.agenda = .block :: rest) :
    step s = blockTurn { s with agenda := rest } := by
  simp only [step, State.takeTurn, h, takeStep]

theorem blockTurn_busy (s : State) (h : s.busy = true) : blockTurn s = exec (decodeOpcode s.pendingOp) s := by
  simp [blockTurn, State.fetch, h]

theorem blockTurn_idle (s : State) (h : s.busy = false) : blockTurn s = .next s := by
  simp [blockTurn, State.fetch, h]

/-- Settles O3: the bytes of the pending opcode decode to the command the block's turn runs. -/
theorem stepRunsDecodedCommand : Obligations.StepRunsDecodedCommand := by
  intro s i hbusy hi
  have hdecode := decodeBytes_wordLanes (s.pendingOp.setWidth 32) []
  rw [List.append_nil, hi, decodeWord, opcodeField_setWidth] at hdecode
  obtain rfl : i = decodeOpcode s.pendingOp := congrArg Prod.fst (Except.ok.inj hdecode)
  refine ⟨(decodeOpcode_spec _).1, fun h => ?_, fun rest h => ?_⟩
  · exact (step_emptyAgenda h).trans (blockTurn_busy s hbusy)
  · exact (step_block h).trans (blockTurn_busy _ hbusy)

/-- Settles O4: an idle block fetches nothing. -/
theorem idleBlockKeepsState : Obligations.IdleBlockKeepsState := by
  intro s hidle
  refine ⟨fun h => ?_, fun rest h => ?_⟩
  · exact (step_emptyAgenda h).trans (blockTurn_idle s hidle)
  · exact (step_block h).trans (blockTurn_idle _ hidle)

/-! ### OVERRUN -/

theorem regWrite_overrun (s : State) (off : Nat) (v : Word) : (s.regWrite off v).overrun = s.overrun := by
  unfold State.regWrite
  split <;> rfl

/-- Of the commands only CLEAR writes OVERRUN (10_state.md R42, 45_control.md R261). -/
theorem exec_overrun {i : Instr} {s t : State} (h : exec i s = .next t) (hi : i ≠ .clear) : t.overrun = s.overrun := by
  rw [exec_writtenBy h]
  cases i with
  | clear => exact absurd rfl hi
  | _ => rfl

/-- Settles O23: no other turn writes 0 to OVERRUN, and of the commands only CLEAR, whose opcode is 0x01. -/
theorem overrunClearedOnlyByClearOrReset : Obligations.OverrunClearedOnlyByClearOrReset := by
  intro s t hstep hs ht
  have kept : t.overrun ≠ s.overrun := by rw [hs, ht]; decide
  rcases step_cases hstep with ⟨_, lanes, off, rest, -, -, rfl⟩ | ⟨_, _, _, rest, -, -, _, _, rfl⟩ |
    ⟨bytes, rest, -, -, rfl⟩ | ⟨rest, -, -, rfl⟩ | ⟨rest, -, -, rfl⟩ | ⟨rest, ha, -⟩ |
    ⟨hblock, rest, -, ⟨-, rfl⟩ | ⟨hbusy, hx⟩⟩
  · split_ifs at ht kept -- BUSY = 1 sets OVERRUN, against `ht`
    exact absurd (regWrite_overrun _ off _) kept
  · exact absurd rfl kept
  · exact absurd rfl kept
  · exact absurd rfl kept
  · exact absurd rfl kept
  · exact .inl (by simp only [State.takeTurn, ha])
  · exact absurd rfl kept
  · have hclear : decodeOpcode s.pendingOp = .clear := by
      by_contra hi
      have hkeep := exec_overrun hx hi
      exact kept hkeep
    have hop := (decodeOpcode_spec s.pendingOp).2
    rw [hclear] at hop
    exact .inr ⟨hblock, hbusy, hop.symm⟩

/-! ### Register writes -/

/-- A bus write to the window while idle is the register write (10_state.md R40). -/
theorem step_idleWrite {s : State} {v : Word} {rest : List Turn} {off : Nat} (hidle : s.busy = false) (ho : off < 64)
    (h4 : off % 4 = 0) (h : s.agenda = .busWrite (s.params.base + off) (wordLanes v) :: rest) :
    step s = .next (({ s with agenda := rest } : State).regWrite off v) := by
  rw [step_busWrite s v rest off ho h4 h, hidle]; rfl

/-- A field takes the low bits of the word written (10_state.md R54). -/
theorem setWidth_eq_ofNat_mod (v : Word) {n m : Nat} (hm : m = 2 ^ n) : v.setWidth n = BitVec.ofNat n (v.toNat % m) :=
  BitVec.eq_of_toNat_eq (by simp [hm])

/-- Settles O5: the register at offset 0 starts the command of the opcode field. -/
theorem commandStart : Obligations.CommandStart := by
  intro s v rest hidle h
  rw [step_idleWrite (off := 0) hidle (by decide) rfl h, ← opcodeField_eq]
  rfl

/-- Settles O6: each register at its offset. -/
theorem registerWrites : Obligations.RegisterWrites := by
  intro s v rest hidle
  refine ⟨fun h => ?_, fun h => ?_, fun h => ?_, fun h => ?_, fun h => ?_⟩
  · rw [step_idleWrite hidle (by decide) rfl h, ← setWidth_eq_ofNat_mod v (n := 8) (m := 256) rfl]; rfl
  · rw [step_idleWrite hidle (by decide) rfl h, ← setWidth_eq_ofNat_mod v (n := 8) (m := 256) rfl]; rfl
  · rw [step_idleWrite hidle (by decide) rfl h, ← setWidth_eq_ofNat_mod v (n := 12) (m := 4096) rfl]; rfl
  · rw [step_idleWrite hidle (by decide) rfl h, ← setWidth_eq_ofNat_mod v (n := 6) (m := 64) rfl]; rfl
  · refine ⟨_, step_idleWrite hidle (by decide) rfl h, rfl, ?_, fun b hb => ?_⟩
    · exact (freqAt_freqSet s.freq s.sym s.sym v).trans (if_pos rfl)
    · exact (freqAt_freqSet s.freq s.sym b v).trans (if_neg hb)

/-- Settles O7: the window is read bit by bit, and written into the bits whose number divided by 32 is CODE_IDX. -/
theorem codeDataWindow : Obligations.CodeDataWindow := by
  intro s v rest hidle
  refine ⟨fun j hj => ?_, fun h => ⟨_, step_idleWrite hidle (by decide) rfl h, rfl, fun i hi => ?_⟩⟩
  · show (codeWindow s.code s.codeIdx.toNat).getLsbD j = _
    simp [codeWindow, hj]
  · exact codeWindowPut_bit s.code s.codeIdx.toNat v i hi

/-- Settles O8: the register write of none of these offsets changes anything. -/
theorem readOnlyWritesIgnored : Obligations.ReadOnlyWritesIgnored := by
  intro s v rest off hidle hoff h
  have aligned : ∀ o ∈ [0x04, 0x08, 0x0C, 0x28, 0x2C, 0x30, 0x34, 0x38, 0x3C], o < 64 ∧ o % 4 = 0 := by decide
  obtain ⟨ho, h4⟩ := aligned off hoff
  rw [step_idleWrite hidle ho h4 h]
  simp only [List.mem_cons, List.not_mem_nil, or_false] at hoff
  rcases hoff with rfl | rfl | rfl | rfl | rfl | rfl | rfl | rfl | rfl <;> rfl

/-! ### Register reads -/

/-- The bits of STATUS, in their order (10_state.md R42). -/
theorem statusWord_getLsbD (s : State) (j : Nat) : s.statusWord.getLsbD j =
    (decide (j < 32) && ([s.busy, s.done, s.err, s.found, s.brValid, s.encValid, s.decValid, s.eofValid, s.bwPending,
      s.overrun][j]?).getD false) := ofNat_natOfBits_getLsbD 32 _ j

/-- BW_PENDING says that some bit is pending (10_state.md R35). -/
theorem bwPending_iff (s : State) : s.bwPending = true ↔ s.bwPend ≠ [] := by
  rw [State.bwPending, decide_eq_true_iff, List.length_pos_iff]

/-- Settles O9: bit j of STATUS is entry j of its list of ten. -/
theorem statusBits : Obligations.StatusBits := by
  intro s
  have bit : ∀ j, (s.regRead 0x04).getLsbD j = _ := statusWord_getLsbD s
  simp only [bit]
  refine ⟨rfl, rfl, rfl, rfl, rfl, encValid_iff s, rfl, rfl, bwPending_iff s, rfl, fun j hj => ?_⟩
  rw [List.getElem?_eq_none (by simpa using hj), Option.getD_none, Bool.and_false]

/-- A register made of two fields, the lower of `n` bits. -/
theorem toNat_append_eq {m n : Nat} (x : BitVec m) (y : BitVec n) : (x ++ y).toNat = x.toNat * 2 ^ n + y.toNat := by
  rw [BitVec.toNat_append, ← Nat.shiftLeft_add_eq_or_of_lt y.isLt, Nat.shiftLeft_eq]

/-- Settles O10: the fields of each register as numbers; the invariant keeps the counts of BW_STAT and BR_STAT in their fields. -/
theorem registerReadValues : Obligations.RegisterReadValues := by
  intro s h
  have hpend : s.bwPend.length < 128 := by
    obtain ⟨-, h128⟩ := Params.wordBits_range h.params_legal
    exact h.bwPend_lt.trans_le h128
  have hmaxlen := h.brMaxlen_le
  have hnbits := h.brNbits_le
  refine ⟨BitVec.toNat_setWidth_of_le (by decide), ?_, BitVec.toNat_setWidth_of_le (by decide),
    BitVec.toNat_setWidth_of_le (by decide), BitVec.toNat_setWidth_of_le (by decide),
    BitVec.toNat_setWidth_of_le (by decide), BitVec.toNat_setWidth_of_le (by decide), rfl, ?_, ?_, rfl, rfl, rfl, rfl⟩
  · show s.errInfoWord.toNat = _
    rw [State.errInfoWord, toNat_append_eq, toNat_append_eq, BitVec.toNat_ofNat]
    omega
  · show s.bwStatWord.toNat = _
    rw [State.bwStatWord, BitVec.toNat_setWidth_of_le (by decide), BitVec.toNat_ofNat]
    omega
  · show s.brStatWord.toNat = _
    simp only [State.brStatWord, toNat_append_eq, BitVec.toNat_ofNat]
    omega

/-- Lane `i` of a word is its byte `i` (20_memory.md R80). -/
theorem wordLanes_getD (v : Word) {i : Nat} (hi : i < 4) : ((wordLanes v).getD i 0).toNat = v.toNat / 256 ^ i % 256 := by
  have lane : ∀ k, (v.extractLsb' (8 * k) 8).toNat = v.toNat / 256 ^ k % 256 := fun k => by
    rw [BitVec.extractLsb'_toNat, Nat.shiftRight_eq_div_pow, Nat.pow_mul]
  interval_cases i
  · exact lane 0
  · exact lane 1
  · exact lane 2
  · exact lane 3

/-- Settles O11: an idle read is exact and draws nothing. -/
theorem idleBusRead : Obligations.IdleBusRead := by
  intro s k rest hidle hk h
  refine ⟨wordLanes (s.regRead (4 * k)), ?_, rfl, fun i hi => wordLanes_getD _ hi⟩
  rw [step_busRead s rest (4 * k) (by omega) (by omega) h]
  simp [State.busValue, hidle]

/-- Settles O12: the write of a busy block, and its read, exact at offset 4 alone. -/
theorem busyAccess : Obligations.BusyAccess := by
  intro s k v rest hbusy hk
  refine ⟨fun h => ?_, fun h => ?_⟩
  · rw [step_busWrite s v rest (4 * k) (by omega) (by omega) h, hbusy]; rfl
  · rw [step_busRead s rest (4 * k) (by omega) (by omega) h]
    by_cases hstatus : k = 1
    · subst hstatus; simp [State.busValue]
    · have hoff : 4 * k ≠ 0x04 := by omega
      simp [State.busValue, hbusy, hoff, hstatus]

end Sys2Proof.Machine
end

section
/-! The sink under a command, the window's refusals and the host's stream moves (20_memory.md R81 to R84, R95, R97). -/

namespace Sys2Proof.Machine

/-! ### The sink -/

/-- The rules with bytes to write put them behind what the sink holds; the frame of every other rule has the sink in it. -/
theorem snk_prefix_rule (i : Instr) (s : State) : s.snk <+: (ruleOf i s).state.snk := by
  cases i with
  | clear | bwFlush => exact List.prefix_append s.snk (emitBits s.bwPend)
  | bwInsert =>
    simp only [ruleOf, bwInsertBody]
    split_ifs
    · exact List.prefix_rfl
    · exact List.prefix_append ..
  | writeTable =>
    simp only [ruleOf, writeTableBody]
    split_ifs
    · exact List.prefix_rfl
    · exact List.prefix_append ..
  | encode =>
    obtain ⟨out, h⟩ := encodeBody_frame s
    exact ⟨out, (congrArg State.snk h).symm⟩
  | decode =>
    obtain ⟨t, out, rfl, h⟩ := decodeBody_frame s
    exact ⟨out, (congrArg State.snk h).symm⟩
  | nop | count | selectEof | build | encLookup | encSet | readTable | decLookup | brStart | brExtract
  | reserved10To1F | reserved20To3F | reserved40To7F | reserved80ToFF =>
    rw [rule_writes]
    exact List.prefix_rfl

/-- Settles O21: the rule only appends, and neither completion nor taking an error touches the sink. -/
theorem sinkOnlyGrows : Obligations.SinkOnlyGrows := by
  intro i s t h
  have hprefix := snk_prefix_rule i s
  rw [exec_eq_finish_rule] at h
  rcases finish_cases h with ⟨u, hu, rfl⟩ | ⟨e, u, hu, rfl⟩ <;> rw [hu] at hprefix
  · exact hprefix
  · exact hprefix

/-! ### Turns of the host -/

theorem step_cons {s : State} {a : Turn} {rest : List Turn} (h : s.agenda = a :: rest) :
    step s = takeStep a { s with agenda := rest } := by
  simp only [step, State.takeTurn, h]

/-- An access inside the window that is not four lanes at a multiple of 4 (20_memory.md R81). -/
theorem windowOffset_misshapen (base : Nat) {off width : Nat} (ho : off < 64) (hw : width ≠ 4 ∨ off % 4 ≠ 0) :
    windowOffset base (base + off) width = .error .windowAccess := by
  have hin : ¬(base + off < base ∨ base + 64 ≤ base + off) := by omega
  rw [windowOffset, if_neg hin, Nat.add_sub_cancel_left, if_pos hw]

/-- Settles O13: a bus turn asks for the window's offset first, with BUSY of any value. -/
theorem misshapenAccessRefused : Obligations.MisshapenAccessRefused := by
  intro s off width lanes rest ho hw hlanes
  have hoffset := windowOffset_misshapen s.params.base ho hw
  refine ⟨fun h => ?_, fun h => ?_⟩
  · rw [step_cons h, takeStep, busRead, hoffset]
  · rw [step_cons h, takeStep, busWrite, hlanes, hoffset]

/-- Settles O14: each stream turn is its move on the state with that turn taken. -/
theorem streamMoves : Obligations.StreamMoves := by
  intro s bytes rest
  refine ⟨fun h => ?_, fun h => ?_, fun h => ?_⟩
  · rw [step_cons h, takeStep, attachSource]
  · rw [step_cons h, takeStep, lookSink]
  · rw [step_cons h, takeStep, drainSink]

end Sys2Proof.Machine
end

section
/-! The encoding of command words (30_encoding.md R100 to R102, R105). -/

namespace Sys2Proof

/-- A command is determined by its opcode: the sixteen named rows one by one, a reserved row over the opcodes of its range (R101). -/
theorem decodeOpcode_encodeOpcode {i : Instr} (h : i.wellFormed = true) : decodeOpcode (encodeOpcode i) = i := by
  cases i with
  | nop | clear | count | selectEof | build | encLookup | encSet | bwInsert | bwFlush | writeTable | readTable | decLookup
  | brStart | brExtract | encode | decode => rfl
  | reserved10To1F opcode => revert opcode; decide
  | reserved20To3F opcode => revert opcode; decide
  | reserved40To7F opcode => revert opcode; decide
  | reserved80ToFF opcode => revert opcode; decide

theorem decodeWord_encode {i : Instr} (h : i.wellFormed = true) : decodeWord (encode i) = i := by
  rw [decodeWord, encode, opcodeField_setWidth, decodeOpcode_encodeOpcode h]

/-- Re-encoding a word keeps its opcode field and clears the bits above it (R100). -/
theorem encode_decodeWord_toNat (v : Word) : (encode (decodeWord v)).toNat = v.toNat % 256 := by
  rw [encode, decodeWord, (decodeOpcode_spec _).2, opcodeField_eq, BitVec.toNat_setWidth, BitVec.toNat_ofNat]
  omega

theorem decodeBytes_truncated : ∀ {bytes : List Byte}, bytes.length < 4 → decodeBytes bytes = .error .truncatedWord
  | [], _ | [_], _ | [_, _], _ | [_, _, _], _ => rfl
  | _ :: _ :: _ :: _ :: rest, h => absurd h (by simp only [List.length_cons]; omega)

/-- Settles O15: the four bytes give back the command word, whose opcode field gives back the command. -/
theorem decodeOfEncode : Obligations.DecodeOfEncode := by
  intro i rest h
  rw [encodeBytes, decodeBytes_wordLanes, decodeWord_encode h]

/-- Settles O16: the command of a word is the one its opcode field selects. -/
theorem everyWordIsOneCommand : Obligations.EveryWordIsOneCommand :=
  ⟨fun v rest => ⟨decodeWord v, decodeBytes_wordLanes v rest, (decodeOpcode_spec _).1, encode_decodeWord_toNat v⟩,
    fun _ h => decodeBytes_truncated h⟩

/-- Settles O17: each word is evaluated. -/
theorem opcodeMapWords : Obligations.OpcodeMapWords :=
  ⟨rfl, rfl, rfl, rfl, rfl, rfl, rfl⟩

end Sys2Proof
end

section
/-! The bits of a written slot (30_encoding.md R113). -/

namespace Sys2Proof.Machine

/-- Below the marker there are only zeros. -/
theorem slotBit_below_marker {c : Bitstring} {w p : Nat} (h : p < 8 * w - 1 - c.length) : slotBit c w p = false := by
  rw [slotBit, if_neg (by omega), if_neg (by omega)]

theorem slotBit_marker {c : Bitstring} {w : Nat} (h : c.length ≤ 8 * w - 1) :
    slotBit c w (8 * w - 1 - c.length) = true := by
  rw [slotBit, if_pos (by omega)]

/-- Above the marker stands the code, its last bit lowest. -/
theorem slotBit_above_marker {c : Bitstring} {w j : Nat} (h : c.length ≤ 8 * w - 1) (hj : j < c.length) :
    slotBit c w (8 * w - 1 - c.length + 1 + j) = c.reverse.getD j false := by
  have hindex : 8 * w - 1 - (8 * w - 1 - c.length + 1 + j) = c.length - 1 - j := by omega
  rw [slotBit, if_neg (by omega), if_pos (by omega), hindex, List.getD_reverse _ hj]

/-- Settles O42: a position lies below the marker, at it, or above it. -/
theorem slotBitPositions : Obligations.SlotBitPositions := by
  intro c w p _ hfit hp
  have hzeros : (List.replicate (8 * w - 1 - c.length) false).length = 8 * w - 1 - c.length := List.length_replicate
  have hlow : (List.replicate (8 * w - 1 - c.length) false ++ [true]).length = 8 * w - 1 - c.length + 1 := by simp
  rw [bitAt_slotWrite c hp]
  rcases lt_trichotomy p (8 * w - 1 - c.length) with hbelow | rfl | habove
  · rw [slotBit_below_marker hbelow, List.append_assoc, List.getD_append _ _ _ _ (by omega), List.getD_replicate _ hbelow]
  · rw [slotBit_marker hfit, List.append_assoc, List.getD_append_right _ _ _ _ (by omega), hzeros, Nat.sub_self]
    rfl
  · obtain ⟨j, rfl⟩ := Nat.exists_eq_add_of_le (Nat.succ_le_of_lt habove)
    rw [slotBit_above_marker hfit (by omega), List.getD_append_right _ _ _ _ (by omega), hlow, Nat.succ_eq_add_one,
      Nat.add_sub_cancel_left]

end Sys2Proof.Machine
end

section
/-! COUNT and SELECT_EOF (40_tree_builder.md R140 to R142). -/

namespace Sys2Proof.Machine

/-- Settles O30: on a source of fewer than 2^32 bytes the loop of COUNT ends at the source's end. -/
theorem countCounts : Obligations.CountCounts := by
  intro s hlen
  obtain ⟨freq, hbody, hcount⟩ := countBody_ok hlen
  exact ⟨_, congrArg finish hbody, hcount, rfl⟩

/-- Settles O31: on a longer source the loop of COUNT raises at byte number 2^32. -/
theorem countOverflows : Obligations.CountOverflows := by
  intro s hlen
  obtain ⟨freq, hbody, hcount⟩ := countBody_overflow hlen
  exact ⟨_, congrArg finish hbody, hcount, rfl⟩

/-- Settles O32: the two things SELECT_EOF can do are told apart by whether some symbol has a count. -/
theorem selectEofChooses : Obligations.SelectEofChooses := by
  intro s
  rcases selectEofBody_cases s with ⟨hzero, hbody⟩ | ⟨e, -, he, hbody, hleast⟩
  · exact ⟨fun ⟨b, hb⟩ => absurd (hzero b) hb, fun _ => congrArg finish hbody⟩
  · exact ⟨fun _ => ⟨e, congrArg finish hbody, he, hleast⟩, fun hzero => absurd (hzero e) he⟩

end Sys2Proof.Machine
end

section
/-! BUILD (40_tree_builder.md R143 to R147). -/

namespace Sys2Proof.Machine

/-! ### No symbol and one symbol -/

theorem observed_eq_singleton {freq : FreqTable} {b : Symbol} (hb : freqAt freq b ≠ 0)
    (hother : ∀ c, c ≠ b → freqAt freq c = 0) : observed freq = [b] := by
  refine List.perm_singleton.1 ((List.perm_ext_iff_of_nodup (observed_nodup freq) (List.nodup_singleton b)).2 fun c => ?_)
  rw [mem_observed, List.mem_singleton]
  exact ⟨fun hc => by_contra fun hne => hc (hother c hne), fun h => h ▸ hb⟩

theorem buildBody_none {s : State} (h : ∀ b, freqAt s.freq b = 0) : buildBody s = .raised .emptyFreq s := by
  rw [buildBody, (observed_eq_nil _).2 h]

theorem buildBody_one {s : State} {b : Symbol} (hb : freqAt s.freq b ≠ 0) (hother : ∀ c, c ≠ b → freqAt s.freq c = 0) :
    buildBody s = .ok { s with enc := encPut encEmpty b (some [true]) } := by
  rw [buildBody, observed_eq_singleton hb hother]; rfl

/-- Settles O33: with one observed symbol BUILD puts one entry into the empty table, with none it raises. -/
theorem buildDegenerate : Obligations.BuildDegenerate := by
  intro s
  refine ⟨fun b hb hother => ⟨_, congrArg finish (buildBody_one hb hother), rfl, fun c => ?_⟩,
    fun hzero => congrArg finish (buildBody_none hzero)⟩
  exact (encAt_encPut encEmpty b c (some [true])).trans (by rw [encAt_encEmpty])

/-! ### Two symbols or more -/

/-- The codes of a table made from entries of distinct symbols are the codes of the entries. -/
theorem filterMap_encAt_encOf_perm {entries : List (Symbol × Bitstring)} (hn : (entries.map Prod.fst).Nodup) :
    (allSymbols.filterMap (encAt (encOf entries))).Perm (entries.map Prod.snd) := by
  have hnodup : (allSymbols.filterMap fun b => (encAt (encOf entries) b).map (Prod.mk b)).Nodup := by
    refine List.Nodup.filterMap (fun a a' p ha ha' => ?_) (allSymbols_rising.imp BitVec.ne_of_lt)
    obtain ⟨c, -, rfl⟩ := Option.mem_map.1 ha
    obtain ⟨c', -, h⟩ := Option.mem_map.1 ha'
    exact (congrArg Prod.fst h).symm
  have hperm : (allSymbols.filterMap fun b => (encAt (encOf entries) b).map (Prod.mk b)).Perm entries := by
    refine (List.perm_ext_iff_of_nodup hnodup (.of_map _ hn)).2 fun ⟨b, c⟩ => ?_
    rw [← encAt_encOf hn]
    simp [mem_allSymbols]
  simpa [List.map_filterMap, Function.comp_def] using hperm.map Prod.snd

/-- The table of a tree is complete (R147 c). -/
theorem kraftSum_encOf_codes {t : Tree} (hn : t.leaves.Nodup) : kraftSum (encOf t.codes) = 1 := by
  rw [← Tree.codes_fst] at hn
  have hperm := (filterMap_encAt_encOf_perm hn).map fun c => (1 / 2 : ℚ) ^ c.length
  rw [kraftSum, hperm.sum_eq, List.map_map]
  exact t.codes_kraft

/-- With two observed symbols the table BUILD writes is the complete code of the tree its queue merges (R144 to R147). -/
theorem buildBody_two {s : State} {b c : Symbol} (hne : b ≠ c) (hb : freqAt s.freq b ≠ 0) (hc : freqAt s.freq c ≠ 0)
    {enc : EncTable} (h : buildBody s = .ok { s with enc := enc }) : kraftSum enc = 1 ∧ MergedInOrder s.freq enc := by
  rcases buildBody_cases s with ⟨hzero, -⟩ | ⟨x, hobs, -⟩ | ⟨x, y, rest, hobs, hbody⟩
  · exact absurd (hzero b) hb
  · rw [← mem_observed, hobs, List.mem_singleton] at hb hc
    exact absurd (hb.trans hc.symm) hne
  · obtain rfl : enc = encOf (buildTree s.freq x (y :: rest)).codes :=
      congrArg State.enc (Body.ok.inj (h.symm.trans hbody))
    exact ⟨kraftSum_encOf_codes ((buildTree_leaves _ _ _).nodup_iff.2 (hobs ▸ observed_nodup _)),
      buildTree_mergedInOrder hobs fun x code => (encAt_buildTree hobs x code).2⟩

/-- Settles O34: BUILD's table is the code of the merged tree; the order of the merges gives the order of the lengths and the
siblings. -/
theorem buildMakesCompletePrefixCode : Obligations.BuildMakesCompletePrefixCode := by
  intro s hobs
  obtain ⟨enc, hbody, hdom, hprefix, hlen⟩ := buildBody_spec hobs
  refine ⟨_, congrArg finish hbody, rfl, hdom, hprefix, hlen, fun b c hne hb hc => ?_⟩
  obtain ⟨hkraft, hmerged⟩ := buildBody_two hne hb hc hbody
  refine ⟨hkraft, hmerged, fun x y hx hy => ⟨fun hbc => hmerged.shorter hb hc hbc hx hy, fun hfirst hsecond => ?_⟩⟩
  obtain ⟨p, hp1, hp0⟩ := hmerged.siblings hne hb hc hfirst hsecond
  exact ⟨p, Option.some.inj (hx.symm.trans hp1), Option.some.inj (hy.symm.trans hp0)⟩

/-! ### The sentinel -/

/-- Settles O35: SELECT_EOF leaves FREQ, so BUILD merges the sentinel first, as a one-branch. -/
theorem sentinelCodeEndsInOne : Obligations.SentinelCodeEndsInOne := by
  rintro s t u ⟨b, hb⟩ ht hu
  rcases selectEofBody_cases s with ⟨hzero, -⟩ | ⟨e, he, -, hselect, -⟩
  · exact absurd (hzero b) hb
  obtain rfl := Host.Outcome.next.inj ((congrArg finish hselect).symm.trans ht)
  obtain ⟨enc, c, hbuild, hc⟩ := buildBody_sentinel
    (s := State.complete { s with eofSym := e, eofValid := true }) he
  obtain rfl := Host.Outcome.next.inj ((congrArg finish hbuild).symm.trans hu)
  exact ⟨c, hc⟩

end Sys2Proof.Machine
end

section
/-! ENC_LOOKUP and ENC_SET (40_tree_builder.md R148, R149). -/

namespace Sys2Proof.Machine

/-- Above the bitstring put to CODE there are zeros (30_encoding.md R104). -/
theorem putCode_code_getLsbD_of_length_le (s : State) {c : Bitstring} {i : Nat} (h : c.length ≤ i) :
    (s.putCode c).code.getLsbD i = false := by
  rw [State.putCode_code, ofNat_natOfBits_getLsbD, List.getElem?_eq_none h, Option.getD_none, Bool.and_false]

theorem encLookupBody_some {s : State} {c : Bitstring} (h : encAt s.enc s.sym = some c) :
    encLookupBody s = .ok ((s.putCode c).setFound true) := by
  rw [encLookupBody, h]

theorem encLookupBody_none {s : State} (h : encAt s.enc s.sym = none) :
    encLookupBody s = .ok ((s.putCode []).setFound false) := by
  rw [encLookupBody, h]

/-- Settles O36: a code found is put to CODE, where the operand reads it back; no code is the empty bitstring. -/
theorem encLookupResult : Obligations.EncLookupResult := by
  refine fun s => ⟨fun c hc hlen => ?_, fun hnone => congrArg finish (encLookupBody_none hnone)⟩
  exact ⟨_, congrArg finish (encLookupBody_some hc), operand_putCode s (by omega),
    fun i hi => putCode_code_getLsbD_of_length_le s hi, rfl⟩

theorem operand_length (s : State) : s.operand.length = s.codeLen.toNat := by
  rw [State.operand, List.length_map, List.length_range]

/-- Bit `i` of the operand is bit `i` of CODE (30_encoding.md R104). -/
theorem operand_getD (s : State) {i : Nat} (h : i < s.operand.length) : s.operand.getD i false = s.code.getLsbD i := by
  rw [List.getD_eq_getElem _ _ h]
  simp [State.operand]

/-- The entry ENC_SET writes: none for CODE_LEN 0, else the operand (R149). -/
def State.encSetEntry (s : State) : Option Bitstring := if s.codeLen.toNat = 0 then none else some s.operand

theorem encSetBody_ok {s : State} (h : s.codeLen.toNat ≤ 2039) :
    encSetBody s = .ok { s with enc := encPut s.enc s.sym s.encSetEntry } := by
  rw [encSetBody, if_neg (by omega), State.encSetEntry]
  split_ifs <;> rfl

theorem encSetBody_raised {s : State} (h : 2039 < s.codeLen.toNat) : encSetBody s = .raised .badOperand s := by
  rw [encSetBody, if_pos h]

/-- Settles O37: ENC_SET writes one entry of ENC, the deletion or the operand by CODE_LEN. -/
theorem encSetEffect : Obligations.EncSetEffect := by
  refine fun s => ⟨fun hlen => ?_, fun hlong => congrArg finish (encSetBody_raised hlong)⟩
  have hentry : encAt (encPut s.enc s.sym s.encSetEntry) s.sym = s.encSetEntry := by rw [encAt_encPut, if_pos rfl]
  refine ⟨_, congrArg finish (encSetBody_ok hlen), rfl, fun b hb => ?_, fun hzero => ?_, fun hne => ?_⟩
  · exact (encAt_encPut _ _ _ _).trans (if_neg hb)
  · exact hentry.trans (if_pos (by rw [hzero]; rfl))
  · have hpos : s.codeLen.toNat ≠ 0 := fun h => hne (BitVec.eq_of_toNat_eq h)
    exact ⟨s.operand, hentry.trans (if_neg hpos), operand_length s, fun i hi => operand_getD s hi⟩

end Sys2Proof.Machine
end

section
/-! BW_INSERT and BW_FLUSH (41_bit_writer.md R171 to R174). -/

namespace Sys2Proof.Machine

theorem bwInsertBody_ok {s : State} (h : s.codeLen.toNat ≤ 2048) : bwInsertBody s = .ok (s.writerInsert s.operand) := by
  rw [bwInsertBody, if_neg (Nat.not_lt.2 h)]

theorem bwInsertBody_raised {s : State} (h : 2048 < s.codeLen.toNat) : bwInsertBody s = .raised .badOperand s := by
  rw [bwInsertBody, if_pos h]

/-- A whole number of bytes is written without padding (R170). -/
theorem bitsOfBytes_emitBits_of_whole {x : Bitstring} (h : x.length % 8 = 0) : bitsOfBytes (emitBits x) = x := by
  rw [bitsOfBytes_emitBits, padToByte_of_whole h]

/-- Settles O38: WriterInsert writes the full words of the pending and the inserted bits, and a full word is whole bytes. -/
theorem bwInsertKeepsEveryBit : Obligations.BwInsertKeepsEveryBit := by
  refine fun s hl hp => ⟨fun hlen => ?_, fun hlong => congrArg finish (bwInsertBody_raised hlong)⟩
  obtain ⟨full, hsplit, hout, hwords, hbytes, hpend⟩ := writerLoop_spec (Params.wordBits_mod_eight hl) hp s.operand
  have hbits : bitsOfBytes (writerLoop s.params.wordBits s.bwPend s.operand).2 = full := by
    rw [hout, bitsOfBytes_emitBits_of_whole hbytes]
  refine ⟨_, _, congrArg finish (bwInsertBody_ok hlen), rfl, ?_, ?_, hpend⟩
  · rw [hbits]
    exact hsplit.symm
  · rw [← bitsOfBytes_length, hbits, hwords]

/-- EmitBits writes as many bytes as its bits need (R170). -/
theorem emitBits_length_eq_ceil (x : Bitstring) : (emitBits x).length = (x.length + 7) / 8 := by
  rw [emitBits_length, padToByte, List.length_append, List.length_replicate]
  omega

/-- Settles O39: the flush emits the pending bits, and the padding fills their last byte. -/
theorem bwFlushWritesPending : Obligations.BwFlushWritesPending := by
  refine fun s => ⟨emitBits s.bwPend, rfl, emitBits_length_eq_ceil _, ?_⟩
  have hpad : (8 - s.bwPend.length % 8) % 8 = 8 * (emitBits s.bwPend).length - s.bwPend.length := by
    rw [emitBits_length_eq_ceil]
    omega
  rw [bitsOfBytes_emitBits, padToByte, hpad]

end Sys2Proof.Machine
end

section
/-! Slots, written and read (30_encoding.md R113, R114, 42_table_codec.md R185). -/

namespace Sys2Proof.Machine

/-- SlotRead where the marker is known: the code is the bits above it, the top one first (R114). -/
theorem slotRead_of_marker {bytes : List Byte} {m : Nat} (hm : m < 8 * bytes.length - 1) (hbit : bitAt bytes m = true)
    (hlow : ∀ p < m, bitAt bytes p = false) :
    slotRead bytes =
      some ((List.range (8 * bytes.length - 1 - m)).map fun i => bitAt bytes (8 * bytes.length - 1 - i)) := by
  have hfind : (List.range (8 * bytes.length)).find? (bitAt bytes) = some m :=
    List.find?_range_eq_some.2 ⟨hbit, List.mem_range.2 (by omega), fun p hp => by simp [hlow p hp]⟩
  simp only [slotRead, hfind]
  rw [if_neg (by omega)]

/-- A slot without a 1-bit below its top position holds no code (R114). -/
theorem slotRead_eq_none {bytes : List Byte} (h : ∀ p < 8 * bytes.length - 1, bitAt bytes p = false) :
    slotRead bytes = none := by
  cases hread : slotRead bytes with
  | none => rfl
  | some c =>
    obtain ⟨m, hm, hbit, -⟩ := slotRead_eq_some hread
    rw [h m hm] at hbit
    cases hbit

/-- Code bit `i` stands at position `8w - 1 - i` (R113). -/
theorem slotBit_code {c : Bitstring} {w i : Nat} (hfit : c.length ≤ 8 * w - 1) (hi : i < c.length) :
    slotBit c w (8 * w - 1 - i) = c.getD i false := by
  have hindex : 8 * w - 1 - (8 * w - 1 - i) = i := by omega
  rw [slotBit, if_neg (by omega), if_pos (by omega), hindex]

/-- Settles O41: the least 1-bit of a written slot is its marker, and the code stands above it. -/
theorem slotRoundTrip : Obligations.SlotRoundTrip := by
  intro c w hpos hfit
  have hmarker : bitAt (slotWrite c w) (8 * w - 1 - c.length) = true := by
    rw [bitAt_slotWrite c (by omega), slotBit_marker hfit]
  have hzeros : ∀ p < 8 * w - 1 - c.length, bitAt (slotWrite c w) p = false := fun p hp => by
    rw [bitAt_slotWrite c (by omega), slotBit_below_marker hp]
  refine ⟨slotWrite_length c w, ?_⟩
  rw [slotRead_of_marker (by rw [slotWrite_length]; omega) hmarker hzeros, slotWrite_length]
  refine congrArg some (List.ext_getElem (by rw [List.length_map, List.length_range]; omega) fun i _ hi => ?_)
  rw [List.getElem_map, List.getElem_range, bitAt_slotWrite c (by omega), slotBit_code hfit hi, List.getD_eq_getElem _ _ hi]

end Sys2Proof.Machine
end

section
/-! WRITE_TABLE (42_table_codec.md R187, 30_encoding.md R108 to R119). -/

namespace Sys2Proof.Machine

theorem writeTableBody_raised {s : State} (h : s.eofValid = false ∨ encAt s.enc s.eofSym = none ∨ s.bwPend ≠ []) :
    writeTableBody s = .raised .notReady s := by
  rw [writeTableBody, if_pos (h.imp_right (Or.imp_right List.length_pos_of_ne_nil))]

/-- Settles O44: the rule raises before it writes. -/
theorem writeTableNotReady : Obligations.WriteTableNotReady := by
  intro s h
  exact congrArg finish (writeTableBody_raised h)

theorem writeTableBody_ok {s : State} {ce : Bitstring} (hvalid : s.eofValid = true)
    (hce : encAt s.enc s.eofSym = some ce) (hpend : s.bwPend = []) :
    writeTableBody s = .ok { s with
      snk := s.snk ++ preamble s.enc s.eofSym, width := BitVec.ofNat 8 (slotWidth (maxCodeLen s.enc)) } := by
  rw [writeTableBody, if_neg (by simp [hvalid, hce, hpend])]

/-- A symbol with its code in ENC, as an entry of the preamble has them (R109). -/
def encEntry (enc : EncTable) (b : Symbol) : Symbol × Bitstring := (b, (encAt enc b).getD [])

theorem encEntry_of_code {enc : EncTable} {b : Symbol} {c : Bitstring} (h : encAt enc b = some c) :
    encEntry enc b = (b, c) := by
  rw [encEntry, h, Option.getD_some]

@[simp] theorem map_fst_map_encEntry (enc : EncTable) (l : List Symbol) :
    (l.map (encEntry enc)).map Prod.fst = l := by
  simp [Function.comp_def, encEntry]

/-- An entry with the slot SlotWrite makes of its code (R109, R113). -/
def withSlot (w : Nat) (p : Symbol × Bitstring) : Symbol × Bitstring × List Byte := (p.1, p.2, slotWrite p.2 w)

/-- The preamble of WRITE_TABLE in the terms of `preambleBytes` (R108). -/
theorem preamble_eq_preambleBytes {enc : EncTable} {eof b : Symbol} {bs : List Symbol} {ce : Bitstring}
    (hsymbols : tableSymbols enc eof = b :: bs) (hce : encAt enc eof = some ce) :
    preamble enc eof =
      preambleBytes (BitVec.ofNat 8 (slotWidth (maxCodeLen enc))) (withSlot (slotWidth (maxCodeLen enc)) (encEntry enc b))
        ((bs.map (encEntry enc)).map (withSlot (slotWidth (maxCodeLen enc))))
        (slotWrite ce (slotWidth (maxCodeLen enc))) eof := by
  simp [preamble, preambleBytes, slotOf, hsymbols, hce, withSlot, encEntry, List.flatMap_map]

/-- A slot width fits the preamble's width byte, as codes have at most 2039 bits (R112). -/
theorem toNat_ofNat_slotWidth {enc : EncTable} (h : ∀ b c, encAt enc b = some c → c.length ≤ 2039) :
    (BitVec.ofNat 8 (slotWidth (maxCodeLen enc))).toNat = slotWidth (maxCodeLen enc) := by
  have hmax : maxCodeLen enc ≤ 2039 := maxCodeLen_le h
  rw [BitVec.toNat_ofNat, Nat.mod_eq_of_lt (by rw [slotWidth]; omega)]

/-- Settles O43: the entries are those of the symbols WRITE_TABLE takes, and the width is that of the longest code. -/
theorem writeTablePreamble : Obligations.WriteTablePreamble := by
  intro s ce hvalid hce hpend hlen
  obtain ⟨b, bs, hsymbols, hrising, hall, hcoded, hsentinel⟩ := tableSymbols_spec s.enc s.eofSym
  have hw := toNat_ofNat_slotWidth fun b c h => (hlen b c h).2
  refine ⟨_, encEntry s.enc b, bs.map (encEntry s.enc), _, congrArg finish (writeTableBody_ok hvalid hce hpend), ?_,
    ?_, fun x c hx => ?_, ?_, fun p hp => ?_, fun x c hne hx => ?_, fun heof => ?_⟩
  · rw [hw]
    exact congrArg (s.snk ++ ·) (preamble_eq_preambleBytes hsymbols hce)
  · obtain ⟨x, c, hx, hmax⟩ := maxCodeLen_attained hce
    exact ⟨x, c, hx, by rw [hw, slotWidth, hmax]⟩
  · rw [hw, slotWidth]
    exact Nat.div_le_div_right (Nat.add_le_add_right (le_maxCodeLen hx) 8)
  · rwa [← List.map_cons, map_fst_map_encEntry]
  · obtain ⟨x, hx, rfl⟩ := List.mem_map.1 (List.map_cons ▸ hp)
    have hne : encAt s.enc x ≠ none := by
      by_cases hxe : x = s.eofSym
      · rw [hxe, hce]; exact Option.some_ne_none ce
      · exact hcoded x hx hxe
    obtain ⟨c, hc⟩ := Option.ne_none_iff_exists'.1 hne
    rw [encEntry_of_code hc, hc]
  · rw [← List.map_cons, ← encEntry_of_code hx]
    exact List.mem_map_of_mem (hall x hne (by rw [hx]; exact Option.some_ne_none c))
  · rw [← List.map_cons, map_fst_map_encEntry] at heof
    obtain ⟨-, rfl, hnone⟩ := hsentinel heof
    exact ⟨rfl, hnone⟩

end Sys2Proof.Machine
end

section
/-! READ_TABLE on a well-formed preamble (42_table_codec.md R188, R189, R191). -/

namespace Sys2Proof.Machine

/-- READ_TABLE where the parser accepts: the table is committed and the reader reset (R188). -/
theorem exec_readTable_of_parse_ok {s : State} {p : Preamble} {mid : Nat}
    (h : parsePreamble s.src s.srcPos = .ok p mid) :
    exec .readTable s = .next { s with
      brValid := false, brByte := 0, brNbits := 0, brFail := .none, brMaxlen := 0, dec := p.decTable, decValid := true,
      eofSym := p.eof, eofValid := true, width := p.width, srcPos := mid, busy := false, done := true } := by
  rw [exec_eq_finish_rule, ruleOf, readTableBody, h]
  rfl

/-- Settles O45: the parser accepts the preamble, and DEC is the inverse of what it read. -/
theorem readTableAcceptsPreambles : Obligations.ReadTableAcceptsPreambles := by
  intro s w first more ce eofSlot eof rest hw hunread hsymbols hslots heofSlot heof hcodes
  obtain ⟨hparse, hvalid⟩ := parsePreamble_of_drop hw hunread hsymbols hslots heofSlot heof hcodes
  refine ⟨_, exec_readTable_of_parse_ok hparse, rfl, fun c b => ?_⟩
  refine ((decTable_spec hvalid).2 c b).trans ?_
  rw [List.mem_append, List.mem_map, List.mem_singleton, Prod.mk.injEq, or_comm]
  simp only [Prod.mk.injEq, eq_comm]

/-- Settles O48: WRITE_TABLE writes a preamble of distinct symbols and distinct codes in slots that hold them, and READ_TABLE
accepts every such preamble. -/
theorem tableRoundTrip : Obligations.TableRoundTrip := by
  intro s t hvalid hsome hpend hdistinct hlen ht
  obtain ⟨ce, hce⟩ := Option.ne_none_iff_exists'.1 hsome
  obtain ⟨w, first, more, t', hexec, hsnk, -, hwidth, hrising, hcoded, hall, -⟩ :=
    writeTablePreamble s ce hvalid hce hpend hlen
  obtain rfl := Host.Outcome.next.inj (hexec.symm.trans ht)
  have hw : w ≠ 0 := by
    rintro rfl
    have hzero : (ce.length + 8) / 8 ≤ 0 := hwidth _ _ hce
    omega
  have hslot : ∀ b c, encAt s.enc b = some c → SlotOf w.toNat c (slotWrite c w.toNat) := fun b c hc =>
    slotRoundTrip c w.toNat (hlen b c hc).1 (by have := hwidth b c hc; omega)
  have hnodup : ((first :: more).map Prod.fst).Nodup := hrising.imp BitVec.ne_of_lt
  have hcodes : ((first :: more).map Prod.snd).Nodup := List.Nodup.map_on (fun p hp q hq hpq =>
    Prod.ext (hdistinct _ _ _ (hcoded p hp) (hpq ▸ hcoded q hq)) hpq) (.of_map _ hnodup)
  have heof : ∀ p ∈ first :: more, (p.1 = s.eofSym ↔ p.2 = ce) := fun p hp => by
    have hp := hcoded p hp
    exact ⟨fun h => Option.some.inj (hp.symm.trans (h ▸ hce)), fun h => hdistinct _ _ _ hp (h ▸ hce)⟩
  refine ⟨_, hsnk, fun u hu => ?_⟩
  obtain ⟨v, hread, hv, hdec⟩ := readTableAcceptsPreambles u w (withSlot w.toNat first) (more.map (withSlot w.toNat)) ce
    (slotWrite ce w.toNat) s.eofSym [] hw (hu.trans (List.append_nil _).symm)
    (by simpa [Function.comp_def, withSlot] using hnodup)
    ((List.forall_mem_map (l := first :: more)).2 fun p hp => hslot _ _ (hcoded p hp)) (hslot _ _ hce)
    ((List.forall_mem_map (l := first :: more)).2 heof) (by simpa [Function.comp_def, withSlot] using hcodes)
  refine ⟨v, hread, hv, fun b c => (hdec c b).trans ⟨?_, fun hc => ?_⟩⟩
  · rintro (⟨rfl, rfl⟩ | ⟨p, hp, rfl, rfl⟩)
    · exact hce
    · obtain ⟨q, hq, rfl⟩ := List.mem_map.1 (List.map_cons.symm ▸ hp)
      exact hcoded q hq
  · by_cases hb : b = s.eofSym
    · exact .inl ⟨hb, Option.some.inj (hc.symm.trans (hb ▸ hce))⟩
    · exact .inr ⟨withSlot w.toNat (b, c), List.mem_map_of_mem (hall b c hb hc), rfl, rfl⟩

end Sys2Proof.Machine
end

section
/-! READ_TABLE that raises (42_table_codec.md R188, R189, 60_exceptions.md R271, R274). -/

namespace Sys2Proof.Machine

/-- READ_TABLE where the parser raises: the table stays cleared, SRC_POS stays where the parser stopped (R188). -/
theorem exec_readTable_of_parse_raised {s : State} {e : CmdError} {mid : Nat}
    (h : parsePreamble s.src s.srcPos = .raised e mid) :
    exec .readTable s = .next (State.takeError e { s.readerReset.clearParsed with srcPos := mid }) := by
  rw [exec_eq_finish_rule, ruleOf, readTableBody, h]
  rfl

/-- Every error of the parser is a MALFORMED_HEADER (60_exceptions.md R271). -/
theorem parsePreamble_raised_code {src : List Byte} {pos mid : Nat} {e : CmdError}
    (h : parsePreamble src pos = .raised e mid) : e.code = 2 := by
  have hcodes : ∀ e ∈ [CmdError.truncated, .badWidth, .badSlot, .dupSymbol, .eofConflict, .dupCode], e.code = 2 := by
    decide
  exact hcodes e (parsePreamble_raised h).1

/-- Settles O47: only a parse that raises latches an error, and it leaves what READ_TABLE cleared first. -/
theorem readTableErrorClears : Obligations.ReadTableErrorClears := by
  intro s t hclean ht herr
  cases hparse : parsePreamble s.src s.srcPos with
  | ok p mid =>
    obtain rfl := Host.Outcome.next.inj ((exec_readTable_of_parse_ok hparse).symm.trans ht)
    exact absurd (hclean.symm.trans herr) Bool.false_ne_true
  | raised e mid =>
    obtain rfl := Host.Outcome.next.inj ((exec_readTable_of_parse_raised hparse).symm.trans ht)
    rw [State.takeError, parsePreamble_raised_code hparse]
    rfl

/-- The parse raises `e` and leaves the bytes `left` of the source unread. -/
def Parse.RaisesLeaving {α : Type} (src : List Byte) (e : CmdError) (left : List Byte) (p : Parse α) : Prop :=
  ∃ mid, p = .raised e mid ∧ src.drop mid = left

theorem Parse.RaisesLeaving.andThen {α β : Type} {src left : List Byte} {e : CmdError} {p : Parse α}
    (h : p.RaisesLeaving src e left) (k : α → Nat → Parse β) : (p.andThen k).RaisesLeaving src e left := by
  obtain ⟨mid, rfl, hleft⟩ := h
  exact ⟨mid, rfl, hleft⟩

/-- READ_TABLE latches what the parser raises (60_exceptions.md R272). -/
theorem exec_readTable_raises {s : State} {e : CmdError} {left : List Byte}
    (h : (parsePreamble s.src s.srcPos).RaisesLeaving s.src e left) :
    ∃ t, exec .readTable s = .next t ∧ t.err = true ∧ t.errCode = 2 ∧ t.errDetail = e.detail ∧ t.unread = left := by
  obtain ⟨mid, hparse, hleft⟩ := h
  exact ⟨_, exec_readTable_of_parse_raised hparse, rfl, parsePreamble_raised_code hparse, rfl, hleft⟩

/-! ### The parser's pieces where they raise -/

theorem rd_raises {src : List Byte} {pos : Nat} (h : src.drop pos = []) :
    (rd src pos).RaisesLeaving src .truncated [] :=
  ⟨pos, rd_end (List.drop_eq_nil_iff.1 h), h⟩

theorem rdSlot_raises_truncated {src : List Byte} {w pos : Nat} (h : (src.drop pos).length < w) :
    (rdSlot src w pos).RaisesLeaving src .truncated [] := by
  obtain ⟨mid, hraised, hmid⟩ := rdSlot_short (List.length_drop ▸ h)
  exact ⟨mid, hraised, List.drop_eq_nil_iff.2 hmid⟩

/-- The bytes are as many as a slot of width `w` has, and none of their bits below the top one is set, so they hold no code
(30_encoding.md R114). -/
def BlankSlot (w : Nat) (bytes : List Byte) : Prop := bytes.length = w ∧ ∀ p < 8 * w - 1, bitAt bytes p = false

theorem rdSlot_raises_badSlot {src bytes rest : List Byte} {w pos : Nat} (h : BlankSlot w bytes)
    (hd : src.drop pos = bytes ++ rest) : (rdSlot src w pos).RaisesLeaving src .badSlot rest := by
  obtain ⟨rfl, hblank⟩ := h
  exact ⟨_, rdSlot_bad hd (slotRead_eq_none hblank)⟩

/-- What READ_TABLE reads behind the terminator: the sentinel's slot and the sentinel, and then it validates (R188). -/
def parseSentinel (src : List Byte) (w : Byte) (ent : List (Symbol × Bitstring)) (pos : Nat) : Parse Preamble :=
  (rdSlot src w.toNat pos).andThen fun ce pos =>
  (rd src pos).andThen fun e pos =>
    match validate ent e ce with
    | some err => .raised err pos
    | none => .ok ⟨w, ent, e, ce⟩ pos

/-- A source that begins with a width that is not 0: the first symbol and its slot follow, then the entry loop and the sentinel. -/
theorem parsePreamble_of_width {src tail : List Byte} {pos : Nat} {w : Byte} (hw : w ≠ 0)
    (hd : src.drop pos = w :: tail) :
    parsePreamble src pos =
      (rd src (pos + 1)).andThen fun s0 pos =>
      (rdSlot src w.toNat pos).andThen fun c0 pos =>
      (rdEntries src w.toNat s0 (src.length - pos) [(s0, c0)] pos).andThen (parseSentinel src w) := by
  rw [parsePreamble, (rd_of_drop hd).1, Parse.andThen_ok, if_neg hw]
  rfl

/-- READ_TABLE at a preamble's entries, `tail` behind them: the entry loop goes on at `tail` with all of them (R188). -/
theorem parsePreamble_of_entries {src tail : List Byte} {pos : Nat} {w : Byte} {first : Symbol × Bitstring × List Byte}
    {more : List (Symbol × Bitstring × List Byte)} (hw : w ≠ 0) (hn : ((first :: more).map Prod.fst).Nodup)
    (hs : ∀ p ∈ first :: more, SlotOf w.toNat p.2.1 p.2.2)
    (hd : src.drop pos = [w] ++ (first :: more).flatMap (fun p => p.1 :: p.2.2) ++ tail) :
    ∃ k mid, parsePreamble src pos =
        (rdEntries src w.toNat first.1 k ((first :: more).map fun p => (p.1, p.2.1)) mid).andThen (parseSentinel src w) ∧
      src.drop mid = tail ∧ src.length - mid ≤ k := by
  obtain ⟨hlen, hread⟩ := hs first List.mem_cons_self
  have hd : src.drop pos = w :: first.1 :: (first.2.2 ++ (more.flatMap (fun p => p.1 :: p.2.2) ++ tail)) := by
    simpa using hd
  obtain ⟨hfirst, hslot⟩ := rd_of_drop (rd_of_drop hd).2
  obtain ⟨hcode, hmore⟩ := rdSlot_of_drop hslot hread
  rw [hlen] at hcode hmore
  obtain ⟨k, mid, hskip, hmid, hk⟩ := rdEntries_skip (s0 := first.1) (ent := [(first.1, first.2.1)]) hmore
    (fun p hp => hs p (List.mem_cons_of_mem _ hp)) List.mem_cons_self hn le_rfl
  refine ⟨k, mid, ?_, hmid, hk⟩
  rw [parsePreamble_of_width hw hd, hfirst, Parse.andThen_ok, hcode, Parse.andThen_ok, hskip]
  rfl

theorem validate_eq_eofConflict {ent : List (Symbol × Bitstring)} {e : Symbol} {ce : Bitstring}
    (h : ∃ p ∈ ent, p.1 = e ∧ p.2 ≠ ce) : validate ent e ce = some .eofConflict := by
  obtain ⟨p, hp, he, hne⟩ := h
  rw [validate, if_pos (List.any_eq_true.2 ⟨p, hp, by simp [he, hne]⟩)]

/-- Two symbols with one code, the sentinel among them, are refused where the sentinel's code is its entry's (R189). -/
theorem validate_eq_dupCode {ent : List (Symbol × Bitstring)} {e : Symbol} {ce : Bitstring}
    (heof : ∀ p ∈ ent, p.1 = e → p.2 = ce)
    (h : ∃ p ∈ ent ++ [(e, ce)], ∃ q ∈ ent ++ [(e, ce)], p.1 ≠ q.1 ∧ p.2 = q.2) :
    validate ent e ce = some .dupCode := by
  obtain ⟨p, hp, q, hq, hne, heq⟩ := h
  have hnoconflict : ¬ ent.any (fun p => p.1 == e && p.2 != ce) = true := fun hany => by
    obtain ⟨r, hr, hr'⟩ := List.any_eq_true.1 hany
    simp only [Bool.and_eq_true, beq_iff_eq, bne_iff_ne] at hr'
    exact hr'.2 (heof r hr hr'.1)
  rw [validate, if_neg hnoconflict,
    if_pos (List.any_eq_true.2 ⟨p, hp, List.any_eq_true.2 ⟨q, hq, by simp [heq, hne]⟩⟩)]

/-- A slot and a sentinel that Validate refuses (R189). -/
theorem parseSentinel_raises {src eofSlot rest : List Byte} {w : Byte} {ent : List (Symbol × Bitstring)} {pos : Nat}
    {ce : Bitstring} {eof : Symbol} {e : CmdError} (he : SlotOf w.toNat ce eofSlot)
    (hd : src.drop pos = eofSlot ++ eof :: rest) (hv : validate ent eof ce = some e) :
    (parseSentinel src w ent pos).RaisesLeaving src e rest := by
  obtain ⟨hcode, heof⟩ := rdSlot_of_drop hd he.2
  obtain ⟨hlast, hrest⟩ := rd_of_drop heof
  rw [he.1] at hcode hlast hrest
  refine ⟨_, ?_, hrest⟩
  rw [parseSentinel, hcode, Parse.andThen_ok, hlast, Parse.andThen_ok, hv]

/-- The sentinel's slot and the sentinel, cut short (R188). -/
theorem parseSentinel_raises_truncated {src eofSlot lost : List Byte} {w : Byte} {ent : List (Symbol × Bitstring)}
    {pos : Nat} {ce : Bitstring} {eof : Symbol} (he : SlotOf w.toNat ce eofSlot) (hlost : lost ≠ [])
    (hd : src.drop pos ++ lost = eofSlot ++ [eof]) : (parseSentinel src w ent pos).RaisesLeaving src .truncated [] := by
  have hcut : (src.drop pos).length ≤ eofSlot.length := by
    have hlen := congrArg List.length hd
    have := List.length_pos_of_ne_nil hlost
    simp only [List.length_append, List.length_singleton] at hlen
    omega
  rcases hcut.lt_or_eq with hshort | hwhole
  · exact (rdSlot_raises_truncated (he.1 ▸ hshort)).andThen _
  · obtain ⟨hslot, -⟩ := List.append_inj hd hwhole
    obtain ⟨hcode, hend⟩ := rdSlot_of_drop (hslot.trans (List.append_nil _).symm) he.2
    rw [he.1] at hcode hend
    rw [parseSentinel, hcode, Parse.andThen_ok]
    exact (rd_raises hend).andThen _

/-- A preamble parts into its entries, the terminator, and the sentinel's slot and symbol (30_encoding.md R108). -/
theorem preambleBytes_append (w : Byte) (first : Symbol × Bitstring × List Byte)
    (more : List (Symbol × Bitstring × List Byte)) (eofSlot : List Byte) (eof : Symbol) (rest : List Byte) :
    preambleBytes w first more eofSlot eof ++ rest =
      [w] ++ (first :: more).flatMap (fun p => p.1 :: p.2.2) ++ first.1 :: (eofSlot ++ eof :: rest) := by
  simp [preambleBytes]

/-! ### The preamble where it goes wrong

The source holds well-formed entries `first` and `more` behind their width `w`. -/

section

variable {src tail : List Byte} {pos : Nat} {w : Byte} {first : Symbol × Bitstring × List Byte}
  {more : List (Symbol × Bitstring × List Byte)} (hw : w ≠ 0) (hn : ((first :: more).map Prod.fst).Nodup)
  (hs : ∀ p ∈ first :: more, SlotOf w.toNat p.2.1 p.2.2)
include hw hn hs

/-- The symbol `b` behind the entries is the terminator, or a duplicate, or an entry's with its slot to follow (R188). -/
theorem parsePreamble_of_symbol {b : Symbol}
    (hd : src.drop pos = [w] ++ (first :: more).flatMap (fun p => p.1 :: p.2.2) ++ b :: tail) :
    ∃ k mid, src.drop mid = tail ∧ parsePreamble src pos =
      (if b = first.1 then .ok ((first :: more).map fun p => (p.1, p.2.1)) mid
        else if b ∈ (first :: more).map Prod.fst then .raised .dupSymbol mid
        else (rdSlot src w.toNat mid).andThen fun c pos =>
          rdEntries src w.toNat first.1 k ((first :: more).map (fun p => (p.1, p.2.1)) ++ [(b, c)]) pos).andThen
        (parseSentinel src w) := by
  obtain ⟨k, mid, hparse, hmid, hk⟩ := parsePreamble_of_entries hw hn hs hd
  obtain ⟨hsymbol, htail⟩ := rd_of_drop hmid
  have hlen : (src.drop mid).length = tail.length + 1 := by rw [hmid, List.length_cons]
  rw [List.length_drop] at hlen
  obtain ⟨k, rfl⟩ : ∃ n, k = n + 1 := Nat.exists_eq_add_one.2 (by omega)
  have hdup : ((first :: more).map (fun p => (p.1, p.2.1))).any (fun p => p.1 == b) = true ↔
      b ∈ (first :: more).map Prod.fst := by
    simp only [List.any_map, List.any_eq_true, Function.comp_apply, beq_iff_eq, List.mem_map]
  refine ⟨k, mid + 1, htail, ?_⟩
  rw [hparse, rdEntries, hsymbol, Parse.andThen_ok]
  simp only [hdup]

/-- Behind the terminator stands the sentinel. -/
theorem parsePreamble_of_terminator
    (hd : src.drop pos = [w] ++ (first :: more).flatMap (fun p => p.1 :: p.2.2) ++ first.1 :: tail) :
    ∃ mid, parsePreamble src pos = parseSentinel src w ((first :: more).map fun p => (p.1, p.2.1)) mid ∧
      src.drop mid = tail := by
  obtain ⟨k, mid, hmid, hparse⟩ := parsePreamble_of_symbol hw hn hs hd
  exact ⟨mid, by rw [hparse, if_pos rfl, Parse.andThen_ok], hmid⟩

/-- A source that ends inside the entries or before the terminator (R188). -/
theorem parsePreamble_raises_truncated_in_entries {lost : List Byte}
    (hd : src.drop pos ++ lost = [w] ++ (first :: more).flatMap (fun p => p.1 :: p.2.2)) :
    (parsePreamble src pos).RaisesLeaving src .truncated [] := by
  obtain ⟨hlen, hread⟩ := hs first List.mem_cons_self
  cases hwidth : src.drop pos with
  | nil => exact (rd_raises hwidth).andThen _
  | cons w' unread =>
    obtain ⟨rfl, hbehind⟩ : w' = w ∧ unread ++ lost = first.1 :: (first.2.2 ++ more.flatMap fun p => p.1 :: p.2.2) := by
      simpa [hwidth] using hd
    have hunread := (rd_of_drop hwidth).2
    rw [parsePreamble_of_width hw hwidth]
    cases hsymbol : unread with
    | nil => exact (rd_raises (hunread.trans hsymbol)).andThen _
    | cons b unread' =>
      obtain ⟨rfl, hbehind⟩ : b = first.1 ∧ unread' ++ lost = first.2.2 ++ more.flatMap fun p => p.1 :: p.2.2 := by
        simpa [hsymbol] using hbehind
      obtain ⟨hfirst, hunread'⟩ := rd_of_drop (hunread.trans hsymbol)
      rw [hfirst, Parse.andThen_ok]
      by_cases hshort : unread'.length < w'.toNat
      · exact (rdSlot_raises_truncated (hunread' ▸ hshort)).andThen _
      · obtain ⟨rest, hslot⟩ : first.2.2 <+: unread' :=
          List.prefix_of_prefix_length_le ⟨_, hbehind.symm⟩ (List.prefix_append _ _) (by omega)
        obtain ⟨hcode, hrest⟩ := rdSlot_of_drop (hunread'.trans hslot.symm) hread
        rw [hlen] at hcode hrest
        obtain ⟨mid, hraised, -, hmid⟩ := rdEntries_short (lost := lost) (s0 := first.1)
          (ent := [(first.1, first.2.1)]) (by
            rw [← hslot, List.append_assoc] at hbehind
            rw [hrest, List.append_cancel_left hbehind]) (fun p hp => hs p (List.mem_cons_of_mem _ hp)) List.mem_cons_self hn
        rw [hcode, Parse.andThen_ok, hraised]
        exact ⟨mid, rfl, List.drop_eq_nil_iff.2 (hmid le_rfl)⟩

/-- A source that ends anywhere inside the preamble (R188). -/
theorem parsePreamble_raises_truncated {ce : Bitstring} {eofSlot lost : List Byte} {eof : Symbol}
    (he : SlotOf w.toNat ce eofSlot) (hlost : lost ≠ []) (hd : src.drop pos ++ lost = preambleBytes w first more eofSlot eof) :
    (parsePreamble src pos).RaisesLeaving src .truncated [] := by
  have hcut := (List.append_nil _).symm.trans ((congrArg (· ++ []) hd).trans (preambleBytes_append ..))
  rcases List.append_eq_append_iff.1 hcut with ⟨inside, hentries, -⟩ | ⟨_ | ⟨b, behind⟩, hentries, hrest⟩
  · exact parsePreamble_raises_truncated_in_entries hw hn hs hentries.symm
  · exact parsePreamble_raises_truncated_in_entries hw hn hs (lost := [])
      ((List.append_nil _).trans (hentries.trans (List.append_nil _)))
  · obtain ⟨rfl, hbehind⟩ := List.cons.inj hrest
    obtain ⟨mid, hparse, hmid⟩ := parsePreamble_of_terminator hw hn hs hentries
    rw [hparse]
    exact parseSentinel_raises_truncated he hlost (hmid.symm ▸ hbehind.symm)

end

theorem parsePreamble_raises_badWidth {src rest : List Byte} {pos : Nat} (hd : src.drop pos = 0 :: rest) :
    (parsePreamble src pos).RaisesLeaving src .badWidth rest := by
  obtain ⟨hwidth, hrest⟩ := rd_of_drop hd
  exact ⟨_, by rw [parsePreamble, hwidth, Parse.andThen_ok, if_pos rfl], hrest⟩

/-- The first slot holds no code (R188). -/
theorem parsePreamble_raises_badSlot {src slot rest : List Byte} {pos : Nat} {w : Byte} {b : Symbol} (hw : w ≠ 0)
    (hslot : BlankSlot w.toNat slot) (hd : src.drop pos = w :: b :: (slot ++ rest)) :
    (parsePreamble src pos).RaisesLeaving src .badSlot rest := by
  obtain ⟨hfirst, hbytes⟩ := rd_of_drop (rd_of_drop hd).2
  rw [parsePreamble_of_width hw hd, hfirst, Parse.andThen_ok]
  exact (rdSlot_raises_badSlot hslot hbytes).andThen _

/-- Settles O46: each clause is a source that goes wrong at one place of the preamble, the parser passing over what stands
before. -/
theorem readTableErrors : Obligations.ReadTableErrors := by
  intro s w first more ce eofSlot eof rest raises entries whole
  refine ⟨fun hd => exec_readTable_raises (parsePreamble_raises_badWidth hd), fun hw hn hs he =>
    ⟨fun lost hlost hd => exec_readTable_raises (e := .truncated) ?truncated, fun slot hlen hblank =>
      ⟨fun b hd => exec_readTable_raises (parsePreamble_raises_badSlot hw ⟨hlen, hblank⟩ hd),
        fun b hb hd => exec_readTable_raises (e := .badSlot) ?badSlot,
        fun hd => exec_readTable_raises (e := .badSlot) ?badSentinelSlot⟩,
      fun b hb hd => exec_readTable_raises (e := .dupSymbol) ?dupSymbol,
      fun hd hconflict => exec_readTable_raises (e := .eofConflict) ?eofConflict,
      fun hd heof hdup => exec_readTable_raises (e := .dupCode) ?dupCode⟩⟩
  case truncated => exact parsePreamble_raises_truncated hw hn hs he hlost hd
  case badSlot =>
    have hne : b ≠ first.1 := fun h => hb (List.mem_map.2 ⟨first, List.mem_cons_self, h.symm⟩)
    obtain ⟨k, mid, hmid, hparse⟩ := parsePreamble_of_symbol hw hn hs (hd.trans (List.append_assoc ..))
    rw [hparse, if_neg hne, if_neg hb]
    exact ((rdSlot_raises_badSlot ⟨hlen, hblank⟩ hmid).andThen _).andThen _
  case badSentinelSlot =>
    obtain ⟨mid, hparse, hmid⟩ := parsePreamble_of_terminator hw hn hs (hd.trans (List.append_assoc ..))
    rw [hparse]
    exact (rdSlot_raises_badSlot ⟨hlen, hblank⟩ hmid).andThen _
  case dupSymbol =>
    have hne : b ≠ first.1 := fun h => (List.nodup_cons.1 hn).1 (h ▸ hb)
    obtain ⟨k, mid, hmid, hparse⟩ := parsePreamble_of_symbol hw hn hs hd
    have hdup : b ∈ (first :: more).map Prod.fst := List.mem_cons_of_mem _ hb
    rw [hparse, if_neg hne, if_pos hdup]
    exact ⟨mid, rfl, hmid⟩
  case eofConflict =>
    obtain ⟨mid, hparse, hmid⟩ := parsePreamble_of_terminator hw hn hs (hd.trans (preambleBytes_append ..))
    obtain ⟨p, hp, hpe, hpc⟩ := hconflict
    rw [hparse]
    exact parseSentinel_raises he hmid (validate_eq_eofConflict ⟨_, List.mem_map_of_mem hp, hpe, hpc⟩)
  case dupCode =>
    obtain ⟨mid, hparse, hmid⟩ := parsePreamble_of_terminator hw hn hs (hd.trans (preambleBytes_append ..))
    rw [hparse]
    refine parseSentinel_raises he hmid (validate_eq_dupCode (List.forall_mem_map.2 heof) ?_)
    rcases hdup with ⟨p, hp, hpe, hpc⟩ | ⟨p, hp, q, hq, hpq, hc⟩
    · exact ⟨_, List.mem_append_left _ (List.mem_map_of_mem hp), _, List.mem_append_right _ (List.mem_singleton_self _),
        hpe, hpc⟩
    · exact ⟨_, List.mem_append_left _ (List.mem_map_of_mem hp), _, List.mem_append_left _ (List.mem_map_of_mem hq),
        hpq, hc⟩

end Sys2Proof.Machine
end

section
/-! DEC_LOOKUP (42_table_codec.md R190). -/

namespace Sys2Proof.Machine

theorem decLookupBody_some {s : State} {b : Symbol} (hlen : s.codeLen.toNat ≤ 2048) (h : decAt s.dec s.operand = some b) :
    decLookupBody s = .ok ({ s with sym := b }.setFound true) := by
  rw [decLookupBody, if_neg (Nat.not_lt.2 hlen), h]

theorem decLookupBody_none {s : State} (hlen : s.codeLen.toNat ≤ 2048) (h : decAt s.dec s.operand = none) :
    decLookupBody s = .ok (s.setFound false) := by
  rw [decLookupBody, if_neg (Nat.not_lt.2 hlen), h]

theorem decLookupBody_raised {s : State} (h : 2048 < s.codeLen.toNat) : decLookupBody s = .raised .badOperand s := by
  rw [decLookupBody, if_pos h]

/-- Settles O49: the bits named are the operand, and DEC is read at the operand. -/
theorem decLookupResult : Obligations.DecLookupResult := by
  refine fun s => ⟨fun hlen c hc hbits => ?_, fun hlong => congrArg finish (decLookupBody_raised hlong)⟩
  obtain rfl := operand_eq s c hc hbits
  exact ⟨fun b hb => congrArg finish (decLookupBody_some hlen hb), fun hb => congrArg finish (decLookupBody_none hlen hb)⟩

end Sys2Proof.Machine
end

section
/-! BR_START (43_bit_reader.md R220), and who starts the reader (R224 d). -/

namespace Sys2Proof.Machine

/-! ### BR_START -/

/-- The longest key of a table with an entry is a key's length (R220). -/
theorem maxKeyLen_attained {d : DecTable} (h : d ≠ []) : ∃ p ∈ d, p.1.length = maxKeyLen d := by
  by_contra hnone
  have hshorter : ∀ p ∈ d, p.1.length < maxKeyLen d := fun p hp =>
    lt_of_le_of_ne (le_maxKeyLen hp) fun he => hnone ⟨p, hp, he⟩
  obtain ⟨q, hq⟩ := List.exists_mem_of_ne_nil d h
  have hpos := hshorter q hq
  have hpred : maxKeyLen d ≤ maxKeyLen d - 1 := maxKeyLen_le fun p hp => Nat.le_sub_one_of_lt (hshorter p hp)
  omega

theorem brStartBody_raised {s : State} (h : s.decValid = false) : brStartBody s = .raised .notReady s := by
  rw [brStartBody, if_pos h]

/-- Settles O50: the length BR_START takes is `maxKeyLen`, the least bound on the keys, which some key attains. -/
theorem brStartEffect : Obligations.BrStartEffect := by
  refine fun s => ⟨fun hvalid => ?_, fun hinvalid => congrArg finish (brStartBody_raised hinvalid)⟩
  exact ⟨maxKeyLen s.dec, congrArg finish (brStartBody_ok hvalid), fun c b hc => le_maxKeyLen (decAt_some_mem hc),
    maxKeyLen_attained⟩

/-! ### BR_VALID -/

theorem Body.andThen_brValid {b : Body} {k : State → Body} (hb : b.state.brValid = false)
    (hk : ∀ t : State, t.brValid = false → (k t).state.brValid = false) : (b.andThen k).state.brValid = false := by
  cases b with
  | ok t => exact hk t hb
  | raised e t => exact hb

/-- COUNT resets the reader (40_tree_builder.md R140). -/
theorem countBody_brValid (s : State) : (countBody s).state.brValid = false := by
  simp only [countBody]
  split <;> rfl

/-- READ_TABLE resets the reader (42_table_codec.md R188). -/
theorem readTableBody_brValid (s : State) : (readTableBody s).state.brValid = false := by
  rcases readTableBody_cases s with ⟨p, mid, -, h⟩ | ⟨e, mid, -, h⟩ <;> rw [h] <;> rfl

theorem encodePayload_brValid (s : State) : s.encodePayload.brValid = s.brValid := by
  simp only [State.encodePayload, foldl_writerInsert]
  rfl

/-- No part of ENCODE starts the reader (44_transcoder.md R240). -/
theorem encodeBody_brValid {s : State} (h : s.brValid = false) : (encodeBody s).state.brValid = false := by
  have hselect : ∀ t, (ruleOf .selectEof t).state.brValid = t.brValid := fun t => by rw [rule_writes]; rfl
  have hbuild : ∀ t, (ruleOf .build t).state.brValid = t.brValid := fun t => by rw [rule_writes]; rfl
  have hwrite : ∀ t, (ruleOf .writeTable t).state.brValid = t.brValid := fun t => by rw [rule_writes]; rfl
  unfold encodeBody
  split_ifs
  · exact h
  · refine Body.andThen_brValid (Body.andThen_brValid (Body.andThen_brValid (countBody_brValid s)
      fun t ht => (hselect t).trans ht) fun t ht => (hbuild t).trans ht) fun t ht => ?_
    exact Body.andThen_brValid ((hwrite _).trans ht) fun u hu => (encodePayload_brValid _).trans hu

/-- Every rule but those of BR_START and DECODE leaves an invalid reader invalid (R224 d). -/
theorem rule_keeps_invalid_reader {i : Instr} {s : State} (h : s.brValid = false) (hstart : i ≠ .brStart)
    (hdecode : i ≠ .decode) :
    (ruleOf i s).state.brValid = false := by
  cases i with
  | brStart => exact absurd rfl hstart
  | decode => exact absurd rfl hdecode
  | clear => rfl
  | count => exact countBody_brValid s
  | readTable => exact readTableBody_brValid s
  | encode => exact encodeBody_brValid h
  | brExtract =>
    rw [ruleOf, brExtractBody, extract_invalid h]
    exact h
  | nop | selectEof | build | encLookup | encSet | bwInsert | bwFlush | writeTable | decLookup
  | reserved10To1F | reserved20To3F | reserved40To7F | reserved80ToFF =>
    rw [rule_writes]
    exact h

/-- Of the commands only BR_START and DECODE make BR_VALID 1 (43_bit_reader.md R220, 44_transcoder.md R242). -/
theorem exec_starts_reader {i : Instr} {s t : State} (hx : exec i s = .next t) (hs : s.brValid = false)
    (ht : t.brValid = true) : i = .brStart ∨ i = .decode := by
  by_contra hi
  obtain ⟨hstart, hdecode⟩ := not_or.1 hi
  have hrule := rule_keeps_invalid_reader hs hstart hdecode
  rw [exec_eq_finish_rule] at hx
  rcases finish_cases hx with ⟨u, hu, rfl⟩ | ⟨e, u, hu, rfl⟩ <;> rw [hu] at hrule
  · exact Bool.false_ne_true (hrule.symm.trans ht)
  · exact Bool.false_ne_true (hrule.symm.trans ht)

theorem regWrite_brValid (s : State) (off : Nat) (v : Word) : (s.regWrite off v).brValid = s.brValid := by
  unfold State.regWrite
  split <;> rfl

/-- Settles O24: no turn of the host writes 1 to BR_VALID, and of the commands only BR_START and DECODE. -/
theorem readerStartedOnlyByStart : Obligations.ReaderStartedOnlyByStart := by
  intro s t hstep hs ht
  have changed : t.brValid ≠ s.brValid := by rw [hs, ht]; decide
  rcases step_cases hstep with ⟨_, lanes, off, rest, -, -, rfl⟩ | ⟨_, _, _, rest, -, -, _, _, rfl⟩ |
    ⟨bytes, rest, -, -, rfl⟩ | ⟨rest, -, -, rfl⟩ | ⟨rest, -, -, rfl⟩ | ⟨rest, -, rfl⟩ |
    ⟨hblock, rest, -, ⟨-, rfl⟩ | ⟨hbusy, hx⟩⟩
  · split_ifs at changed
    · exact absurd rfl changed
    · exact absurd (regWrite_brValid _ off _) changed
  · exact absurd rfl changed
  · exact absurd rfl changed
  · exact absurd rfl changed
  · exact absurd rfl changed
  · exact absurd ht Bool.false_ne_true -- a reset leaves BR_VALID 0
  · exact absurd rfl changed
  · have hop := (decodeOpcode_spec s.pendingOp).2
    refine ⟨hblock, hbusy, ?_⟩
    rcases exec_starts_reader hx hs ht with hi | hi <;> rw [hi] at hop
    · exact .inl hop.symm
    · exact .inr hop.symm

end Sys2Proof.Machine
end

section
/-! BR_EXTRACT (43_bit_reader.md R221, R222, R224, R225). -/

namespace Sys2Proof.Machine

/-- SRC_POS once `n` more bits are consumed: a byte for each eight bits begun beyond the buffered ones (R221). -/
theorem advance_pos (src : List Byte) (r : ReaderPos) (n : Nat) :
    (r.advance src n).pos = r.pos + (n - r.nbits + 7) / 8 := by
  unfold ReaderPos.advance
  split_ifs
  · show r.pos = _
    omega
  · rfl

/-! ### The rule by what Extract gives -/

theorem brExtractBody_code {s t : State} {c : Bitstring} {b : Symbol} (h : s.extract = (some (c, b), t)) :
    brExtractBody s = .ok ({ t.putCode c with sym := b }.setFound true) := by
  rw [brExtractBody, h]

theorem brExtractBody_none {s t : State} (h : s.extract = (none, t)) :
    brExtractBody s = .ok ((t.putCode []).setFound false) := by
  rw [brExtractBody, h]

/-- The command leaves the bits ahead and SRC_POS as its Extract does (R222). -/
theorem brExtractBody_reader (s : State) : ∃ t, brExtractBody s = .ok t ∧
    t.bitsAhead = s.extract.2.bitsAhead ∧ t.srcPos = s.extract.2.srcPos := by
  rcases he : s.extract with ⟨_ | ⟨c, b⟩, t⟩
  · exact ⟨_, brExtractBody_none he, rfl, rfl⟩
  · exact ⟨_, brExtractBody_code he, rfl, rfl⟩

/-! ### What is extracted, and how it fails -/

/-- Settles O51: Extract takes the key, and the command puts it to CODE, where it fits. -/
theorem extractTakesShortestKey : Obligations.ExtractTakesShortestKey := by
  intro s x rest b hv hn hmax hahead hx hlen hkey hshortest
  obtain ⟨r, hextract, hrest, -, rfl, -⟩ := extract_takes hv hn hahead hx hlen hkey hshortest
  exact ⟨_, congrArg finish (brExtractBody_code hextract), hrest, operand_putCode s (by omega),
    fun i hi => putCode_code_getLsbD_of_length_le s hi, advance_pos s.src s.readerPos x.length, rfl⟩

/-- Settles O52: each clause is a failure of Extract, and the command then gives the empty bitstring. -/
theorem extractFails : Obligations.ExtractFails := by
  refine ⟨fun s x rest hv hn hahead hnokey => ?_, fun s hinvalid => ?_⟩
  · obtain ⟨hnoMatch, hsourceEnd⟩ := extract_fails hv hn hahead hnokey
    refine ⟨fun hlen => ?_, fun hlen hend => ?_⟩
    · obtain ⟨r, hextract, hrest, -, rfl⟩ := hnoMatch hlen
      exact ⟨_, congrArg finish (brExtractBody_none hextract), hrest, rfl⟩
    · obtain ⟨r, hextract, hnone, -, rfl⟩ := hsourceEnd hlen hend
      exact ⟨_, congrArg finish (brExtractBody_none hextract), hnone, rfl⟩
  · exact congrArg finish (brExtractBody_none (extract_invalid hinvalid))

/-! ### The bound -/

/-- One Extract takes at most BR_MAXLEN + 1 bits, and no source byte but for them (R225). -/
theorem extract_consumes {s : State} (hn : s.brNbits ≤ 8) :
    ∃ x : Bitstring, s.bitsAhead = x ++ s.extract.2.bitsAhead ∧ x.length ≤ s.brMaxlen + 1 ∧
      s.extract.2.srcPos ≤ s.srcPos + (x.length + 7) / 8 := by
  cases hv : s.brValid with
  | false =>
    rw [extract_invalid hv]
    exact ⟨[], rfl, Nat.zero_le _, Nat.le_add_right _ _⟩
  | true =>
    obtain ⟨x, r, hx, -, hr, -, hcase⟩ := extract_cases hv hn
    have hpos : r.pos ≤ s.srcPos + (x.length + 7) / 8 := by
      rw [hr, advance_pos]
      exact Nat.add_le_add_left (Nat.div_le_div_right (by omega)) _
    refine ⟨x, ?_⟩
    rcases hcase with ⟨b, he, -, hlen, -⟩ | ⟨he, hlen, -⟩ | ⟨he, hlen, -⟩ <;> rw [he]
    · exact ⟨hx, hlen, hpos⟩
    · exact ⟨hx, hlen.le, hpos⟩
    · exact ⟨hx, hlen.le, hpos⟩

/-- Settles O53: the command consumes what its Extract consumes. -/
theorem extractConsumesBoundedBits : Obligations.ExtractConsumesBoundedBits := by
  intro s t hn _ hexec
  obtain ⟨x, hx, hlen, hpos⟩ := extract_consumes hn
  obtain ⟨u, hbody, hahead, hsrc⟩ := brExtractBody_reader s
  obtain rfl : u.complete = t := Host.Outcome.next.inj ((congrArg finish hbody).symm.trans hexec)
  refine ⟨x, hx.trans (congrArg (x ++ ·) hahead.symm), hlen, ?_⟩
  show u.srcPos ≤ _
  omega

end Sys2Proof.Machine
end

section
/-! What DECODE reads behind MAGIC: the preamble WRITE_TABLE writes, parsed back (44_transcoder.md R242, 42_table_codec.md R191). -/

namespace Sys2Proof.Machine

/-- A table a stream can be written with and read back: no code begins another, all fit their slots, and the sentinel has the code `ce`
(44_transcoder.md R244). -/
structure StreamTable (enc : EncTable) (eof : Symbol) (ce : Bitstring) : Prop where
  sentinel : encAt enc eof = some ce
  free : EncPrefixFree enc
  len : ∀ b c, encAt enc b = some c → 1 ≤ c.length ∧ c.length ≤ 2039

/-- Where no code begins another symbol's code, distinct symbols have distinct codes. -/
theorem EncPrefixFree.distinct {enc : EncTable} (h : EncPrefixFree enc) : EncDistinct enc := fun b c x hb hc =>
  by_contra fun hne => h b c x x hne hb hc (List.prefix_refl x)

section

variable {enc : EncTable} {eof : Symbol} {ce : Bitstring} (h : StreamTable enc eof ce)
include h

/-- Each symbol WRITE_TABLE writes an entry for has a code (42_table_codec.md R187). -/
theorem encAt_of_mem_tableSymbols {b : Symbol} (hb : b ∈ tableSymbols enc eof) :
    encAt enc b = some (encEntry enc b).2 := by
  obtain ⟨x, xs, hsymbols, -, -, hcoded, -⟩ := tableSymbols_spec enc eof
  have hne : encAt enc b ≠ none := by
    by_cases he : b = eof
    · rw [he, h.sentinel]; exact Option.some_ne_none ce
    · exact hcoded b (hsymbols ▸ hb) he
  obtain ⟨c, hc⟩ := Option.ne_none_iff_exists'.1 hne
  rw [encEntry_of_code hc, hc]

/-- The parser accepts entries of the table in written slots that all codes fit, and stops just behind the preamble (R188). -/
theorem parsePreamble_of_entries_of_table {src rest : List Byte} {pos : Nat} {w : Byte} {p : Symbol × Bitstring}
    {ps : List (Symbol × Bitstring)} (hfit : ∀ b c, encAt enc b = some c → c.length + 1 ≤ 8 * w.toNat)
    (hcoded : ∀ q ∈ p :: ps, encAt enc q.1 = some q.2) (hn : ((p :: ps).map Prod.fst).Nodup)
    (hd : src.drop pos = preambleBytes w (withSlot w.toNat p) (ps.map (withSlot w.toNat)) (slotWrite ce w.toNat) eof ++ rest) :
    parsePreamble src pos = .ok ⟨w, p :: ps, eof, ce⟩ (src.length - rest.length) ∧
      validate (p :: ps) eof ce = none := by
  have hslot : ∀ b c, encAt enc b = some c → SlotOf w.toNat c (slotWrite c w.toNat) := fun b c hc =>
    slotRoundTrip c w.toNat (h.len b c hc).1 (by have := hfit b c hc; omega)
  have hw : w ≠ 0 := by
    rintro rfl
    exact absurd (hfit _ _ h.sentinel) (by simp)
  have hcodes : ((p :: ps).map Prod.snd).Nodup := List.Nodup.map_on (fun q hq r hr hqr =>
    Prod.ext (h.free.distinct _ _ _ (hcoded q hq) (hqr ▸ hcoded r hr)) hqr) (.of_map _ hn)
  have heof : ∀ q ∈ p :: ps, (q.1 = eof ↔ q.2 = ce) := fun q hq => by
    have hq := hcoded q hq
    exact ⟨fun he => Option.some.inj (hq.symm.trans (he ▸ h.sentinel)),
      fun he => h.free.distinct _ _ _ hq (he ▸ h.sentinel)⟩
  have hparse := parsePreamble_of_drop hw hd (by simpa [Function.comp_def, withSlot] using hn)
    ((List.forall_mem_map (l := p :: ps)).2 fun q hq => hslot _ _ (hcoded q hq)) (hslot _ _ h.sentinel)
    ((List.forall_mem_map (l := p :: ps)).2 heof) (by simpa [Function.comp_def, withSlot] using hcodes)
  simpa [Function.comp_def, withSlot] using hparse

/-- What READ_TABLE's parser makes of a written preamble, whatever follows: the width byte, the sentinel, and a table that is the
inverse of ENC; it stops just behind the preamble (R188, R191). -/
theorem parsePreamble_preamble {src rest : List Byte} {pos : Nat} (hd : src.drop pos = preamble enc eof ++ rest) :
    ∃ p, parsePreamble src pos = .ok p (pos + (preamble enc eof).length) ∧
      p.width = BitVec.ofNat 8 (slotWidth (maxCodeLen enc)) ∧ p.eof = eof ∧ decSorted p.decTable = true ∧
      ∀ b c, decAt p.decTable c = some b ↔ encAt enc b = some c := by
  obtain ⟨x, xs, hsymbols, hrising, hall, -⟩ := tableSymbols_spec enc eof
  have hcoded : ∀ q ∈ (x :: xs).map (encEntry enc), encAt enc q.1 = some q.2 :=
    List.forall_mem_map.2 fun b hb => encAt_of_mem_tableSymbols h (hsymbols ▸ hb)
  have hend : src.length - rest.length = pos + (preamble enc eof).length := by
    have hlen := congrArg List.length hd
    have hne : (preamble enc eof).length ≠ 0 := by simp [preamble]
    rw [List.length_drop, List.length_append] at hlen
    omega
  obtain ⟨w, hw⟩ : ∃ w : Byte, w = BitVec.ofNat 8 (slotWidth (maxCodeLen enc)) := ⟨_, rfl⟩
  have hwidth : w.toNat = slotWidth (maxCodeLen enc) := hw ▸ toNat_ofNat_slotWidth fun b c hc => (h.len b c hc).2
  rw [← hend, ← hw]
  rw [preamble_eq_preambleBytes hsymbols h.sentinel, ← hw, ← hwidth] at hd
  obtain ⟨hparse, hvalid⟩ := parsePreamble_of_entries_of_table h (ps := xs.map (encEntry enc)) (fun b c hc => by
    have := le_maxCodeLen hc
    rw [hwidth, slotWidth]
    omega) hcoded (by rw [← List.map_cons, map_fst_map_encEntry]; exact hrising.imp BitVec.ne_of_lt) hd
  obtain ⟨hsorted, hdec⟩ := decTable_spec
    (p := ⟨w, encEntry enc x :: xs.map (encEntry enc), eof, ce⟩) hvalid
  refine ⟨_, hparse, rfl, rfl, hsorted, fun b c => (hdec c b).trans ⟨fun hmem => ?_, fun hc => ?_⟩⟩
  · rcases List.mem_append.1 hmem with hentry | hlast
    · exact hcoded (b, c) hentry
    · obtain ⟨rfl, rfl⟩ := Prod.mk.inj (List.mem_singleton.1 hlast)
      exact h.sentinel
  · refine List.mem_append.2 ?_
    by_cases hb : b = eof
    · subst hb
      exact .inr (List.mem_singleton.2 (congrArg (Prod.mk b) (Option.some.inj (hc.symm.trans h.sentinel))))
    · refine .inl (?_ : _ ∈ (x :: xs).map (encEntry enc))
      rw [← encEntry_of_code hc]
      exact List.mem_map_of_mem (hall b hb (by rw [hc]; exact Option.some_ne_none c))

end

end Sys2Proof.Machine
end

section
/-! DECODE on a written stream (44_transcoder.md R242, R243). -/

namespace Sys2Proof.Machine

/-- The longest key of a table that is the inverse of ENC is ENC's longest code (43_bit_reader.md R220). -/
theorem maxKeyLen_eq_maxCodeLen {d : DecTable} {enc : EncTable} (hsorted : decSorted d = true)
    (hdec : ∀ b c, decAt d c = some b ↔ encAt enc b = some c) : maxKeyLen d = maxCodeLen enc :=
  le_antisymm (maxKeyLen_le fun p hp => le_maxCodeLen ((hdec p.2 p.1).1 (decAt_of_mem hsorted hp)))
    (maxCodeLen_le fun b c hc => le_maxKeyLen (decAt_some_mem ((hdec b c).2 hc)))

/-- Where no code begins another symbol's code, at most one code begins a bitstring (43_bit_reader.md R224). -/
theorem EncPrefixFree.code_unique {enc : EncTable} (h : EncPrefixFree enc) {b b' : Symbol} {c c' tail : Bitstring}
    (hc : encAt enc b = some c) (hc' : encAt enc b' = some c') (hp : c <+: tail) (hp' : c' <+: tail) : c = c' := by
  by_cases hb : b = b'
  · exact Option.some.inj (hc.symm.trans (hb ▸ hc'))
  · rcases List.prefix_or_prefix_of_prefix hp hp' with hcc | hcc
    · exact absurd hcc (h b b' c c' hb hc hc')
    · exact absurd hcc (h b' b c' c (Ne.symm hb) hc' hc)

theorem readTableBody_of_parse_ok {s : State} {p : Preamble} {mid : Nat} (h : parsePreamble s.src s.srcPos = .ok p mid) :
    readTableBody s = .ok { s.readerReset with
      dec := p.decTable, decValid := true, eofSym := p.eof, eofValid := true, width := p.width, srcPos := mid } := by
  rw [readTableBody, h]
  rfl

/-- DECODE where MAGIC and a preamble are there: the loop, from the committed table and the started reader (R242). -/
theorem decodeBody_of_parse_ok {s : State} {p : Preamble} {mid : Nat} {rest : List Byte}
    (hmagic : s.unread = s.params.magic ++ rest)
    (hparse : parsePreamble s.src (s.srcPos + s.params.magic.length) = .ok p mid) :
    decodeBody s = decodeLoop (s.decodeStart p mid).bitsLeft (s.decodeStart p mid) := by
  have hread := readTableBody_of_parse_ok
    (s := { s.readerReset.clearParsed with srcPos := s.srcPos + s.params.magic.length }) hparse
  rw [decodeBody, checkMagic_of_drop hmagic, Parse.run, hread]
  rfl

/-- DECODE's reader is valid over the table of `enc`, and the bits ahead of it are `bits` (R243). -/
structure ReadsAhead (enc : EncTable) (eof : Symbol) (bits : Bitstring) (t : State) : Prop where
  valid : t.brValid = true
  nbits : t.brNbits ≤ 8
  fail : t.brFail = .none
  eof : t.eofSym = eof
  maxlen : t.brMaxlen = maxCodeLen enc
  dec : ∀ b c, decAt t.dec c = some b ↔ encAt enc b = some c
  ahead : t.bitsAhead = bits

/-- The state DECODE enters its loop with on a stream of the table `enc`, parsed to `d`: the table committed, the reader started
over it just behind the preamble (R242). -/
def State.streamStart (u : State) (enc : EncTable) (eof : Symbol) (d : DecTable) : State :=
  { u with
    dec := d, decValid := true, eofSym := eof, eofValid := true, width := BitVec.ofNat 8 (slotWidth (maxCodeLen enc)),
    srcPos := u.srcPos + u.params.magic.length + (preamble enc eof).length, brByte := 0, brNbits := 0, brFail := .none,
    brMaxlen := maxCodeLen enc, brValid := true }

/-- DECODE on a stream of a table: its loop runs on the bits of the payload. -/
theorem decodeBody_of_stream {u : State} {enc : EncTable} {eof : Symbol} {ce : Bitstring} {payload : List Byte}
    (h : StreamTable enc eof ce) (hu : u.unread = u.params.magic ++ preamble enc eof ++ payload) :
    ∃ d, ReadsAhead enc eof (bitsOfBytes payload) (u.streamStart enc eof d) ∧
      decodeBody u = decodeLoop (u.streamStart enc eof d).bitsAhead.length (u.streamStart enc eof d) := by
  rw [List.append_assoc] at hu
  have hpre : u.src.drop (u.srcPos + u.params.magic.length) = preamble enc eof ++ payload := by
    rw [← List.drop_drop]
    exact (congrArg (List.drop _) hu).trans List.drop_left
  have hpay : u.src.drop (u.srcPos + u.params.magic.length + (preamble enc eof).length) = payload := by
    rw [← List.drop_drop, hpre, List.drop_left]
  obtain ⟨p, hparse, hwidth, heof, hsorted, hdec⟩ := parsePreamble_preamble h hpre
  refine ⟨p.decTable, ⟨rfl, Nat.zero_le 8, rfl, rfl, rfl, hdec, congrArg bitsOfBytes hpay⟩, ?_⟩
  rw [bitsAhead_length (Nat.zero_le 8), decodeBody_of_parse_ok hu hparse, State.decodeStart, hwidth, heof,
    maxKeyLen_eq_maxCodeLen hsorted hdec]
  rfl

/-- How an Extract ends whose bits ahead are `tail`: `k` of them are consumed, BR_VALID is `valid` and BR_FAIL is `fail` afterwards
(43_bit_reader.md R221). -/
structure ExtractEnds (enc : EncTable) (tail : Bitstring) (k : Nat) (valid : Bool) (fail : ReaderFail) : Prop where
  code : ∀ b c, encAt enc b = some c → c <+: tail → k = c.length ∧ valid = true ∧ fail = .none
  none : (∀ b c, encAt enc b = some c → ¬ c <+: tail) → valid = false ∧
    (maxCodeLen enc < tail.length → k = maxCodeLen enc + 1 ∧ fail = .noMatch) ∧
    (tail.length ≤ maxCodeLen enc → k = tail.length ∧ fail = .sourceEnd)

/-- One more Extract, by the bits ahead: it takes the code they begin with, or fails for want of one (43_bit_reader.md R221). -/
theorem extract_at {t : State} {enc : EncTable} {eof : Symbol} {ce tail : Bitstring} (h : StreamTable enc eof ce)
    (ht : ReadsAhead enc eof tail t) :
    ∃ k valid fail, t.extract.2 = { t.readerAt (t.readerPos.advance t.src k) with brValid := valid, brFail := fail } ∧
      ExtractEnds enc tail k valid fail := by
  obtain ⟨hcode, hfail⟩ := extract_peek ht.valid ht.nbits ht.dec h.free fun b c hc =>
    ⟨(h.len b c hc).1, ht.maxlen ▸ le_maxCodeLen hc⟩
  rw [ht.ahead, ht.maxlen] at hfail
  rw [ht.ahead] at hcode
  by_cases hnone : ∀ b c, encAt enc b = some c → ¬ c <+: tail
  · rcases Nat.lt_or_ge (maxCodeLen enc) tail.length with hlong | hshort
    · exact ⟨_, _, _, congrArg Prod.snd ((hfail hnone).1 hlong), fun b c hc hp => absurd hp (hnone b c hc),
        fun _ => ⟨rfl, fun _ => ⟨rfl, rfl⟩, fun hle => absurd hlong (Nat.not_lt.2 hle)⟩⟩
    · exact ⟨_, _, _, congrArg Prod.snd ((hfail hnone).2 hshort), fun b c hc hp => absurd hp (hnone b c hc),
        fun _ => ⟨rfl, fun hlt => absurd hlt (Nat.not_lt.2 hshort), fun _ => ⟨rfl, rfl⟩⟩⟩
  · push Not at hnone
    obtain ⟨b, c, hc, hp⟩ := hnone
    refine ⟨c.length, true, .none, ?_, fun b' c' hc' hp' => ⟨?_, rfl, rfl⟩, fun hno => absurd hp (hno b c hc)⟩
    · rw [hcode b c hc hp, ← ht.valid, ← ht.fail]
      rfl
    · exact congrArg List.length (h.free.code_unique hc hc' hp hp')

/-- The loop's last Extract, behind the `n` bits of the content `x` it has put to the sink: `k` bits more are consumed (R243). -/
theorem extract_behind {start t : State} {enc : EncTable} {eof : Symbol} {ce bits tail : Bitstring} {x : List Byte} {n : Nat}
    (h : StreamTable enc eof ce) (hstart : ReadsAhead enc eof bits start) (hahead : t.bitsAhead = tail) (hn : t.brNbits ≤ 8)
    (ht : t = (start.readerAt (start.readerPos.advance start.src n)).snkAppend x) :
    ∃ k valid fail, t.extract.2 =
        { (start.readerAt (start.readerPos.advance start.src (n + k))).snkAppend x with brValid := valid, brFail := fail } ∧
      ExtractEnds enc tail k valid fail := by
  have htail : ReadsAhead enc eof tail t := by
    subst ht
    exact { hstart with nbits := hn, ahead := hahead }
  obtain ⟨k, valid, fail, hpeek, hends⟩ := extract_at h htail
  refine ⟨k, valid, fail, ?_, hends⟩
  rw [hpeek, ← advance_advance, ht]
  rfl

/-- A code that ends in a 1 does not begin a run of zeros (70_reset_and_hazards.md R314). -/
theorem not_prefix_zeros {c ce : Bitstring} {n : Nat} (hce : ce = c ++ [true]) : ¬ ce <+: List.replicate n false := by
  intro hp
  have hone : true ∈ List.replicate n false := hp.subset (by rw [hce]; simp)
  exact absurd (List.eq_of_mem_replicate hone) (by decide)

/-- WRITE_TABLE into an empty sink leaves the preamble there and its width (42_table_codec.md R187). -/
theorem writeTable_writes {s t : State} {ce : Bitstring} (hsnk : s.snk = []) (hpend : s.bwPend = [])
    (hvalid : s.eofValid = true) (hce : encAt s.enc s.eofSym = some ce) (ht : exec .writeTable s = .next t) :
    t.snk = preamble s.enc s.eofSym ∧ t.width = BitVec.ofNat 8 (slotWidth (maxCodeLen s.enc)) := by
  obtain rfl := Host.Outcome.next.inj ((congrArg finish (writeTableBody_ok hvalid hce hpend)).symm.trans ht)
  exact ⟨by rw [State.complete_snk, hsnk]; rfl, rfl⟩

/-- Settles O58: DECODE's loop gives the content back and ends behind the terminator, and one Extract looks at the tail. -/
theorem decodeRecoversContent : Obligations.DecodeRecoversContent := by
  intro s w1 x ce tail hsnk hpend hvalid hce hfree hlen hx hw1 htail u payload hu hbits
  have h : StreamTable s.enc s.eofSym ce := ⟨hce, hfree, hlen⟩
  have hnotail : ¬ ce <+: tail := by
    rcases htail with hno | ⟨⟨c, hone⟩, hzeros⟩
    · exact hno
    · rw [hzeros]; exact not_prefix_zeros hone
  obtain ⟨hpre, hwidth⟩ := writeTable_writes hsnk hpend hvalid hce hw1
  rw [hpre] at hu ⊢
  rw [hwidth]
  obtain ⟨d, hstart, hbody⟩ := decodeBody_of_stream h hu
  obtain ⟨t, hloop, hahead, hn, ht⟩ := decodeLoop_payload (content := x) hstart.valid hstart.nbits hstart.dec hfree
    (fun b c hc => ⟨(hlen b c hc).1, le_maxCodeLen hc⟩) hce hx hnotail (hstart.ahead.trans hbits) le_rfl
  obtain ⟨k, valid, fail, hpeek, hends⟩ := extract_behind h hstart hahead hn ht
  have hexec : exec .decode u = .next t.extract.2.complete := by
    rw [exec_eq_finish_rule, ruleOf, hbody, hloop]; rfl
  rw [hpeek] at hexec
  exact ⟨_, k, _, hexec, rfl, rfl, hstart.dec, fun b c hc => le_maxCodeLen hc, maxCodeLen_attained hce, hends.code,
    hends.none⟩

/-- Settles O59: DECODE's loop gives the content back, and the next Extract fails for want of a code. -/
theorem decodeReportsCorruptStream : Obligations.DecodeReportsCorruptStream := by
  intro s w1 x ce body tail hsnk hpend hvalid hce hfree hlen hx hw1 hbody hno u payload hu hbits
  have h : StreamTable s.enc s.eofSym ce := ⟨hce, hfree, hlen⟩
  have hcontent : body = (contentCodes s.enc s.eofSym x).flatten := by
    rw [payloadBits, ← contentCodes_flatten, hce, Option.getD_some] at hbody
    exact (List.append_cancel_right hbody).symm
  obtain ⟨hpre, hwidth⟩ := writeTable_writes hsnk hpend hvalid hce hw1
  rw [hpre] at hu ⊢
  rw [hwidth]
  obtain ⟨d, hstart, hdecode⟩ := decodeBody_of_stream h hu
  obtain ⟨t, hloop, hahead, hn, ht⟩ := decodeLoop_fails (content := x) hstart.valid hstart.nbits hstart.dec hfree
    (fun b c hc => ⟨(hlen b c hc).1, le_maxCodeLen hc⟩) hx hno (hstart.ahead.trans (hcontent ▸ hbits)) le_rfl
  obtain ⟨k, valid, fail, hpeek, hends⟩ := extract_behind h hstart hahead hn ht
  obtain ⟨rfl, hlong, hshort⟩ := hends.none hno
  have hexec : exec .decode u = .next (t.extract.2.takeError (.corruptStream t.extract.2.brFail)) := by
    rw [exec_eq_finish_rule, ruleOf, hdecode, hloop]; rfl
  rw [hpeek] at hexec
  refine ⟨_, k, _, hexec, by rw [hcontent]; rfl, rfl, hstart.dec, fun b c hc => le_maxCodeLen hc, maxCodeLen_attained hce,
    fun hl => ?_, fun hl => ?_⟩
  · obtain ⟨hk, rfl⟩ := hlong hl
    exact ⟨hk, rfl, rfl⟩
  · obtain ⟨hk, rfl⟩ := hshort hl
    exact ⟨hk, rfl, rfl⟩

end Sys2Proof.Machine
end

section
/-! DECODE on a header it refuses (44_transcoder.md R242, 60_exceptions.md R274, R275). -/

namespace Sys2Proof.Machine

/-- DECODE where the magic check raises: the table and the reader stay cleared, SRC_POS stays where the check stopped. -/
theorem exec_decode_of_magic_raised {s : State} {e : CmdError} {mid : Nat}
    (h : checkMagic s.src s.params.magic s.srcPos = .raised e mid) :
    exec .decode s = .next (State.takeError e { s.readerReset.clearParsed with srcPos := mid }) := by
  rw [exec_eq_finish_rule, ruleOf, decodeBody, h]
  rfl

/-- Settles O57: the check stops at the first byte that is not MAGIC's, or at the end of the source. -/
theorem decodeChecksMagic : Obligations.DecodeChecksMagic := by
  intro s good magicRest m hmagic
  refine ⟨fun b rest hb hu => ?_, fun hu => ?_⟩
  · exact exec_decode_of_magic_raised (by rw [hmagic]; exact checkMagic_mismatch hb hu)
  · exact exec_decode_of_magic_raised (by rw [hmagic]; exact checkMagic_truncated hu)

/-- Settles O56: of what DECODE latches, only an error before its loop is a MALFORMED_HEADER, and it leaves what DECODE cleared
first. -/
theorem decodeHeaderErrorWritesNothing : Obligations.DecodeHeaderErrorWritesNothing := by
  intro s t hclean hexec herr hcode
  have hheader : ∀ e ∈ [CmdError.magicMismatch, .truncated, .badWidth, .badSlot, .dupSymbol, .eofConflict, .dupCode],
      e.code = 2 := by decide
  rcases exec_latch hexec with ⟨u, -, rfl, hkeep, -⟩ | ⟨e, u, hbody, rfl, -⟩
  · exact absurd (hclean.symm.trans (hkeep.symm.trans herr)) Bool.false_ne_true
  rcases decodeBody_cases s with ⟨e', mid, hraised, he, -⟩ | ⟨p, mid, rest, -, hparse, hloop⟩
  · obtain ⟨rfl, rfl⟩ := Body.raised.inj (hbody.symm.trans hraised)
    rw [State.takeError, hheader e he]
    rfl
  · obtain ⟨-, -, -, -, -, -, hmid⟩ := parsePreamble_ok hparse
    rw [ruleOf, hloop] at hbody
    rcases decodeLoop_ends (s := s.decodeStart p mid) rfl (Nat.zero_le 8) rfl hmid le_rfl with
      ⟨_, hok, -⟩ | ⟨r, _, hraised, -⟩
    · cases hok.symm.trans hbody
    · obtain ⟨rfl, -⟩ := Body.raised.inj (hbody.symm.trans hraised)
      exact absurd hcode (by decide : (3 : Byte) ≠ 2)

end Sys2Proof.Machine
end

section
/-! ENCODE (44_transcoder.md R240, R241, 60_exceptions.md R274, R275). -/

namespace Sys2Proof.Machine

theorem encodeBody_notReady {s : State} (h : s.bwPend ≠ []) : encodeBody s = .raised .notReady s := by
  rw [encodeBody, if_pos (List.length_pos_of_ne_nil h)]

/-- With no bit pending ENCODE begins with COUNT, and a raise there ends it. -/
theorem encodeBody_of_count_raised {s t : State} {e : CmdError} (hpend : s.bwPend = [])
    (h : countBody s = .raised e t) : encodeBody s = .raised e t := by
  rw [encodeBody, if_neg (by rw [hpend]; exact Nat.lt_irrefl 0), h]
  rfl

/-- A raise of SELECT_EOF ends ENCODE. -/
theorem encodeBody_of_select_raised {s t u : State} {e : CmdError} (hpend : s.bwPend = [])
    (hcount : countBody s = .ok t) (h : selectEofBody t = .raised e u) : encodeBody s = .raised e u := by
  rw [encodeBody, if_neg (by rw [hpend]; exact Nat.lt_irrefl 0), hcount, Body.andThen_ok, h]
  rfl

/-- Settles O55: ENCODE raises before COUNT, in COUNT, or in SELECT_EOF, none of which writes to the sink. -/
theorem encodeErrors : Obligations.EncodeErrors := by
  refine fun s => ⟨fun hpend => congrArg finish (encodeBody_notReady hpend), fun hpend hempty => ?_, fun hpend hlong => ?_⟩
  · obtain ⟨freq, hcount, hfreq⟩ := countBody_ok (s := s) (by rw [hempty]; decide)
    have hzero : ∀ b, freqAt freq b = 0 := fun b => BitVec.eq_of_toNat_eq (by rw [hfreq, hempty]; rfl)
    rw [hempty, List.length_nil] at hcount
    rcases selectEofBody_cases { s.readerReset with freq := freq, srcPos := 0 } with ⟨-, hselect⟩ | ⟨e, -, he, -⟩
    · exact ⟨_, congrArg finish (encodeBody_of_select_raised hpend hcount hselect), hzero, rfl⟩
    · exact absurd (hzero e) he
  · obtain ⟨freq, hcount, -⟩ := countBody_overflow hlong
    exact ⟨_, congrArg finish (encodeBody_of_count_raised hpend hcount), rfl⟩

end Sys2Proof.Machine
end

section
/-! What ENCODE writes (44_transcoder.md R240, R241), and the round trip (R244). -/

namespace Sys2Proof.Machine

theorem selectEofBody_of_leastFrequent {s : State} {e : Symbol} (h : leastFrequent s.freq (observed s.freq) = some e) :
    selectEofBody s = .ok { s with eofSym := e, eofValid := true } := by
  rw [selectEofBody, h]

/-- BUILD's table depends on FREQ alone (40_tree_builder.md R143). -/
theorem buildBody_of_freq_eq {s t : State} {enc : EncTable} (hfreq : t.freq = s.freq)
    (h : buildBody s = .ok { s with enc := enc }) : buildBody t = .ok { t with enc := enc } := by
  rcases hobs : observed s.freq with _ | ⟨b, _ | ⟨c, rest⟩⟩
  · rw [buildBody, hobs] at h
    cases h
  all_goals
    rw [buildBody, hobs] at h
    obtain rfl := congrArg State.enc (Body.ok.inj h)
    rw [buildBody, hfreq, hobs]

/-- The state COUNT, SELECT_EOF and BUILD leave one after another, having made `freq`, chosen `e` and made `enc` (R240). -/
def State.built (s : State) (freq : FreqTable) (e : Symbol) (enc : EncTable) : State :=
  { s.readerReset with freq := freq, eofSym := e, eofValid := true, enc := enc, srcPos := s.src.length }

/-- The state ENCODE ends in: behind MAGIC and the preamble stands the payload of the whole source (R240, R241). -/
def State.encoded (s : State) (freq : FreqTable) (e : Symbol) (enc : EncTable) : State :=
  { s.built freq e enc with
    width := BitVec.ofNat 8 (slotWidth (maxCodeLen enc)),
    snk := s.snk ++ s.params.magic ++ preamble enc e ++ emitBits (payloadBits enc e s.src) }

/-- ENCODE where its first three parts leave a table with a code for the sentinel: WRITE_TABLE is ready, and EncodePayload reads
the source from its start. -/
theorem encodeBody_of_built {s : State} {freq : FreqTable} {e : Symbol} {enc : EncTable} {ce : Bitstring}
    (hlegal : s.params.legal = true) (hpend : s.bwPend = [])
    (hbuilt : ((countBody s).andThen selectEofBody).andThen buildBody = .ok (s.built freq e enc))
    (hce : encAt enc e = some ce) : encodeBody s = .ok (s.encoded freq e enc) := by
  have hwrite := writeTableBody_ok (s := (s.built freq e enc).snkAppend s.params.magic) rfl hce hpend
  have hpayload := encodePayload_eq (s := { s.built freq e enc with
    snk := s.snk ++ s.params.magic ++ preamble enc e, width := BitVec.ofNat 8 (slotWidth (maxCodeLen enc)), srcPos := 0 })
    hlegal hpend
  calc encodeBody s
      = (((countBody s).andThen selectEofBody).andThen buildBody).andThen fun t =>
          (writeTableBody (t.snkAppend t.params.magic)).andThen fun u => .ok u.srcRewind.encodePayload := by
        rw [encodeBody, if_neg (by rw [hpend]; exact Nat.lt_irrefl 0)]
    _ = (writeTableBody ((s.built freq e enc).snkAppend s.params.magic)).andThen
          fun u => .ok u.srcRewind.encodePayload := by rw [hbuilt]; rfl
    _ = .ok (State.encodePayload { s.built freq e enc with
          snk := s.snk ++ s.params.magic ++ preamble enc e, width := BitVec.ofNat 8 (slotWidth (maxCodeLen enc)),
          srcPos := 0 }) := by rw [hwrite]; rfl
    _ = .ok (s.encoded freq e enc) := by
        rw [hpayload, Nat.zero_add, State.encoded, State.built, ← hpend]
        rfl

/-- What ENCODE's parts make of a source: COUNT the counts `freq`, SELECT_EOF the sentinel `e`, BUILD the table `enc`, whose code
for the sentinel is `ce` (R140, R142, R143). -/
structure State.EncodesWith (s : State) (freq : FreqTable) (e : Symbol) (enc : EncTable) (ce : Bitstring) : Prop where
  count : countBody s = .ok { s.readerReset with freq := freq, srcPos := s.src.length }
  counts : ∀ b, (freqAt freq b).toNat = s.src.count b
  select : leastFrequent freq (observed freq) = some e
  build : ∀ t : State, t.freq = freq → buildBody t = .ok { t with enc := enc }
  table : StreamTable enc e ce
  coded : ∀ b, encAt enc b ≠ none ↔ b ∈ s.src

/-- The counted symbols are the source's bytes. -/
theorem freqAt_ne_zero_iff_mem {freq : FreqTable} {src : List Byte} (h : ∀ b, (freqAt freq b).toNat = src.count b) (b : Byte) :
    freqAt freq b ≠ 0 ↔ b ∈ src := by
  rw [← List.count_pos_iff, ← h, Nat.pos_iff_ne_zero, ne_eq, ne_eq, BitVec.toNat_eq]
  rfl

/-- Every source that is not empty and not too long has its counts, its sentinel and its table; the sentinel's code ends in a 1
(40_tree_builder.md R147 d). -/
theorem exists_encodesWith {s : State} (hsrc : s.src ≠ []) (hlen : s.src.length < 2 ^ 32) :
    ∃ freq e enc c, s.EncodesWith freq e enc (c ++ [true]) := by
  obtain ⟨freq, hcount, hfreq⟩ := countBody_ok hlen
  have hmem := freqAt_ne_zero_iff_mem hfreq
  obtain ⟨b, hb⟩ := List.exists_mem_of_ne_nil _ hsrc
  obtain ⟨e, he⟩ := Option.ne_none_iff_exists'.1 fun hnone : leastFrequent freq (observed freq) = none =>
    (hmem b).2 hb ((observed_eq_nil freq).1 (leastFrequent_eq_none.1 hnone) b)
  obtain ⟨enc, hbuild, hdom, hfree, hbits⟩ := buildBody_spec (s := { s with freq := freq }) ⟨b, (hmem b).2 hb⟩
  obtain ⟨enc', c, hbuild', hc⟩ := buildBody_sentinel (s := { s with freq := freq }) he
  obtain rfl : enc = enc' := congrArg State.enc (Body.ok.inj (hbuild.symm.trans hbuild'))
  exact ⟨freq, e, enc, c, hcount, hfreq, he, fun t ht => buildBody_of_freq_eq ht hbuild,
    ⟨hc, hfree, fun b c h => ⟨(hbits b c h).1, (hbits b c h).2.2.trans (by decide)⟩⟩, fun b => (hdom b).trans (hmem b)⟩

/-- ENCODE ends with what its parts made and the stream written with it. -/
theorem State.EncodesWith.exec_encode {s : State} {freq : FreqTable} {e : Symbol} {enc : EncTable} {ce : Bitstring}
    (h : s.EncodesWith freq e enc ce) (hlegal : s.params.legal = true) (hpend : s.bwPend = []) :
    exec .encode s = .next (s.encoded freq e enc).complete := by
  have hbuilt : ((countBody s).andThen selectEofBody).andThen buildBody = .ok (s.built freq e enc) := by
    rw [h.count, Body.andThen_ok, selectEofBody_of_leastFrequent h.select, Body.andThen_ok]
    exact h.build _ rfl
  exact congrArg finish (encodeBody_of_built hlegal hpend hbuilt h.table.sentinel)

/-- Settles O54: the three commands one after another make the same counts, sentinel and table as ENCODE's parts. -/
theorem encodeWritesStream : Obligations.EncodeWritesStream := by
  intro s hlegal hpend hsrc hlen
  obtain ⟨freq, e, enc, c, h⟩ := exists_encodesWith hsrc hlen
  have hmem := freqAt_ne_zero_iff_mem h.counts
  obtain ⟨he, hleast⟩ := leastFrequent_spec (observed_rising freq) h.select
  have hwrite := writeTableBody_ok (s := { (s.encoded freq e enc).complete with snk := [] }) rfl h.table.sentinel hpend
  refine ⟨_, _, _, _, _, _, h.exec_encode hlegal hpend, congrArg finish h.count,
    congrArg finish (selectEofBody_of_leastFrequent h.select), congrArg finish (h.build _ rfl), rfl, h.counts, h.coded,
    (hmem e).1 ((mem_observed freq e).1 he), fun b hb => ?_, h.table.free, ⟨_, congrArg finish hwrite, rfl, rfl⟩,
    bitsOfBytes_emitBits _⟩
  obtain ⟨hle, htie⟩ := hleast b ((mem_observed freq b).2 ((hmem b).2 hb))
  show s.src.count e ≤ s.src.count b ∧ (s.src.count b = s.src.count e → e ≤ b)
  rw [← h.counts, ← h.counts]
  exact ⟨hle, fun heq => htie (BitVec.eq_of_toNat_eq heq)⟩

/-- Settles O60: what ENCODE appends is a stream that DECODE inverts, with the padding as its tail, since the sentinel's code
ends in a 1. -/
theorem encodeDecodeRoundTrip : Obligations.EncodeDecodeRoundTrip := by
  intro s hlegal hpend hpos hlen
  obtain ⟨freq, e, enc, c, h⟩ := exists_encodesWith (List.ne_nil_of_length_pos hpos) (Nat.lt_of_le_pred (by decide) hlen)
  refine ⟨_, s.params.magic ++ preamble enc e ++ emitBits (payloadBits enc e s.src), h.exec_encode hlegal hpend, rfl, ?_,
    fun u hmagic hsrc hstart => ?_⟩
  · show s.snk ++ s.params.magic ++ preamble enc e ++ emitBits _ = _
    simp only [List.append_assoc]
  have hwrite := writeTableBody_ok (s := { (s.encoded freq e enc).complete with snk := [] }) rfl h.table.sentinel hpend
  obtain ⟨v, k, r, hdecode, -, hv, -⟩ := decodeRecoversContent { (s.encoded freq e enc).complete with snk := [] } _ s.src _
    (List.replicate _ false) rfl hpend rfl h.table.sentinel h.table.free h.table.len (fun b hb => (h.coded b).2 hb)
    (congrArg finish hwrite) (.inr ⟨⟨c, rfl⟩, by rw [List.length_replicate]⟩) u (emitBits (payloadBits enc e s.src))
    (by rw [State.unread, hsrc, hstart, hmagic]; rfl) (bitsOfBytes_emitBits _)
  exact ⟨v, hdecode, by rw [hv], by rw [hv]⟩

end Sys2Proof.Machine
end

section
/-! NOP, CLEAR and the reserved opcodes (45_control.md R260 to R262). -/

namespace Sys2Proof.Machine

/-! ### NOP -/

/-- NOP's rule makes no change; its completion step writes BUSY and DONE only (R260, 10_state.md R38). -/
theorem exec_nop (s : State) : exec .nop s = .next s.complete := rfl

theorem decodeOpcode_zero : decodeOpcode 0 = .nop := rfl

/-- The block's turn after a NOP was written to CMD (10_state.md R38). -/
theorem step_pendingNop {s : State} {rest : List Turn} (hbusy : s.busy = true) (hop : s.pendingOp = 0)
    (h : s.agenda = .block :: rest) : step s = .next ({ s with agenda := rest } : State).complete := by
  have hnop : decodeOpcode s.pendingOp = .nop := by rw [hop, decodeOpcode_zero]
  calc step s = exec (decodeOpcode s.pendingOp) { s with agenda := rest } := (step_block h).trans (blockTurn_busy _ hbusy)
    _ = .next ({ s with agenda := rest } : State).complete := by rw [hnop, exec_nop]

/-- Settles O27: command start alone clears the error latch (60_exceptions.md R276), and NOP's completion leaves it clear. -/
theorem nopEffect : Obligations.NopEffect := by
  refine ⟨exec_nop, fun s rest hidle h => ⟨_, commandStart s 0 (.block :: rest) hidle h, ?_⟩⟩
  exact step_pendingNop rfl rfl rfl

/-! ### CLEAR -/

/-- Settles O28: the flush emits the pending bits before the teardown, and the tables put in place have no count and no code. -/
theorem clearEffect : Obligations.ClearEffect := fun s =>
  ⟨emitBits s.bwPend, bitsOfBytes_emitBits s.bwPend, s.writerFlush.readerReset.clearTables.complete, rfl,
    freqAt_freqZero, encAt_encEmpty, rfl⟩

/-! ### Reserved opcodes -/

/-- The one rule of the four reserved rows takes RESERVED_OPCODE in the state it finds (R262, 60_exceptions.md R272). -/
theorem finish_reservedBody (s : State) : finish (reservedBody s) = .next (s.takeError .reservedOpcode) := rfl

/-- Settles O29: the opcode plays no part in the rule of its row. -/
theorem reservedOpcodesRaise : Obligations.ReservedOpcodesRaise := fun _ s =>
  ⟨finish_reservedBody s, finish_reservedBody s, finish_reservedBody s, finish_reservedBody s⟩

end Sys2Proof.Machine
end

section
/-! The error table (60_exceptions.md R271 to R273). -/

namespace Sys2Proof.Machine

/-- Taking an error is what R272 says: ERR, the code and the detail latched, and the command completed. -/
theorem raisedIn_takeError (e : CmdError) (s : State) : RaisedIn e (s.takeError e) := ⟨rfl, rfl, rfl, rfl, rfl⟩

/-- Settles O25: a rule that returns completes with the latch it found, and a rule that raises latches an error of its row. -/
theorem errorsAreListed : Obligations.ErrorsAreListed := by
  intro i s t hexec
  rcases exec_latch hexec with ⟨u, -, rfl, hkeep⟩ | ⟨e, u, -, rfl, he⟩
  · exact .inl hkeep
  · exact .inr ⟨e, he, raisedIn_takeError e u⟩

/-- Settles O26: each pair is the row of `CmdError.code` and `CmdError.detail`. -/
theorem errorNumbers : Obligations.ErrorNumbers := by
  unfold Obligations.ErrorNumbers
  decide

end Sys2Proof.Machine
end

section
/-! Platform reset and the parameters (70_reset_and_hazards.md R300 to R305). -/

namespace Sys2Proof.Machine

/-! ### Platform reset -/

/-- A reset turn asks nothing of the state: in particular not whether BUSY is 0 (R300). -/
theorem step_platformReset {s : State} {rest : List Turn} (h : s.agenda = .platformReset :: rest) :
    step s = .next ({ s with agenda := rest } : State).platformReset := by
  rw [step_cons h, takeStep]

/-- Settles O2: a reset carries over the parameters, the streams and the model's own fields, and nothing else. -/
theorem platformResetEffect : Obligations.PlatformResetEffect := fun _ _ h =>
  ⟨_, step_platformReset h, rfl, rfl, rfl, rfl, rfl⟩

/-! ### The parameters -/

/-- No register holds a parameter (R305). -/
@[simp] theorem regWrite_params (s : State) (off : Nat) (v : Word) : (s.regWrite off v).params = s.params := by
  unfold State.regWrite
  split <;> rfl

@[simp] theorem platformReset_params (s : State) : s.platformReset.params = s.params := rfl

/-- The parameters are in no command's frame (R305, 30_encoding.md R101). -/
theorem exec_params {i : Instr} {s t : State} (h : exec i s = .next t) : t.params = s.params := by
  rw [exec_writtenBy h]
  cases i <;> rfl

/-- Settles O22, turn by turn: a bus write, a bus read, the three stream moves, a reset, the block idle or at a command. -/
theorem parametersNeverChange : Obligations.ParametersNeverChange := by
  intro s t hstep
  rcases step_cases hstep with ⟨_, lanes, off, rest, -, -, rfl⟩ | ⟨_, _, _, rest, -, -, _, _, rfl⟩ |
    ⟨bytes, rest, -, -, rfl⟩ | ⟨rest, -, -, rfl⟩ | ⟨rest, -, -, rfl⟩ | ⟨rest, -, rfl⟩ |
    ⟨-, rest, -, ⟨-, rfl⟩ | ⟨-, hx⟩⟩
  · split_ifs
    · rfl
    · exact regWrite_params _ off _
  · rfl
  · rfl
  · rfl
  · rfl
  · exact platformReset_params _
  · rfl
  · have hkept := exec_params hx
    exact hkept

end Sys2Proof.Machine
end
